-- ==== Sys2Proof/Word.lean ====
section
/-! DEFINITION. The word types of HUFFCODEC (00_scope.md R13, R14; 30_encoding.md R100). -/

namespace Sys2Proof

/-- A byte, and so a symbol: 8 bits, 0 to 255, always unsigned (00_scope.md R4, R14). -/
abbrev Byte := BitVec 8

/-- One frequency register: `FREQ_BITS` = 32 bits, unsigned (10_state.md R20). -/
abbrev Freq := BitVec 32

/-- A node's weight: `WEIGHT_BITS` = 40 bits, unsigned (10_state.md R26). -/
abbrev Weight := BitVec 40

/-- The 4-byte count, and the value operand of a command (30_encoding.md R101, R121). -/
abbrev Count := BitVec 32

/-- A command word: `CMD_BITS` = 48 bits (30_encoding.md R100). -/
abbrev CmdWord := BitVec 48

/-- A bit on a stream: `false` is 0, `true` is 1 (00_scope.md R14). -/
abbrev Bit := Bool

end Sys2Proof
end

