-- ==== Sys2Proof/Syntax.lean ====
section
/-! DEFINITION. The eleven commands (00_scope.md R3, 30_encoding.md R103), their opcodes by name and their formats. -/

namespace Sys2Proof

/-- One constructor per row of the opcode map (30_encoding.md R103). -/
inductive Instr where
  /-- FCLR: clear the frequency vector (40_build.md R141). -/
  | fclr
  /-- FSET: `FREQ[sym] <- val` (40_build.md R142). -/
  | fset (sym : Byte) (val : Freq)
  /-- BUILD: build the tree from `FREQ` (40_build.md R143). -/
  | build
  /-- TCLR: destroy the tree (40_build.md R160). -/
  | tclr
  /-- ENC: encode symbol `sym` to `OUT` (41_encode.md R170). -/
  | enc (sym : Byte)
  /-- DEC: decode one symbol from `IN` (42_decode.md R190). -/
  | dec
  /-- HSER: serialize the tree header to `OUT` (43_header.md R210). -/
  | hser
  /-- HDES: deserialize a tree header from `IN` (43_header.md R220). -/
  | hdes
  /-- WCNT: write the 4-byte count `val` to `OUT` (44_stream.md R241). -/
  | wcnt (val : Count)
  /-- RCNT: read the 4-byte count from `IN` into `CNT` (44_stream.md R242). -/
  | rcnt
  /-- FLUSH: `flush_bitwise()` on `OUT` (44_stream.md R244). -/
  | flush
  deriving DecidableEq, Repr

/-- The eleven defined values of the `op` field, by mnemonic (30_encoding.md R103). -/
inductive Opcode where
  | fclr | fset | build | tclr | enc | dec | hser | hdes | wcnt | rcnt | flush
  deriving DecidableEq, Repr

/-- Which operand fields a command uses (30_encoding.md R102). -/
inductive Format where
  /-- `op` only. -/
  | n
  /-- `op` and `sym`. -/
  | s
  /-- `op` and `val`. -/
  | v
  /-- `op`, `sym` and `val`. -/
  | sv
  deriving DecidableEq, Repr

/-- The opcode of a command. -/
def Instr.opcode : Instr → Opcode
  | .fclr => .fclr
  | .fset _ _ => .fset
  | .build => .build
  | .tclr => .tclr
  | .enc _ => .enc
  | .dec => .dec
  | .hser => .hser
  | .hdes => .hdes
  | .wcnt _ => .wcnt
  | .rcnt => .rcnt
  | .flush => .flush

/-- The value a command gives the `sym` field; a field its format does not use is zero (30_encoding.md R102). -/
def Instr.symField : Instr → Byte
  | .fset sym _ => sym
  | .enc sym => sym
  | .fclr | .build | .tclr | .dec | .hser | .hdes | .wcnt _ | .rcnt | .flush => 0#8

/-- The value a command gives the `val` field; a field its format does not use is zero (30_encoding.md R102). -/
def Instr.valField : Instr → BitVec 32
  | .fset _ val => val
  | .wcnt val => val
  | .fclr | .build | .tclr | .enc _ | .dec | .hser | .hdes | .rcnt | .flush => 0#32

end Sys2Proof
end

