-- ==== Sys2Proof/WellFormed.lean ====
section
/-! DEFINITION. When the fields of a command word are well formed (30_encoding.md R102, R104). An operand's range is
its type's (30_encoding.md R101), so what is left to check is that the fields a format does not use are zero. -/

namespace Sys2Proof

/-- The three fields of a command word whose `op` is defined (30_encoding.md R101). -/
structure Fields where
  op  : Opcode
  sym : Byte
  val : BitVec 32
  deriving DecidableEq, Repr

/-- The format column of the opcode map (30_encoding.md R103). -/
def Opcode.format : Opcode → Format
  | .fset => .sv
  | .enc => .s
  | .wcnt => .v
  | .fclr | .build | .tclr | .dec | .hser | .hdes | .rcnt | .flush => .n

/-- The must-be-zero column of the format table: a field a format does not use must be zero (30_encoding.md R102). -/
def Format.admits (f : Format) (sym : Byte) (val : BitVec 32) : Bool :=
  match f with
  | .n => sym == 0#8 && val == 0#32
  | .s => val == 0#32
  | .v => sym == 0#8
  | .sv => true

/-- No must-be-zero field of the word is non-zero (30_encoding.md R104). -/
def Fields.wellFormed (c : Fields) : Bool := c.op.format.admits c.sym c.val

/-- The fields a command's word carries (30_encoding.md R101, R107). -/
def Instr.fields (i : Instr) : Fields := { op := i.opcode, sym := i.symField, val := i.valField }

/-- A command is well formed when the fields its word carries are. -/
def Instr.wellFormed (i : Instr) : Bool := i.fields.wellFormed

end Sys2Proof
end

