-- ==== Sys2Proof/Decode.lean ====
section
/-! DEFINITION. The decoder, total on every 48-bit word (30_encoding.md R105), and the encoder (R101, R103, R108). -/

namespace Sys2Proof

/-- Why a command word is illegal. Both reasons raise `IllegalCommand` (60_exceptions.md R295). -/
inductive DecodeError where
  /-- The `op` field is none of the eleven of the opcode map (30_encoding.md R105). -/
  | undefinedOpcode (op : Byte)
  /-- The `op` is defined and a must-be-zero field is not zero (30_encoding.md R104). -/
  | nonZeroField (op : Opcode)
  deriving DecidableEq, Repr

/-- The `op` column of the opcode map (30_encoding.md R103). -/
def Opcode.code : Opcode → Byte
  | .fclr => 0x01#8
  | .fset => 0x02#8
  | .build => 0x03#8
  | .tclr => 0x04#8
  | .enc => 0x10#8
  | .dec => 0x11#8
  | .hser => 0x20#8
  | .hdes => 0x21#8
  | .wcnt => 0x30#8
  | .rcnt => 0x31#8
  | .flush => 0x32#8

/-- The rows of the opcode map, in its order (30_encoding.md R103). -/
def Opcode.all : List Opcode :=
  [.fclr, .fset, .build, .tclr, .enc, .dec, .hser, .hdes, .wcnt, .rcnt, .flush]

/-- The row of the opcode map with a given `op`, if there is one (30_encoding.md R103). -/
def Opcode.ofCode (op : Byte) : Option Opcode := Opcode.all.find? (fun o => o.code == op)

/-- The `op` field, bits 47:40 (30_encoding.md R101). -/
def wordOp (w : CmdWord) : Byte := w.extractLsb' 40 8

/-- The `sym` field, bits 39:32 (30_encoding.md R101). -/
def wordSym (w : CmdWord) : Byte := w.extractLsb' 32 8

/-- The `val` field, bits 31:0 (30_encoding.md R101). -/
def wordVal (w : CmdWord) : BitVec 32 := w.extractLsb' 0 32

/-- The command of an opcode with its operands, taken as they stand (30_encoding.md R107). -/
def Opcode.toInstr (o : Opcode) (sym : Byte) (val : BitVec 32) : Instr :=
  match o with
  | .fclr => .fclr
  | .fset => .fset sym val
  | .build => .build
  | .tclr => .tclr
  | .enc => .enc sym
  | .dec => .dec
  | .hser => .hser
  | .hdes => .hdes
  | .wcnt => .wcnt val
  | .rcnt => .rcnt
  | .flush => .flush

/-- Every 48-bit word is exactly one of the eleven commands or illegal (30_encoding.md R103 to R105). -/
def decode (w : CmdWord) : Except DecodeError Instr :=
  match Opcode.ofCode (wordOp w) with
  | none => .error (.undefinedOpcode (wordOp w))
  | some o =>
    if Fields.wellFormed { op := o, sym := wordSym w, val := wordVal w } then
      .ok (o.toInstr (wordSym w) (wordVal w))
    else .error (.nonZeroField o)

/-- The word of a command: `(op << 40) | (sym << 32) | val` (30_encoding.md R101). -/
def encode (i : Instr) : CmdWord := i.opcode.code ++ (i.symField ++ i.valField : BitVec 40)

/-- The command the decoder reads from a word whose `nbits` bits are numbered as spec/opcode_table.json numbers them:
bit 0 the least significant of the one 48-bit word. -/
def decodeTableWord (nbits w : Nat) : Option Instr :=
  if w % 2 ^ nbits < 2 ^ 48 then
    match decode (BitVec.ofNat 48 (w % 2 ^ nbits)) with
    | .ok i => some i
    | .error _ => none
  else none

end Sys2Proof
end

