-- ==== Sys2Proof/Config.lean ====
section
/-! DEFINITION. The parameters the spec leaves OPEN (00_scope.md R13, decisions D20 and D21) and the sizes it
derives (00_scope.md R11, R12). The two OPEN ones are plain data that a State holds (log 3), so that a statement
about every state holds for every value of them. -/

namespace Sys2Proof

/-- `COUNT_BYTE_ORDER` (44_stream.md R243). -/
inductive ByteOrder where
  /-- Most significant byte first: the value the spec takes. -/
  | big
  /-- Least significant byte first. -/
  | little
  deriving DecidableEq, Repr

/-- The OPEN parameters of 00_scope.md R13. They are fixed for a run: no command writes them. -/
structure Params where
  /-- `COUNT_BYTE_ORDER`. -/
  countByteOrder : ByteOrder
  /-- `COUNT_MAX`, at most 2^32 − 1. -/
  countMax : Count
  deriving DecidableEq, Repr

/-- The values 00_scope.md R13 takes: `big` and 2^31 − 1. -/
def Params.default : Params := { countByteOrder := .big, countMax := 0x7FFFFFFF#32 }

/-- `NODE_MAX`, the most nodes a tree can have (00_scope.md R12). -/
abbrev nodeMax : Nat := 511

/-- `PATH_MAX`, the longest code in bits, and the most internal nodes of a tree (00_scope.md R12, 43_header.md R226). -/
abbrev pathMax : Nat := 255

end Sys2Proof
end

