-- ==== Sys2Proof/Machine/State.lean ====
section
/-! DEFINITION. The state of HUFFCODEC as plain data (10_state.md, 20_memory.md), its reset values (10_state.md R42),
the six faults of the block (60_exceptions.md R290), and the reasons a step of the model can stop. -/

namespace Sys2Proof.Machine

/-- A node reference: `none` is `NULL`, `some i` is the index of `NODE[i]` (10_state.md R27; log 5). -/
abbrev NodeRef := Option Nat

/-- One entry of the node store (10_state.md R26). -/
structure Node where
  /-- The aggregate frequency of the symbols in the subtree. -/
  weight : Weight
  /-- The symbol of a leaf; of an internal node, the symbol of its leftmost leaf. -/
  symbol : Byte
  left   : NodeRef
  right  : NodeRef
  /-- The back-reference ENC walks; `NULL` for the root. -/
  parent : NodeRef
  deriving DecidableEq, Repr

/-- The tree: node store, lookup table and root pointer (10_state.md R26, R28, R32, R34). -/
structure TreeStore where
  /-- The entries in use, `NODE[0..NNODE-1]` in index order. Entries at `NNODE` and above hold no value and no rule
  reads them (10_state.md R28; log 4), so they are not here. -/
  nodes : List Node
  /-- `LEAF[0..255]`. -/
  leaf  : Vector NodeRef 256
  /-- `ROOT`. -/
  root  : NodeRef
  deriving DecidableEq, Repr

/-- The output stream `OUT` (20_memory.md R61). -/
structure OutStream where
  /-- The complete bytes. -/
  bytes : List Byte
  /-- The gathered bits of the partial byte, in the low `nbits` bits. -/
  acc   : Byte
  /-- How many bits are gathered, 0 to 7. -/
  nbits : Fin 8
  deriving DecidableEq, Repr

/-- The input stream `IN` (20_memory.md R68). -/
structure InStream where
  /-- The bytes of the run's input; no command writes them (20_memory.md R69). -/
  bytes : List Byte
  /-- The index of the byte being read. -/
  pos   : Nat
  /-- How many bits of that byte are consumed, 0 to 7. -/
  bit   : Fin 8
  deriving DecidableEq, Repr

/-- The machine's state: every piece the spec names that lives between commands (10_state.md R42). -/
structure State where
  /-- `FREQ[0..255]` (10_state.md R20). -/
  freq   : Vector Freq 256
  /-- `SYM` (10_state.md R22). -/
  sym    : Byte
  /-- `CNT` (10_state.md R23). -/
  cnt    : Count
  /-- `STATUS.ERR`, the stored field of `STATUS` (10_state.md R24, R25). -/
  err    : BitVec 3
  /-- `NODE`, `NNODE`, `LEAF`, `ROOT`. -/
  tree   : TreeStore
  /-- `OUT`. -/
  out    : OutStream
  /-- `IN`. -/
  inp    : InStream
  /-- `DOUT`, the decoded symbols in order (20_memory.md R75). -/
  dout   : List Byte
  /-- `CP`, the commands completed without a fault since reset, and so the index of the next one (10_state.md R37). -/
  cp     : Nat
  /-- The command words the host issues in this run, an input (10_state.md R37, R43; log 1). -/
  cmds   : List CmdWord
  /-- The OPEN parameters, fixed for a run (00_scope.md R13; log 3). -/
  params : Params
  deriving DecidableEq, Repr

/-- The six faults of the block (60_exceptions.md R290, R291). Raising one is a NEXT state (60_exceptions.md R300),
never a stop of the model (log 7). -/
inductive FaultKind where
  /-- ENC of a symbol with no leaf, on a non-empty tree (60_exceptions.md R292). -/
  | invalidSymbol
  /-- A read returned `EOS` where data was due (60_exceptions.md R293). -/
  | truncatedStream
  /-- ENC, DEC or HSER with `ROOT = NULL` (60_exceptions.md R294). -/
  | emptyTree
  /-- An illegal command word, or a WCNT above `COUNT_MAX` (60_exceptions.md R295). -/
  | illegalCommand
  /-- The bytes of `IN` are not a container the block accepts (60_exceptions.md R296). -/
  | badFormat
  /-- A byte access on a stream in the middle of a byte (60_exceptions.md R297). -/
  | misaligned
  deriving DecidableEq, Repr

/-- Why the model stops. Both are for states no run reaches (10_state.md R28, R29, R35; log 8). -/
inductive Fault where
  /-- Raised by ENC, DEC and HSER when a walk stands on a reference that names no entry in use. Safe: the spec gives
  such an entry no value (10_state.md R28) and the model stops instead of choosing one. -/
  | danglingNode
  /-- Raised by ENC, DEC and HSER when a walk is longer than the number of nodes in use, so the links form a cycle.
  Safe: the spec says there is none (10_state.md R35), and the model stops where the walk would not end. -/
  | endlessWalk
  deriving DecidableEq, Repr

/-- Why the model gives a command no meaning. -/
inductive Refusal where
  /-- Raised by `exec` for a command with no meaning yet, by its mnemonic; safe. No arm raises it. -/
  | notModelled (mnemonic : String)
  deriving DecidableEq, Repr

/-- The empty tree: no entry in use, every `LEAF[s]` and `ROOT` `NULL` (10_state.md R42, 40_build.md R160). -/
def TreeStore.empty : TreeStore := { nodes := [], leaf := Vector.replicate 256 none, root := none }

/-- An empty, aligned output stream (10_state.md R42). -/
def OutStream.reset : OutStream := { bytes := [], acc := 0#8, nbits := 0 }

/-- The input stream rewound over given bytes (10_state.md R42). -/
def InStream.rewind (bytes : List Byte) : InStream := { bytes := bytes, pos := 0, bit := 0 }

/-- The machine right after reset (10_state.md R42, 70_reset_and_hazards.md R331), with the run's inputs, which reset
does not change, empty (log 1, log 2) and the parameters at the values the spec takes (log 3). -/
def State.reset : State where
  freq   := Vector.replicate 256 0#32
  sym    := 0#8
  cnt    := 0#32
  err    := 0#3
  tree   := TreeStore.empty
  out    := OutStream.reset
  inp    := InStream.rewind []
  dout   := []
  cp     := 0
  cmds   := []
  params := Params.default

end Sys2Proof.Machine
end

