-- ==== Sys2Proof/Machine/Flags.lean ====
section
/-! DEFINITION. `STATUS` and its fields, the only flags of the block (10_state.md R24, R25), and the fault codes
(60_exceptions.md R291). -/

namespace Sys2Proof.Machine

/-- The code a fault writes to `STATUS.ERR` (60_exceptions.md R291). -/
def FaultKind.code : FaultKind → BitVec 3
  | .invalidSymbol => 1#3
  | .truncatedStream => 2#3
  | .emptyTree => 3#3
  | .illegalCommand => 4#3
  | .badFormat => 5#3
  | .misaligned => 6#3

/-- `STATUS.EMPTY`: `ROOT = NULL` (10_state.md R24, R25). -/
def State.emptyFlag (s : State) : Bool := s.tree.root == none

/-- `STATUS.FAULT`: `ERR ≠ 0` (10_state.md R24, R25). -/
def State.faultFlag (s : State) : Bool := s.err != 0#3

/-- `STATUS`: bits 7:5 zero, `ERR` at 4:2, `FAULT` at 1, `EMPTY` at 0 (10_state.md R24). -/
def State.status (s : State) : BitVec 8 :=
  0#3 ++ s.err ++ BitVec.ofBool s.faultFlag ++ BitVec.ofBool s.emptyFlag

end Sys2Proof.Machine
end

