-- ==== Sys2Proof/Machine/Operands.lean ====
section
/-! DEFINITION. The operand forms: a symbol as an index, the symbols in order, a frequency as a weight, and the four
bytes of the count (30_encoding.md R107; 40_build.md R145; 44_stream.md R243). -/

namespace Sys2Proof.Machine

/-- A symbol operand as the index of `FREQ` and `LEAF`, an unsigned byte (30_encoding.md R107). -/
def symIndex (s : Byte) : Fin 256 := s.toFin

/-- The 256 symbols in ascending order of value, `for s in 0..255` (40_build.md R145). -/
def allSymbols : List Byte := (List.range 256).map (BitVec.ofNat 8)

/-- `zext_40`: a frequency as a weight (00_scope.md R16, 40_build.md R145). -/
def freqWeight (f : Freq) : Weight := f.setWidth 40

/-- Byte `k` of a count, byte 0 the least significant (44_stream.md R243). -/
def countByte (v : Count) (k : Nat) : Byte := v.extractLsb' (8 * k) 8

/-- `count_bytes(v)`, in stream order (44_stream.md R243). -/
def countBytes (order : ByteOrder) (v : Count) : List Byte :=
  match order with
  | .big => [countByte v 3, countByte v 2, countByte v 1, countByte v 0]
  | .little => [countByte v 0, countByte v 1, countByte v 2, countByte v 3]

/-- `count_value(b0, b1, b2, b3)`, the bytes in stream order (44_stream.md R243). -/
def countValue (order : ByteOrder) (b0 b1 b2 b3 : Byte) : Count :=
  match order with
  | .big => b0 ++ b1 ++ b2 ++ b3
  | .little => b3 ++ b2 ++ b1 ++ b0

end Sys2Proof.Machine
end

