-- ==== Sys2Proof/Machine/Ops.lean ====
section
/-! DEFINITION. The named operations: running a command and raising a fault (60_exceptions.md R300, R302), the
streams (20_memory.md), the frequency registers (10_state.md R20), the tree store (10_state.md R28 to R34), and the
host's moves (20_memory.md R84, 70_reset_and_hazards.md R331). -/

namespace Sys2Proof.Machine

/-! ## The result of a command's pseudocode -/

/-- What a piece of pseudocode does to the state `σ` it carries: it returns a value, it raises a fault of the block
(and no later step of it runs, 60_exceptions.md R300), or the model stops (log 8). -/
inductive Run (σ α : Type) where
  | ok (a : α) (s : σ)
  | raise (k : FaultKind) (s : σ)
  | stuck (f : Fault)
  deriving DecidableEq, Repr

/-- One piece of pseudocode after another. -/
def Run.bind {σ α β : Type} (r : Run σ α) (next : α → σ → Run σ β) : Run σ β :=
  match r with
  | .ok a s => next a s
  | .raise k s => .raise k s
  | .stuck f => .stuck f

/-- The same run, its carried state put into a larger one. -/
def Run.within {σ τ α : Type} (put : σ → τ) (r : Run σ α) : Run τ α :=
  match r with
  | .ok a s => .ok a (put s)
  | .raise k s => .raise k (put s)
  | .stuck f => .stuck f

/-! ## Commands and faults -/

/-- `raise X`: `STATUS.ERR` gets the code, nothing else changes, `CP` does not advance (60_exceptions.md R300). -/
def raiseFault (k : FaultKind) (s : State) : State := { s with err := k.code }

/-- A command that completes without a fault advances `CP` by exactly 1 (10_state.md R37). -/
def advance (s : State) : State := { s with cp := s.cp + 1 }

/-- A command presented to the block. In the faulted state it changes nothing (60_exceptions.md R302); otherwise its
pseudocode runs, and it completes or raises its fault. -/
def command (body : State → Run State Unit) (s : State) : Host.Outcome State Fault Refusal :=
  if s.err = 0#3 then
    match body s with
    | .ok _ t => .next (advance t)
    | .raise k t => .next (raiseFault k t)
    | .stuck f => .fault f
  else .next s

/-- An illegal command word raises `IllegalCommand` and does nothing else (30_encoding.md R104, R105). -/
def illegalCommand (s : State) : Host.Outcome State Fault Refusal :=
  command (fun t => .raise .illegalCommand t) s

/-- The word of the next command, if the host has issued one (10_state.md R37). -/
def fetch (s : State) : Option CmdWord := s.cmds[s.cp]?

/-- Between commands the block is idle and keeps all state (60_exceptions.md R311). -/
def idle (s : State) : State := s

/-! ## The output stream -/

/-- `write_bit(b)` (20_memory.md R62). -/
def writeBit (b : Bit) (o : OutStream) : OutStream :=
  let acc := (o.acc <<< 1) ||| (BitVec.ofBool b).setWidth 8
  if o.nbits = 7 then { bytes := o.bytes ++ [acc], acc := 0#8, nbits := 0 }
  else { bytes := o.bytes, acc := acc, nbits := o.nbits + 1 }

/-- Bits written one after another, the first of the list first. -/
def writeBits (bs : List Bit) (o : OutStream) : OutStream := bs.foldl (fun o b => writeBit b o) o

/-- `write_byte(v)`: appends on an aligned stream, raises `Misaligned` otherwise (20_memory.md R64, R65). -/
def writeByte (v : Byte) (o : OutStream) : Run OutStream Unit :=
  if o.nbits = 0 then .ok () { o with bytes := o.bytes ++ [v] } else .raise .misaligned o

/-- Bytes written one after another. -/
def writeBytes : List Byte → OutStream → Run OutStream Unit
  | [], o => .ok () o
  | v :: vs, o => (writeByte v o).bind fun _ o => writeBytes vs o

/-- `flush_bitwise()`: pads the partial byte with `PAD_BIT` = 0 (20_memory.md R66, R67). -/
def flushBitwise (o : OutStream) : OutStream :=
  if o.nbits = 0 then o
  else { bytes := o.bytes ++ [o.acc <<< (8 - o.nbits.val)], acc := 0#8, nbits := 0 }

/-! ## The input stream -/

/-- `read_bit()`: the next bit, most significant of its byte first, or `none` for `EOS` (20_memory.md R70). -/
def readBit (i : InStream) : Option Bit × InStream :=
  match i.bytes[i.pos]? with
  | none => (none, i)
  | some v =>
    (some (v.getLsbD (7 - i.bit.val)),
      if i.bit = 7 then { i with bit := 0, pos := i.pos + 1 } else { i with bit := i.bit + 1 })

/-- `read_byte()`: the next byte, or `none` for `EOS`; raises `Misaligned` in the middle of a byte (20_memory.md R72,
R73). -/
def readByte (i : InStream) : Run InStream (Option Byte) :=
  if i.bit = 0 then
    match i.bytes[i.pos]? with
    | none => .ok none i
    | some v => .ok (some v) { i with pos := i.pos + 1 }
  else .raise .misaligned i

/-- `read_byte()` where a byte is due: `EOS` raises `TruncatedStream` (43_header.md R222, 44_stream.md R242). -/
def needByte (i : InStream) : Run InStream Byte :=
  (readByte i).bind fun v i =>
    match v with
    | none => .raise .truncatedStream i
    | some v => .ok v i

/-! ## The symbol sink -/

/-- `emit_symbol(v)` (20_memory.md R76). -/
def emitSymbol (v : Byte) (s : State) : State := { s with sym := v, dout := s.dout ++ [v] }

/-! ## The frequency registers -/

/-- `FREQ[s]` (10_state.md R20). -/
def readFreq (f : Vector Freq 256) (s : Byte) : Freq := f[symIndex s]

/-- `FREQ[s] <- v` (10_state.md R20). -/
def writeFreq (f : Vector Freq 256) (s : Byte) (v : Freq) : Vector Freq 256 := f.set (symIndex s) v

/-- `for s in 0..255: FREQ[s] <- 0` (40_build.md R141). -/
def clearFreq : Vector Freq 256 := Vector.replicate 256 0#32

/-! ## The tree store -/

/-- `NNODE`, the number of entries in use (10_state.md R28). -/
def TreeStore.nnode (t : TreeStore) : Nat := t.nodes.length

/-- `NODE[i]`, if it is in use (10_state.md R26). -/
def TreeStore.node? (t : TreeStore) (i : Nat) : Option Node := t.nodes[i]?

/-- `LEAF[s]` (10_state.md R32). -/
def TreeStore.leafOf (t : TreeStore) (s : Byte) : NodeRef := t.leaf[symIndex s]

/-- `LEAF[s] <- r` (10_state.md R32). -/
def TreeStore.setLeaf (t : TreeStore) (s : Byte) (r : NodeRef) : TreeStore :=
  { t with leaf := t.leaf.set (symIndex s) r }

/-- `is_leaf(i)` (10_state.md R29). -/
def Node.isLeaf (n : Node) : Bool := n.left == none && n.right == none

/-- `new_node(w, s, l, r)`: the next index and the store with that entry (10_state.md R28). -/
def TreeStore.newNode (t : TreeStore) (w : Weight) (s : Byte) (l r : NodeRef) : Nat × TreeStore :=
  (t.nnode, { t with nodes := t.nodes ++ [{ weight := w, symbol := s, left := l, right := r, parent := none }] })

/-- `NODE[i].parent <- p` (40_build.md R148, 43_header.md R222). -/
def TreeStore.setParent (t : TreeStore) (i p : Nat) : TreeStore :=
  { t with nodes := t.nodes.modify i fun n => { n with parent := some p } }

/-- A node in use with its `weight` and `symbol`, which nothing rewrites once `new_node` has set them (log 11). -/
structure Keyed where
  node   : Nat
  weight : Weight
  symbol : Byte
  deriving DecidableEq, Repr

/-- A new leaf for `s`, recorded in the lookup table (40_build.md R145, 43_header.md R222). -/
def TreeStore.addLeaf (t : TreeStore) (w : Weight) (s : Byte) : Keyed × TreeStore :=
  let (i, t) := t.newNode w s none none
  ({ node := i, weight := w, symbol := s }, t.setLeaf s (some i))

/-- A new internal node over `a` (left) and `b` (right): the sum of their weights, the symbol of `a`, and the parent
links of both (40_build.md R148, R149; 43_header.md R222). -/
def TreeStore.join (t : TreeStore) (a b : Keyed) : Keyed × TreeStore :=
  let w := a.weight + b.weight
  let (n, t) := t.newNode w a.symbol (some a.node) (some b.node)
  ({ node := n, weight := w, symbol := a.symbol }, (t.setParent a.node n).setParent b.node n)

/-! ## The host's moves -/

/-- What the host may read between commands (20_memory.md R84). -/
structure Observation where
  status : BitVec 8
  sym    : Byte
  cnt    : Count
  out    : List Byte
  dout   : List Byte
  deriving DecidableEq, Repr

/-- The outputs the host sees: `STATUS`, `SYM`, `CNT`, `OUT.bytes`, `DOUT` (20_memory.md R84). -/
def State.observe (s : State) : Observation :=
  { status := s.status, sym := s.sym, cnt := s.cnt, out := s.out.bytes, dout := s.dout }

/-- Reset: every piece of state at the value of 10_state.md R42, `IN.bytes`, the command list and the parameters as
they were (70_reset_and_hazards.md R330, R331; 10_state.md R43; log 10). -/
def hostReset (s : State) : State :=
  { State.reset with inp := InStream.rewind s.inp.bytes, cmds := s.cmds, params := s.params }

/-- The inputs of a run, supplied before it begins: the command words and `IN.bytes` (20_memory.md R69, 10_state.md
R43), on a machine just reset (70_reset_and_hazards.md R336). -/
def hostLoad (cmds : List CmdWord) (bytes : List Byte) (s : State) : State :=
  { hostReset s with inp := InStream.rewind bytes, cmds := cmds }

/-- The command list with `w` at index `k`; indices the list does not reach are filled with zero words. -/
def placeWord : List CmdWord → Nat → CmdWord → List CmdWord
  | [], 0, w => [w]
  | _ :: ws, 0, w => w :: ws
  | [], k + 1, w => 0#48 :: placeWord [] k w
  | v :: ws, k + 1, w => v :: placeWord ws k w

end Sys2Proof.Machine
end

