-- ==== Sys2Proof/Machine/Build.lean ====
section
/-! DEFINITION. The tree construction family: FCLR, FSET, BUILD, TCLR (40_build.md). -/

namespace Sys2Proof.Machine

/-- FCLR (40_build.md R141). -/
def execFclr (s : State) : Host.Outcome State Fault Refusal :=
  command (fun s => .ok () { s with freq := clearFreq }) s

/-- FSET s, v (40_build.md R142). -/
def execFset (sym : Byte) (val : Freq) (s : State) : Host.Outcome State Fault Refusal :=
  command (fun s => .ok () { s with freq := writeFreq s.freq sym val }) s

/-- `a` comes before `b` in the priority structure: `(weight, symbol)`, weight first, both unsigned (40_build.md
R146). -/
def Keyed.before (a b : Keyed) : Bool :=
  a.weight < b.weight || (a.weight == b.weight && a.symbol < b.symbol)

/-- `PQ.insert`: `PQ` is kept in ascending order of its keys, so `extract_min` takes the head (40_build.md R146; the
structure is free, 10_state.md R43; log 11). -/
def pqInsert (e : Keyed) : List Keyed → List Keyed
  | [] => [e]
  | x :: q => if e.before x then e :: x :: q else x :: pqInsert e q

/-- Step 1 for one symbol: a leaf if its frequency is positive (40_build.md R145). -/
def buildLeaf (freq : Vector Freq 256) (acc : TreeStore × List Keyed) (s : Byte) : TreeStore × List Keyed :=
  if readFreq freq s = 0#32 then acc
  else
    let (e, t) := acc.1.addLeaf (freqWeight (readFreq freq s)) s
    (t, pqInsert e acc.2)

/-- Step 1: the leaves, in ascending order of symbol, from the empty tree of step 0 (40_build.md R144, R145). -/
def buildLeaves (freq : Vector Freq 256) : TreeStore × List Keyed :=
  allSymbols.foldl (buildLeaf freq) (TreeStore.empty, [])

/-- Step 2: `while PQ.size > 1`, join the two least; the number bounds the merges (40_build.md R148). -/
def mergeAll : Nat → TreeStore → List Keyed → TreeStore × List Keyed
  | n + 1, t, a :: b :: q =>
    let (e, t) := t.join a b
    mergeAll n t (pqInsert e q)
  | _, t, q => (t, q)

/-- BUILD's tree: a function of `FREQ` alone (40_build.md R147, R151). Each merge shortens `PQ` by one, so its length
bounds them. -/
def buildTree (freq : Vector Freq 256) : TreeStore :=
  let (t, q) := buildLeaves freq
  let (t, q) := mergeAll q.length t q
  { t with root := q.head?.map Keyed.node }

/-- BUILD (40_build.md R143, R151). It raises nothing, also with no positive frequency (R153). -/
def execBuild (s : State) : Host.Outcome State Fault Refusal :=
  command (fun s => .ok () { s with tree := buildTree s.freq }) s

/-- TCLR (40_build.md R160). -/
def execTclr (s : State) : Host.Outcome State Fault Refusal :=
  command (fun s => .ok () { s with tree := TreeStore.empty }) s

end Sys2Proof.Machine
end

