-- ==== Sys2Proof/Machine/Decoder.lean ====
section
/-! DEFINITION. The decoder: DEC (42_decode.md). -/

namespace Sys2Proof.Machine

/-- The loop of DEC from `CUR` = `cur`: at a leaf return its symbol, otherwise read one bit, 0 to `left` and 1 to
`right` (42_decode.md R192); `EOS` raises `TruncatedStream` (R194). The number bounds the steps (log 8). -/
def decWalk (nodes : List Node) : Nat → NodeRef → InStream → Run InStream Byte
  | n, cur, i =>
    match cur.bind fun c => nodes[c]? with
    | none => .stuck .danglingNode
    | some nd =>
      if nd.isLeaf then .ok nd.symbol i
      else
        match n with
        | 0 => .stuck .endlessWalk
        | n + 1 =>
          match readBit i with
          | (none, i) => .raise .truncatedStream i
          | (some false, i) => decWalk nodes n nd.left i
          | (some true, i) => decWalk nodes n nd.right i

/-- The body of DEC: the check (42_decode.md R191), the walk, and `emit_symbol` (R192). -/
def decBody (s : State) : Run State Unit :=
  match s.tree.root with
  | none => .raise .emptyTree s
  | some r =>
    ((decWalk s.tree.nodes s.tree.nnode (some r) s.inp).within fun i => { s with inp := i }).bind fun v s =>
      .ok () (emitSymbol v s)

/-- DEC (42_decode.md R190). -/
def execDec (s : State) : Host.Outcome State Fault Refusal := command decBody s

end Sys2Proof.Machine
end

