-- ==== Sys2Proof/Machine/Encoder.lean ====
section
/-! DEFINITION. The encoder: ENC (41_encode.md). -/

namespace Sys2Proof.Machine

/-- The first loop of ENC: from `CUR` = `cur`, push 0 or 1 for each step to a parent onto `PSTK` = `stk` and stop at
the node whose `parent` is `NULL` (41_encode.md R172). The number bounds the steps (log 8). -/
def pathUp (nodes : List Node) : Nat → Nat → List Bit → Except Fault (List Bit)
  | n, cur, stk =>
    match nodes[cur]? with
    | none => .error .danglingNode
    | some nd =>
      match nd.parent with
      | none => .ok stk
      | some p =>
        match nodes[p]? with
        | none => .error .danglingNode
        | some pn =>
          match n with
          | 0 => .error .endlessWalk
          | n + 1 => pathUp nodes n p ((pn.left != some cur) :: stk)

/-- The body of ENC: the checks (41_encode.md R171), the walk, and the bits popped root side first (R172). -/
def encBody (sym : Byte) (s : State) : Run State Unit :=
  match s.tree.root with
  | none => .raise .emptyTree s
  | some _ =>
    match s.tree.leafOf sym with
    | none => .raise .invalidSymbol s
    | some i =>
      match pathUp s.tree.nodes s.tree.nnode i [] with
      | .error f => .stuck f
      | .ok bits => .ok () { s with out := writeBits bits s.out }

/-- ENC s (41_encode.md R170). -/
def execEnc (sym : Byte) (s : State) : Host.Outcome State Fault Refusal := command (encBody sym) s

end Sys2Proof.Machine
end

