-- ==== Sys2Proof/Machine/Framing.lean ====
section
/-! DEFINITION. The stream framing family: WCNT, RCNT, FLUSH (44_stream.md). -/

namespace Sys2Proof.Machine

/-- The body of WCNT: the range check, the alignment check, four bytes (44_stream.md R241). -/
def wcntBody (val : Count) (s : State) : Run State Unit :=
  if s.params.countMax < val then .raise .illegalCommand s
  else if s.out.nbits = 0 then
    (writeBytes (countBytes s.params.countByteOrder val) s.out).within fun o => { s with out := o }
  else .raise .misaligned s

/-- WCNT v (44_stream.md R241). -/
def execWcnt (val : Count) (s : State) : Host.Outcome State Fault Refusal := command (wcntBody val) s

/-- Four due bytes, assembled (44_stream.md R242, R243). -/
def readCount (order : ByteOrder) (i : InStream) : Run InStream Count :=
  (needByte i).bind fun b0 i =>
    (needByte i).bind fun b1 i =>
      (needByte i).bind fun b2 i =>
        (needByte i).bind fun b3 i => .ok (countValue order b0 b1 b2 b3) i

/-- The body of RCNT: the alignment check, four bytes, the range check, `CNT` (44_stream.md R242). -/
def rcntBody (s : State) : Run State Unit :=
  if s.inp.bit = 0 then
    ((readCount s.params.countByteOrder s.inp).within fun i => { s with inp := i }).bind fun n s =>
      if s.params.countMax < n then .raise .badFormat s else .ok () { s with cnt := n }
  else .raise .misaligned s

/-- RCNT (44_stream.md R242). -/
def execRcnt (s : State) : Host.Outcome State Fault Refusal := command rcntBody s

/-- FLUSH (44_stream.md R244). -/
def execFlush (s : State) : Host.Outcome State Fault Refusal :=
  command (fun s => .ok () { s with out := flushBitwise s.out }) s

end Sys2Proof.Machine
end

