-- ==== Sys2Proof/Machine/Header.lean ====
section
/-! DEFINITION. The header family: HSER and HDES (43_header.md). -/

namespace Sys2Proof.Machine

/-- `MARK_INTERNAL` (00_scope.md R11). -/
def markInternal : Byte := 0x00#8

/-- `MARK_LEAF` (00_scope.md R11). -/
def markLeaf : Byte := 0x01#8

/-- `ser(i)`: the pre-order traversal from `CUR` = `cur`, with the flush after a leaf's marker (43_header.md R212,
R213). The number bounds the depth (log 8). -/
def serialize (nodes : List Node) : Nat → NodeRef → OutStream → Run OutStream Unit
  | n, cur, o =>
    match cur.bind fun c => nodes[c]? with
    | none => .stuck .danglingNode
    | some nd =>
      if nd.isLeaf then
        (writeByte markLeaf o).bind fun _ o => writeByte nd.symbol (flushBitwise o)
      else
        match n with
        | 0 => .stuck .endlessWalk
        | n + 1 =>
          (writeByte markInternal o).bind fun _ o =>
            (serialize nodes n nd.left o).bind fun _ o => serialize nodes n nd.right o

/-- The body of HSER: the checks before any byte is written (43_header.md R211), then `ser(ROOT)` (R212). -/
def hserBody (s : State) : Run State Unit :=
  match s.tree.root with
  | none => .raise .emptyTree s
  | some r =>
    if s.out.nbits = 0 then
      (serialize s.tree.nodes s.tree.nnode (some r) s.out).within fun o => { s with out := o }
    else .raise .misaligned s

/-- HSER (43_header.md R210). -/
def execHser (s : State) : Host.Outcome State Fault Refusal := command hserBody s

/-- What HDES carries: the input stream and the tree being rebuilt (43_header.md R230). -/
structure Loader where
  inp  : InStream
  tree : TreeStore
  deriving DecidableEq, Repr

/-- `read_byte()` of a due byte inside HDES. -/
def Loader.needByte (d : Loader) : Run Loader Byte :=
  (Machine.needByte d.inp).within fun i => { d with inp := i }

/-- The leaf branch of `des()`, after its marker: the symbol byte, `BadFormat` if the symbol has a leaf already, else
a leaf of weight 1 (43_header.md R222 to R225). -/
def desLeaf (d : Loader) : Run Loader Keyed :=
  d.needByte.bind fun v d =>
    match d.tree.leafOf v with
    | some _ => .raise .badFormat d
    | none =>
      let (e, t) := d.tree.addLeaf 1#40 v
      .ok e { d with tree := t }

/-- `des()`: `room` = 255 − `open`, the internal nodes that may still be begun, so the `open = 255` check of
43_header.md R222 and R226 is `room` = 0 and the descent is bounded by it. -/
def des (room : Nat) (d : Loader) : Run Loader Keyed :=
  d.needByte.bind fun m d =>
    if m = markLeaf then desLeaf d
    else if m = markInternal then
      match room with
      | 0 => .raise .badFormat d
      | room + 1 =>
        (des room d).bind fun l d =>
          (des room d).bind fun r d =>
            let (e, t) := d.tree.join l r
            .ok e { d with tree := t }
    else .raise .badFormat d

/-- The body of HDES: alignment, then the clear (43_header.md R221), then the descent, `ROOT` assigned last (R222,
R227). -/
def hdesBody (s : State) : Run State Unit :=
  if s.inp.bit = 0 then
    ((des pathMax { inp := s.inp, tree := TreeStore.empty }).within fun d =>
      { s with inp := d.inp, tree := d.tree }).bind fun r s =>
        .ok () { s with tree := { s.tree with root := some r.node } }
  else .raise .misaligned s

/-- HDES (43_header.md R220). -/
def execHdes (s : State) : Host.Outcome State Fault Refusal := command hdesBody s

end Sys2Proof.Machine
end

