-- ==== Sys2Proof/Machine/Dispatch.lean ====
section
/-! DEFINITION. The dispatch: one arm per command (30_encoding.md R103). -/

namespace Sys2Proof.Machine

/-- The effect of one command. -/
def exec (i : Instr) (s : State) : Host.Outcome State Fault Refusal :=
  match i with
  | .fclr => Sys2Proof.Machine.execFclr s
  | .fset sym val => Sys2Proof.Machine.execFset sym val s
  | .build => Sys2Proof.Machine.execBuild s
  | .tclr => Sys2Proof.Machine.execTclr s
  | .enc sym => Sys2Proof.Machine.execEnc sym s
  | .dec => Sys2Proof.Machine.execDec s
  | .hser => Sys2Proof.Machine.execHser s
  | .hdes => Sys2Proof.Machine.execHdes s
  | .wcnt val => Sys2Proof.Machine.execWcnt val s
  | .rcnt => Sys2Proof.Machine.execRcnt s
  | .flush => Sys2Proof.Machine.execFlush s

end Sys2Proof.Machine
end

