-- ==== Sys2Proof/Machine/Step.lean ====
section
/-! DEFINITION. One step: the next command of the host's list, decoded and run to completion (10_state.md R37,
00_scope.md R17). -/

namespace Sys2Proof.Machine

/-- One step. With no command left the block is idle (60_exceptions.md R311, 70_reset_and_hazards.md R332); an illegal
word raises `IllegalCommand` (30_encoding.md R104, R105). -/
def step (s : State) : Host.Outcome State Fault Refusal :=
  match fetch s with
  | none => .next (idle s)
  | some w =>
    match decode w with
    | .ok i => exec i s
    | .error _ => illegalCommand s

/-- `s` with the word `w`, numbered as spec/opcode_table.json numbers its `nbits` bits, as its next command (log 1,
log 17). -/
def State.withFetchWord (s : State) (nbits w : Nat) : State :=
  { s with cmds := placeWord s.cmds s.cp (BitVec.ofNat 48 (w % 2 ^ nbits)) }

end Sys2Proof.Machine
end

