-- ==== Sys2Proof/Machine/Sequences.lean ====
section
/-! DEFINITION. The pseudo-instructions COMPRESS and DECOMPRESS, which are not commands of the block: the sequences of
commands the host issues (45_sequences.md R260 to R264). -/

namespace Sys2Proof.Machine

/-- `f(s)`: how often `s` occurs in the data, tallied by the host (45_sequences.md R261). -/
def tally (data : List Byte) (s : Byte) : Nat := data.count s

/-- The FSETs of COMPRESS: one for each symbol that occurs, in ascending order (45_sequences.md R261). A tally of 2^32
or more, which data R261 covers does not have, is taken modulo 2^32 (DESIGN CHOICE, log 18). -/
def compressFsets (data : List Byte) : List Instr :=
  (allSymbols.filter fun s => tally data s != 0).map fun s => .fset s (BitVec.ofNat 32 (tally data s))

/-- COMPRESS(S): for the empty sequence no command at all (45_sequences.md R262), else the sequence of R261.
DESIGN CHOICE (log 18): R261 gives the sequence only for at most `COUNT_MAX` symbols; for more the model forms the same
commands, with `n` and the tallies modulo 2^32, and no statement is about them. -/
def compress (data : List Byte) : List Instr :=
  match data with
  | [] => []
  | _ :: _ =>
    [.fclr] ++ compressFsets data ++ [.build, .wcnt (BitVec.ofNat 32 data.length), .hser] ++ data.map .enc ++ [.flush]

/-- The beginning of DECOMPRESS: with no input no command at all (45_sequences.md R264), else the count and the header
(R263). -/
def decompressHead (bytes : List Byte) : List Instr :=
  match bytes with
  | [] => []
  | _ :: _ => [.rcnt, .hdes]

/-- The rest of DECOMPRESS: DEC repeated `CNT` times (45_sequences.md R263). -/
def decompressTail (cnt : Count) : List Instr := List.replicate cnt.toNat .dec

/-- Commands run one after another on a machine, as the host issues them; a stop of the model ends the run. -/
def execAll : List Instr → State → Host.Outcome State Fault Refusal
  | [], s => .next s
  | i :: is, s =>
    match exec i s with
    | .next t => execAll is t
    | .fault f => .fault f
    | .refused r => .refused r

/-- DECOMPRESS: the host reads `CNT` after the count and the header and issues that many DECs (45_sequences.md R263,
R264). -/
def execDecompress (s : State) : Host.Outcome State Fault Refusal :=
  match execAll (decompressHead s.inp.bytes) s with
  | .next t =>
    match s.inp.bytes with
    | [] => .next t
    | _ :: _ => execAll (decompressTail t.cnt) t
  | .fault f => .fault f
  | .refused r => .refused r

end Sys2Proof.Machine
end

