-- ==== Sys2Proof/Machine/View.lean ====
section
/-! DEFINITION. The terms the spec states its laws in: the tree as an inductive value (10_state.md R40), codes (R41),
headers (30_encoding.md R113), the streams as bit sequences (20_memory.md R81), the container (30_encoding.md R120).
The step uses none of them; statements do. -/

namespace Sys2Proof.Machine

/-! ## Streams as sequences of bits -/

/-- The bits of a byte in stream order, bit 7 first (20_memory.md R62, R63). -/
def byteBits (v : Byte) : List Bit := (List.range 8).map fun j => v.getLsbD (7 - j)

/-- Bytes as the bits they hold, in stream order. -/
def bytesBits (vs : List Byte) : List Bit := vs.flatMap byteBits

/-- The gathered bits of the partial byte, first written first (20_memory.md R61). -/
def OutStream.partialBits (o : OutStream) : List Bit :=
  (List.range o.nbits.val).map fun j => o.acc.getLsbD (o.nbits.val - 1 - j)

/-- All the bits `OUT` holds, in the order they were written (20_memory.md R81). -/
def OutStream.bits (o : OutStream) : List Bit := bytesBits o.bytes ++ o.partialBits

/-- The bytes of `IN` from `IN.pos` on. -/
def InStream.restBytes (i : InStream) : List Byte := i.bytes.drop i.pos

/-- The bits of `IN` not consumed yet, in the order `read_bit` returns them (20_memory.md R70). -/
def InStream.restBits (i : InStream) : List Bit := (bytesBits i.restBytes).drop i.bit.val

/-- Up to `n` bits read one after another, stopping at `EOS` (20_memory.md R70). -/
def readBits : Nat → InStream → List Bit × InStream
  | 0, i => ([], i)
  | n + 1, i =>
    match readBit i with
    | (none, i) => ([], i)
    | (some b, i) => (b :: (readBits n i).1, (readBits n i).2)

/-- A bit sequence packed most significant bit first, the last byte padded with zero bits (30_encoding.md R124,
R125): the complete bytes after writing the bits to an empty stream and flushing. -/
def packBits (bs : List Bit) : List Byte := (flushBitwise (writeBits bs OutStream.reset)).bytes

/-! ## The tree as an inductive value -/

/-- A non-empty Huffman tree (10_state.md R40). -/
inductive Tree where
  | leaf (w : Weight) (s : Byte)
  | node (w : Weight) (s : Byte) (l r : Tree)
  deriving DecidableEq, Repr

/-- `weight` of the tree's root node. -/
def Tree.weight : Tree → Weight
  | .leaf w _ => w
  | .node w _ _ _ => w

/-- `symbol` of the tree's root node. -/
def Tree.symbol : Tree → Byte
  | .leaf _ s => s
  | .node _ s _ _ => s

/-- The leaf symbols from left to right. -/
def Tree.symbols : Tree → List Byte
  | .leaf _ s => [s]
  | .node _ _ l r => l.symbols ++ r.symbols

/-- `k`, the number of leaves (00_scope.md R19). -/
def Tree.leaves : Tree → Nat
  | .leaf _ _ => 1
  | .node _ _ l r => l.leaves + r.leaves

/-- The leaves with their depths and weights, from left to right, the root at depth `d`. -/
def Tree.leafDepths : Tree → Nat → List (Byte × Weight × Nat)
  | .leaf w s, d => [(s, w, d)]
  | .node _ _ l r, d => l.leafDepths (d + 1) ++ r.leafDepths (d + 1)

/-- The weights of the internal nodes (40_build.md R157). -/
def Tree.internalWeights : Tree → List Weight
  | .leaf _ _ => []
  | .node w _ l r => w :: (l.internalWeights ++ r.internalWeights)

/-- `code(s)`: the branch bits from the root to the leaf of `s`, root side first, 0 for left and 1 for right
(10_state.md R41, 30_encoding.md R110). -/
def Tree.code : Tree → Byte → Option (List Bit)
  | .leaf _ s, x => if s = x then some [] else none
  | .node _ _ l r, x =>
    match l.code x with
    | some bs => some (false :: bs)
    | none => (r.code x).map (true :: ·)

/-- `header(node)` (30_encoding.md R113). -/
def Tree.header : Tree → List Byte
  | .leaf _ s => [markLeaf, s]
  | .node _ _ l r => markInternal :: (l.header ++ r.header)

/-- Same shape and same leaf symbols: what a header carries (30_encoding.md R116, 43_header.md R229). -/
def Tree.sameShape : Tree → Tree → Bool
  | .leaf _ s, .leaf _ s' => s == s'
  | .node _ _ l r, .node _ _ l' r' => l.sameShape l' && r.sameShape r'
  | .leaf _ _, .node _ _ _ _ => false
  | .node _ _ _ _, .leaf _ _ => false

/-- The depth of the deepest leaf. -/
def Tree.height : Tree → Nat
  | .leaf _ _ => 0
  | .node _ _ l r => max l.height r.height + 1

/-- The tree HDES makes of a tree's header: leaf weights 1, internal weights the sum of the children's, internal
symbols the left child's (43_header.md R222, R223). -/
def Tree.rebuilt : Tree → Tree
  | .leaf _ s => .leaf 1#40 s
  | .node _ _ l r => .node (l.rebuilt.weight + r.rebuilt.weight) l.rebuilt.symbol l.rebuilt r.rebuilt

/-- Every internal weight is the sum of the children's as numbers: no addition wrapped (40_build.md R152). -/
def Tree.exact : Tree → Prop
  | .leaf _ _ => True
  | .node w _ l r => w.toNat = l.weight.toNat + r.weight.toNat ∧ l.exact ∧ r.exact

/-- Every internal symbol is the symbol of the node's leftmost leaf (10_state.md R36). -/
def Tree.leftmost : Tree → Prop
  | .leaf _ _ => True
  | .node _ s l r => l.symbols.head? = some s ∧ l.leftmost ∧ r.leftmost

/-- A code's walk from the root: the symbol of the leaf reached and the bits left over, or nothing when the bits run
out first (42_decode.md R192). -/
def Tree.walk : Tree → List Bit → Option (Byte × List Bit)
  | .leaf _ s, bs => some (s, bs)
  | .node _ _ _ _, [] => none
  | .node _ _ l r, b :: bs => if b then r.walk bs else l.walk bs

/-- The tree below `NODE[i]`, if its links describe one. The number bounds the depth. -/
def treeAt (nodes : List Node) : Nat → Nat → Option Tree
  | n, i =>
    match nodes[i]? with
    | none => none
    | some nd =>
      match nd.left, nd.right with
      | none, none => some (.leaf nd.weight nd.symbol)
      | some l, some r =>
        match n with
        | 0 => none
        | n + 1 =>
          match treeAt nodes n l, treeAt nodes n r with
          | some tl, some tr => some (.node nd.weight nd.symbol tl tr)
          | _, _ => none
      | _, _ => none

/-- The tree the store holds: `none` when `ROOT = NULL` (10_state.md R40). -/
def TreeStore.view (t : TreeStore) : Option Tree := t.root.bind (treeAt t.nodes t.nnode)

/-- `LEAF[s] ≠ NULL`: `s` is a present symbol (00_scope.md R19). -/
def TreeStore.present (t : TreeStore) (s : Byte) : Bool := (t.leafOf s).isSome

/-- The present symbols in ascending order. -/
def TreeStore.presentSymbols (t : TreeStore) : List Byte := allSymbols.filter t.present

/-! ## A header read in part -/

/-- The bytes of a header read so far, where a marker is due next (43_header.md R222). There is one entry for each
internal node begun and not finished, outermost first: `none` while its left child is due, `some l` after its left
child `l`. -/
def begunBytes : List (Option Tree) → List Byte
  | [] => []
  | none :: ps => markInternal :: begunBytes ps
  | some l :: ps => markInternal :: (l.header ++ begunBytes ps)

/-- The leaf symbols among those bytes. -/
def begunSymbols : List (Option Tree) → List Byte
  | [] => []
  | none :: ps => begunSymbols ps
  | some l :: ps => l.symbols ++ begunSymbols ps

/-- No internal marker among those bytes came when `room` internal nodes were open already (43_header.md R226). -/
def begunFits : Nat → List (Option Tree) → Prop
  | _, [] => True
  | 0, _ :: _ => False
  | room + 1, none :: ps => begunFits room ps
  | room + 1, some l :: ps => l.height ≤ room ∧ begunFits room ps

/-! ## BUILD over trees -/

/-- The order of the priority structure, on trees (40_build.md R146). -/
def Tree.before (a b : Tree) : Bool :=
  a.weight < b.weight || (a.weight == b.weight && a.symbol < b.symbol)

/-- `PQ.insert` into an ascending list of trees (40_build.md R146). -/
def insertTree (e : Tree) : List Tree → List Tree
  | [] => [e]
  | x :: q => if e.before x then e :: x :: q else x :: insertTree e q

/-- The merge of two trees: first-extracted left, its symbol copied, the weights added (40_build.md R148, R149). -/
def Tree.merge (a b : Tree) : Tree := .node (a.weight + b.weight) a.symbol a b

/-- The leaves of BUILD, one per positive frequency, in the priority structure (40_build.md R145). -/
def leafTrees (freq : Vector Freq 256) : List Tree :=
  (allSymbols.filter fun s => readFreq freq s != 0#32).foldl
    (fun q s => insertTree (.leaf (freqWeight (readFreq freq s)) s) q) []

/-- While more than one tree remains, merge the two least (40_build.md R148). -/
def mergeTrees : Nat → List Tree → List Tree
  | n + 1, a :: b :: q => mergeTrees n (insertTree (a.merge b) q)
  | _, q => q

/-- The construction of 40_build.md R144 to R150 over inductive trees, which 10_state.md R40 allows a model to use. -/
def huffman (freq : Vector Freq 256) : Option Tree :=
  (mergeTrees (leafTrees freq).length (leafTrees freq)).head?

/-! ## The container -/

/-- The concatenation of the codes of a symbol sequence, if the tree holds them all (30_encoding.md R124). -/
def Tree.payload (t : Tree) : List Byte → Option (List Bit)
  | [] => some []
  | s :: ss =>
    match t.code s, t.payload ss with
    | some c, some cs => some (c ++ cs)
    | _, _ => none

/-- Count, header, payload (30_encoding.md R120 to R125). -/
def container (order : ByteOrder) (n : Count) (t : Tree) (payload : List Bit) : List Byte :=
  countBytes order n ++ t.header ++ packBits payload

end Sys2Proof.Machine
end

