-- ==== Sys2Proof/Safety.lean ====
section
/-! DEFINITION. What counts as a good state, in the terms claims use: the tree invariants of the spec (10_state.md R29
to R35) and the ranges of the other fields, and how a run ends (70_reset_and_hazards.md R336). -/

namespace Sys2Proof.Machine

/-- `NODE[c]` is in use, was allocated before `NODE[i]`, and its parent is `i` (10_state.md R35; 40_build.md R159 and
43_header.md R222 for the order, which excludes cycles). -/
def ChildOf (nodes : List Node) (c i : Nat) : Prop :=
  c < i ∧ ∃ nd : Node, nodes[c]? = some nd ∧ nd.parent = some i

/-- A node is a leaf iff both children are null; every internal node has exactly two children (10_state.md R29), and
they point back to it (R35). -/
def LinksOk (nodes : List Node) (i : Nat) (nd : Node) : Prop :=
  (nd.left = none ∧ nd.right = none) ∨
    ∃ l r, nd.left = some l ∧ nd.right = some r ∧ l ≠ r ∧ ChildOf nodes l i ∧ ChildOf nodes r i

/-- Links down and links up agree, and the nodes without a parent are the given roots (10_state.md R29, R35). One tree
has one root; a tree under construction has several. -/
structure Forest (nodes : List Node) (roots : List Nat) : Prop where
  links  : ∀ (i : Nat) (nd : Node), nodes[i]? = some nd → LinksOk nodes i nd
  parent : ∀ (i : Nat) (nd : Node) (p : Nat), nodes[i]? = some nd → nd.parent = some p →
    ∃ pn : Node, nodes[p]? = some pn ∧ (pn.left = some i ∨ pn.right = some i)
  rootOf : ∀ i, i ∈ roots ↔ ∃ nd : Node, nodes[i]? = some nd ∧ nd.parent = none
  nodup  : roots.Nodup

/-- `LEAF[s] = i` says exactly that `NODE[i]` is in use, is a leaf, and holds `s` (10_state.md R33). -/
def TableOk (t : TreeStore) : Prop :=
  ∀ s i, t.leafOf s = some i ↔ ∃ nd : Node, t.nodes[i]? = some nd ∧ nd.isLeaf = true ∧ nd.symbol = s

/-- The store holds the empty tree or one full binary tree with its lookup table (10_state.md R29 to R35). -/
structure TreeStore.Wf (t : TreeStore) : Prop where
  forest : Forest t.nodes t.root.toList
  table  : TableOk t
  /-- The empty tree uses no entry (10_state.md R31). -/
  empty  : t.root = none → t.nodes = []
  /-- A tree with `k` ≥ 1 leaves uses exactly 2k − 1 entries (10_state.md R31). -/
  size   : t.root ≠ none → t.nnode + 1 = 2 * t.presentSymbols.length

/-- The fields of a state fit together: what holds of every state the commands of a run reach. -/
structure Coherent (s : State) : Prop where
  /-- Code 7 is never written (60_exceptions.md R291). -/
  err     : s.err ≠ 7#3
  /-- The accumulator holds nothing but the gathered bits, so it is 0 when aligned (20_memory.md R61). -/
  acc     : s.out.acc.toNat < 2 ^ s.out.nbits.val
  /-- `IN.pos` is at most the length, and the stream is aligned at its end (20_memory.md R68). -/
  pos     : s.inp.pos ≤ s.inp.bytes.length
  atEnd   : s.inp.pos = s.inp.bytes.length → s.inp.bit = 0
  /-- `NNODE` is at most 511 (10_state.md R28). -/
  nnode   : s.tree.nnode ≤ nodeMax
  /-- The tree is well formed; in the faulted state an HDES may have left a part of one behind `ROOT = NULL`
  (43_header.md R227). -/
  tree    : s.tree.Wf ∨ (s.err ≠ 0#3 ∧ s.tree.root = none)

/-- The invariant of the machine under `step`: a coherent state whose `CP` is the index of a command of the list or
just past its end (10_state.md R37). -/
structure Inv (s : State) : Prop where
  coherent : Coherent s
  cp       : s.cp ≤ s.cmds.length

/-- Both trees are absent, or both are present with the same shape and the same leaf symbols (43_header.md R229). -/
def sameView (a b : Option Tree) : Prop :=
  match a, b with
  | none, none => True
  | some t, some u => t.sameShape u = true
  | none, some _ => False
  | some _, none => False

/-- Two states that differ at most in how they hold trees of one shape: indices, allocation order and weights
(10_state.md R40, 42_decode.md R199). -/
structure Alike (s s' : State) : Prop where
  /-- Everything but the tree is equal. -/
  rest : { s' with tree := s.tree } = s
  tree : s'.tree = s.tree ∨ (s.tree.Wf ∧ s'.tree.Wf ∧ sameView s.tree.view s'.tree.view)

/-- The words that are none of the eleven commands: an undefined `op`, or a non-zero field the format of the `op` does
not use (30_encoding.md R102 to R105), written from the format column of the opcode map. -/
def IllegalWord (w : CmdWord) : Prop :=
  wordOp w ∉ [0x01#8, 0x02#8, 0x03#8, 0x04#8, 0x10#8, 0x11#8, 0x20#8, 0x21#8, 0x30#8, 0x31#8, 0x32#8] ∨
    (wordOp w ∈ [0x01#8, 0x03#8, 0x04#8, 0x11#8, 0x20#8, 0x21#8, 0x31#8, 0x32#8] ∧
      (wordSym w ≠ 0#8 ∨ wordVal w ≠ 0#32)) ∨
    (wordOp w = 0x10#8 ∧ wordVal w ≠ 0#32) ∨ (wordOp w = 0x30#8 ∧ wordSym w ≠ 0#8)

/-- A block that is not faulted and meets the word raises `IllegalCommand` and does nothing else (30_encoding.md R104,
R105). -/
def Refuses (w : CmdWord) : Prop :=
  ∀ s : State, s.err = 0#3 → fetch s = some w → step s = .next { s with err := 4#3 }

/-- The run ends well: no fault since reset (70_reset_and_hazards.md R336). -/
def State.endsWell (s : State) : Prop := s.faultFlag = false

/-- The run is over: the list is exhausted or a command has faulted (70_reset_and_hazards.md R336). -/
def State.runOver (s : State) : Prop := fetch s = none ∨ s.faultFlag = true

end Sys2Proof.Machine
end

