-- ==== Sys2Proof/Certificates/Slice0/Obligations.lean ====
section
/-! DEFINITION. The statements for the provers, in the order of OBLIGATIONS.json. -/

open Sys2Proof Sys2Proof.Machine

/-- The words of 30_encoding.md's assembler syntax table, one for each row of the opcode map, decode to their
commands. -/
def Obligations.OpcodeMapWordsDecode : Prop :=
  decode 0x010000000000#48 = .ok .fclr ∧
  decode 0x024100000005#48 = .ok (.fset 0x41#8 5#32) ∧
  decode 0x030000000000#48 = .ok .build ∧
  decode 0x040000000000#48 = .ok .tclr ∧
  decode 0x104300000000#48 = .ok (.enc 0x43#8) ∧
  decode 0x110000000000#48 = .ok .dec ∧
  decode 0x200000000000#48 = .ok .hser ∧
  decode 0x210000000000#48 = .ok .hdes ∧
  decode 0x300000000005#48 = .ok (.wcnt 5#32) ∧
  decode 0x310000000000#48 = .ok .rcnt ∧
  decode 0x320000000000#48 = .ok .flush

/-- 30_encoding.md R107: `sym` and `val` are the fields 39:32 and 31:0 of the word, as they stand. -/
def Obligations.OperandsAreTakenAsTheyStand : Prop :=
  ∀ w : CmdWord,
    (w.extractLsb' 40 8 = 0x02#8 → decode w = .ok (.fset (w.extractLsb' 32 8) (w.extractLsb' 0 32))) ∧
    (w.extractLsb' 40 8 = 0x10#8 → w.extractLsb' 0 32 = 0#32 → decode w = .ok (.enc (w.extractLsb' 32 8))) ∧
    (w.extractLsb' 40 8 = 0x30#8 → w.extractLsb' 32 8 = 0#8 → decode w = .ok (.wcnt (w.extractLsb' 0 32)))

/-- Decode and encode agree on every command with every operand value (30_encoding.md Part A). -/
def Obligations.DecodeOfEncodeIsTheCommand : Prop :=
  ∀ i : Instr, i.wellFormed = true ∧ decode (encode i) = .ok i

/-- 30_encoding.md R101: the three fields of a word, and the word of a command formed from them. -/
def Obligations.CommandWordIsItsThreeFields : Prop :=
  (∀ w : CmdWord,
    (wordOp w).toNat = w.toNat / 2 ^ 40 ∧ (wordSym w).toNat = w.toNat / 2 ^ 32 % 2 ^ 8 ∧
    (wordVal w).toNat = w.toNat % 2 ^ 32 ∧
    w = (wordOp w).setWidth 48 <<< 40 ||| (wordSym w).setWidth 48 <<< 32 ||| (wordVal w).setWidth 48) ∧
  ∀ i : Instr,
    encode i = i.opcode.code.setWidth 48 <<< 40 ||| i.symField.setWidth 48 <<< 32 ||| i.valField.setWidth 48

/-- The accepted words are those of the eleven (match, mask) rows of the opcode table, and each is the word of the
command it decodes to. -/
def Obligations.DecoderAcceptsExactlyTheTable : Prop :=
  (∀ w : CmdWord, (∃ i, decode w = .ok i) ↔
    ∃ row ∈ ([(0x010000000000#48, 0xFFFFFFFFFFFF#48), (0x020000000000#48, 0xFF0000000000#48),
        (0x030000000000#48, 0xFFFFFFFFFFFF#48), (0x040000000000#48, 0xFFFFFFFFFFFF#48),
        (0x100000000000#48, 0xFF00FFFFFFFF#48), (0x110000000000#48, 0xFFFFFFFFFFFF#48),
        (0x200000000000#48, 0xFFFFFFFFFFFF#48), (0x210000000000#48, 0xFFFFFFFFFFFF#48),
        (0x300000000000#48, 0xFFFF00000000#48), (0x310000000000#48, 0xFFFFFFFFFFFF#48),
        (0x320000000000#48, 0xFFFFFFFFFFFF#48)] : List (CmdWord × CmdWord)), w &&& row.2 = row.1) ∧
  ∀ (w : CmdWord) (i : Instr), decode w = .ok i → encode i = w

/-- 30_encoding.md R104, R105: illegal words, and what the block does with one. -/
def Obligations.IllegalWordRaisesIllegalCommand : Prop :=
  (∀ w : CmdWord, IllegalWord w ↔ ¬ ∃ i, decode w = .ok i) ∧ ∀ w : CmdWord, IllegalWord w → Refuses w

/-- The per-command statements reach a run through this one. The list of words in the state is the model's choice (log
1). -/
def Obligations.StepRunsTheDecodedCommand : Prop :=
  ∀ (s : State) (w : CmdWord) (i : Instr), s.cmds[s.cp]? = some w → decode w = .ok i →
    step s = exec i s

/-- The model's choice of a step with no command (log 9), after the spec's sentence that between commands the block
keeps all state. -/
def Obligations.StepWithoutCommandKeepsTheState : Prop :=
  ∀ s : State, s.cmds.length ≤ s.cp → step s = .next s

/-- 60_exceptions.md R302. -/
def Obligations.FaultedBlockRefusesEveryCommand : Prop :=
  ∀ s : State, s.status.getLsbD 1 = true → (∀ i : Instr, exec i s = .next s) ∧ step s = .next s

/-- CP names the next command after a completion and the faulting command after a fault. -/
def Obligations.CompletionAdvancesCpByOne : Prop :=
  ∀ (i : Instr) (s t : State), exec i s = .next t →
    (s.faultFlag = true → t.cp = s.cp) ∧
    (s.faultFlag = false →
      (t.faultFlag = false ∧ t.cp = s.cp + 1) ∨ ∃ k : FaultKind, t.err = k.code ∧ t.cp = s.cp)

/-- Commands take effect in the order the host issues them, each completely before the next begins; the list in the
state is the model's choice (log 1). -/
def Obligations.RunOfAListIsItsCommandsInOrder : Prop :=
  ∀ (is : List Instr) (s : State), s.cmds.drop s.cp = is.map encode →
    core.run is.length s = execAll is s

/-- The spec's own inference that faults are precise with respect to the outputs the host sees (60_exceptions.md
section 3). -/
def Obligations.FaultsArePreciseForTheHost : Prop :=
  ∀ (i : Instr) (s t : State), s.err = 0#3 → exec i s = .next t → t.err ≠ 0#3 →
    t = { s with err := t.err, tree := t.tree, inp := { s.inp with pos := t.inp.pos, bit := t.inp.bit } } ∧
    (i ≠ .hdes → t.tree = s.tree) ∧ (i ≠ .dec → i ≠ .hdes → i ≠ .rcnt → t.inp = s.inp)

/-- The 'Raised by' column of the table of fault codes, read by command. -/
def Obligations.CommandsRaiseOnlyTheirFaults : Prop :=
  ∀ (i : Instr) (s t : State), s.err = 0#3 → exec i s = .next t →
    t.err ∈ (match i with
      | .fclr | .fset _ _ | .build | .tclr | .flush => [0#3]
      | .enc _ => [0#3, 1#3, 3#3]
      | .dec => [0#3, 2#3, 3#3]
      | .hser => [0#3, 3#3, 6#3]
      | .hdes => [0#3, 2#3, 5#3, 6#3]
      | .wcnt _ => [0#3, 4#3, 6#3]
      | .rcnt => [0#3, 2#3, 5#3, 6#3])

/-- 60_exceptions.md R292. -/
def Obligations.InvalidSymbolIsRaisedOnlyByEnc : Prop :=
  ∀ (i : Instr) (s t : State), s.err = 0#3 → exec i s = .next t →
    (t.err = 1#3 ↔ ∃ x, i = .enc x ∧ s.tree.root ≠ none ∧ s.tree.leafOf x = none) ∧
    (t.err = 1#3 → t.out = s.out)

/-- 60_exceptions.md R294. -/
def Obligations.EmptyTreeIsRaisedOnTheEmptyTree : Prop :=
  (∀ (i : Instr) (s t : State), s.err = 0#3 → exec i s = .next t →
    (t.err = 3#3 ↔ ((∃ x, i = .enc x) ∨ i = .dec ∨ i = .hser) ∧ s.tree.root = none)) ∧
  ∀ s : State, s.err = 0#3 → s.tree.root = none →
    (∀ x, exec (.enc x) s = .next { s with err := 3#3 }) ∧ exec .dec s = .next { s with err := 3#3 } ∧
    exec .hser s = .next { s with err := 3#3 }

/-- Which command meets Misaligned when, after the checks that come before it (60_exceptions.md section 5). -/
def Obligations.MisalignedIsRaisedByByteCommandsInMidByte : Prop :=
  ∀ (i : Instr) (s t : State), s.err = 0#3 → exec i s = .next t →
    (t.err = 6#3 ↔
      (i = .hser ∧ s.tree.root ≠ none ∧ s.out.nbits ≠ 0) ∨
      (∃ v, i = .wcnt v ∧ v ≤ s.params.countMax ∧ s.out.nbits ≠ 0) ∨
      ((i = .hdes ∨ i = .rcnt) ∧ s.inp.bit ≠ 0)) ∧
    (t.err = 6#3 → t = { s with err := 6#3 })

/-- 10_state.md R44. -/
def Obligations.OnlyBuildHdesTclrWriteTheTree : Prop :=
  (∀ (i : Instr) (s t : State), exec i s = .next t → i ≠ .build → i ≠ .hdes → i ≠ .tclr → t.tree = s.tree) ∧
  (∀ s t : State, s.err = 0#3 → exec .build s = .next t → t.tree = buildTree s.freq) ∧
  (∀ s t : State, s.err = 0#3 → exec .hdes s = .next t → t.err = 0#3 → t.tree.root ≠ none) ∧
  (∀ s t : State, s.err = 0#3 → exec .tclr s = .next t → t.tree = TreeStore.empty) ∧
  ∀ s : State, (hostReset s).tree = TreeStore.empty

/-- Who writes the result register SYM, the sink and the streams. -/
def Obligations.OnlyTheirCommandsWriteTheStreams : Prop :=
  ∀ (i : Instr) (s t : State), exec i s = .next t →
    (i ≠ .dec → t.sym = s.sym ∧ t.dout = s.dout) ∧
    ((∀ x, i ≠ .enc x) → i ≠ .hser → (∀ v, i ≠ .wcnt v) → i ≠ .flush → t.out = s.out) ∧
    (i ≠ .dec → i ≠ .hdes → i ≠ .rcnt → t.inp = s.inp) ∧
    t.inp.bytes = s.inp.bytes ∧ t.cmds = s.cmds ∧ t.params = s.params

/-- 10_state.md R21. -/
def Obligations.FreqIsWrittenByThreeAndReadByBuild : Prop :=
  (∀ (i : Instr) (s t : State), exec i s = .next t → i ≠ .fclr → (∀ x v, i ≠ .fset x v) → t.freq = s.freq) ∧
  (∀ (s t : State) (x : Byte), s.err = 0#3 → exec .fclr s = .next t → readFreq t.freq x = 0#32) ∧
  (∀ (s t : State) (x y : Byte) (v : Freq), exec (.fset x v) s = .next t → y ≠ x →
    readFreq t.freq y = readFreq s.freq y) ∧
  (∀ (s : State) (x : Byte), readFreq (hostReset s).freq x = 0#32) ∧
  (∀ (i : Instr) (s t : State) (f : Vector Freq 256), exec i s = .next t → i ≠ .build →
    ∃ g, exec i { s with freq := f } = .next { t with freq := g }) ∧
  ∀ (s : State) (f : Vector Freq 256), ({ s with freq := f } : State).observe = s.observe

/-- 10_state.md R23. -/
def Obligations.CntHoldsTheLastCountAndIsNeverRead : Prop :=
  (∀ (i : Instr) (s t : State), exec i s = .next t → i ≠ .rcnt ∨ t.err ≠ 0#3 → t.cnt = s.cnt) ∧
  (∀ s t : State, s.err = 0#3 → exec .rcnt s = .next t → t.err = 0#3 →
    ∃ b0 b1 b2 b3, s.inp.restBytes = b0 :: b1 :: b2 :: b3 :: t.inp.restBytes ∧
      t.cnt = countValue s.params.countByteOrder b0 b1 b2 b3) ∧
  (∀ s : State, (hostReset s).cnt = 0#32 ∧ s.observe.cnt = s.cnt) ∧
  ∀ (i : Instr) (s t : State) (c : Count), exec i s = .next t →
    ∃ d, exec i { s with cnt := c } = .next { t with cnt := d }

/-- 70_reset_and_hazards.md R331. -/
def Obligations.ResetLeavesTheListedValues : Prop :=
  ∀ s : State,
    (∀ x, readFreq (hostReset s).freq x = 0#32) ∧
    (hostReset s).tree.nnode = 0 ∧ (hostReset s).tree.root = none ∧ (∀ x, (hostReset s).tree.leafOf x = none) ∧
    (hostReset s).status = 0x01#8 ∧ (hostReset s).err = 0#3 ∧ (hostReset s).sym = 0#8 ∧
    (hostReset s).cnt = 0#32 ∧ (hostReset s).cp = 0 ∧
    (hostReset s).out = { bytes := [], acc := 0#8, nbits := 0 } ∧
    (hostReset s).inp = { bytes := s.inp.bytes, pos := 0, bit := 0 } ∧ (hostReset s).dout = []

/-- 10_state.md R24. -/
def Obligations.StatusShowsEmptyFaultAndCode : Prop :=
  ∀ s : State,
    (s.status.getLsbD 0 = true ↔ s.tree.root = none) ∧ (s.status.getLsbD 1 = true ↔ s.err ≠ 0#3) ∧
    s.status.extractLsb' 2 3 = s.err ∧ s.status.extractLsb' 5 3 = 0#3 ∧
    (hostReset s).status = 0b00000001#8 ∧ s.observe.status = s.status

/-- 40_build.md R141: encoding, effect with its frame, and the only fault. -/
def Obligations.FclrClearsEveryFrequency : Prop :=
  (∀ s : State, s.err = 0#3 → ∃ f : Vector Freq 256,
    exec .fclr s = .next { s with freq := f, cp := s.cp + 1 } ∧ ∀ x, readFreq f x = 0#32) ∧
  decode 0x010000000000#48 = .ok .fclr ∧ ∀ w, wordOp w = 0x01#8 → w ≠ 0x010000000000#48 → Refuses w

/-- 40_build.md R142: encoding, effect with its frame, no fault. -/
def Obligations.FsetWritesOneFrequency : Prop :=
  (∀ (s : State) (x : Byte) (v : Freq), s.err = 0#3 → ∃ f : Vector Freq 256,
    exec (.fset x v) s = .next { s with freq := f, cp := s.cp + 1 } ∧ readFreq f x = v ∧
      ∀ y, y ≠ x → readFreq f y = readFreq s.freq y) ∧
  ∀ w, wordOp w = 0x02#8 → decode w = .ok (.fset (wordSym w) (wordVal w))

/-- 40_build.md R160: encoding, effect with its frame, the flag, and the only fault. -/
def Obligations.TclrDestroysTheTree : Prop :=
  (∀ s : State, s.err = 0#3 → ∃ t : TreeStore,
    exec .tclr s = .next { s with tree := t, cp := s.cp + 1 } ∧ t.root = none ∧ t.nnode = 0 ∧
      (∀ x, t.leafOf x = none) ∧ ({ s with tree := t } : State).status.getLsbD 0 = true) ∧
  decode 0x040000000000#48 = .ok .tclr ∧ ∀ w, wordOp w = 0x04#8 → w ≠ 0x040000000000#48 → Refuses w

/-- BUILD's node store, lookup table and links refine the construction over inductive trees (10_state.md section 8
allows a model to use those). -/
def Obligations.BuildMakesTheHuffmanTree : Prop :=
  ∀ s : State, s.err = 0#3 → ∃ t : TreeStore,
    exec .build s = .next { s with tree := t, cp := s.cp + 1 } ∧ t.Wf ∧ t.view = huffman s.freq ∧
      ∀ x, t.present x = true ↔ readFreq s.freq x ≠ 0#32

/-- 40_build.md R153. -/
def Obligations.BuildWithNoSymbolLeavesTheEmptyTree : Prop :=
  ∀ s : State, s.err = 0#3 → (∀ x, readFreq s.freq x = 0#32) → ∃ t : State,
    exec .build s = .next t ∧ t = { s with tree := t.tree, cp := s.cp + 1 } ∧ t.tree.root = none ∧
    (∀ x, t.tree.leafOf x = none) ∧ t.tree.nnode = 0 ∧ t.status.getLsbD 0 = true ∧
    (∀ x, exec (.enc x) t = .next { t with err := 3#3 }) ∧ exec .dec t = .next { t with err := 3#3 } ∧
    exec .hser t = .next { t with err := 3#3 }

/-- 40_build.md R154. -/
def Obligations.BuildWithOneSymbolMakesOneLeaf : Prop :=
  ∀ (s : State) (x : Byte), s.err = 0#3 → readFreq s.freq x ≠ 0#32 →
    (∀ y, y ≠ x → readFreq s.freq y = 0#32) → ∃ (t : TreeStore) (r : Nat) (nd : Node),
      exec .build s = .next { s with tree := t, cp := s.cp + 1 } ∧ t.nnode = 1 ∧ t.root = some r ∧
      t.leafOf x = some r ∧ t.node? r = some nd ∧ nd.isLeaf = true ∧ nd.symbol = x ∧
      nd.weight = freqWeight (readFreq s.freq x) ∧ nd.parent = none ∧
      ({ s with tree := t } : State).status.getLsbD 0 = false

/-- The node counts and indices after BUILD (the spec's own inference from its steps; the numbering is not
observable). -/
def Obligations.BuildNumbersLeavesThenInternalNodes : Prop :=
  ∀ s : State, s.err = 0#3 → (∃ x, readFreq s.freq x ≠ 0#32) → ∃ t : TreeStore,
    exec .build s = .next { s with tree := t, cp := s.cp + 1 } ∧
    t.nnode + 1 = 2 * (allSymbols.filter fun x => readFreq s.freq x != 0#32).length ∧
    t.root = some (t.nnode - 1) ∧
    (∀ j x, (allSymbols.filter fun x => readFreq s.freq x != 0#32)[j]? = some x → ∃ nd : Node,
      t.node? j = some nd ∧ nd.isLeaf = true ∧ nd.symbol = x ∧ nd.weight = freqWeight (readFreq s.freq x)) ∧
    ∀ j nd, (allSymbols.filter fun x => readFreq s.freq x != 0#32).length ≤ j → t.node? j = some nd →
      nd.isLeaf = false

/-- The weights after BUILD, as numbers. -/
def Obligations.BuildWeightsAreExactSums : Prop :=
  ∀ (s t : State) (T : Tree), s.err = 0#3 → exec .build s = .next t → t.tree.view = some T →
    (∀ x w d, (x, w, d) ∈ T.leafDepths 0 → w = (readFreq s.freq x).setWidth 40 ∧ w ≠ 0#40) ∧ T.exact ∧
    T.weight.toNat = (allSymbols.map fun x => (readFreq s.freq x).toNat).sum ∧
    T.leaves = (allSymbols.filter fun x => readFreq s.freq x != 0#32).length

/-- The internal symbols after BUILD (10_state.md section 6). -/
def Obligations.BuildKeepsLeftmostSymbols : Prop :=
  ∀ (s t : State) (T : Tree), s.err = 0#3 → exec .build s = .next t → t.tree.view = some T → T.leftmost

/-- The optimality property of 40_build.md R157, and its second identity, which the spec marks as from general
knowledge and not in source (93_implementation_defined.md G2) and as following from the merges of R148. -/
def Obligations.BuiltTreeIsOptimal : Prop :=
  ∀ (s t : State) (T : Tree), s.err = 0#3 → exec .build s = .next t → t.tree.view = some T →
    (∀ c : Byte → List Bit,
      (∀ x y, t.tree.present x = true → t.tree.present y = true → x ≠ y → ¬ c x <+: c y) →
      (t.tree.presentSymbols.map fun x => (readFreq s.freq x).toNat * ((T.code x).getD []).length).sum ≤
        (t.tree.presentSymbols.map fun x => (readFreq s.freq x).toNat * (c x).length).sum) ∧
    (t.tree.presentSymbols.map fun x => (readFreq s.freq x).toNat * ((T.code x).getD []).length).sum =
      (T.internalWeights.map BitVec.toNat).sum

/-- ENC's walk up the parent links, drained, writes the code of the path down (the spec's own inference,
41_encode.md). -/
def Obligations.EncWritesTheCodeOfTheSymbol : Prop :=
  ∀ (s : State) (x : Byte), s.err = 0#3 → s.tree.Wf → s.tree.present x = true → ∃ (T : Tree) (bs : List Bit),
    s.tree.view = some T ∧ T.code x = some bs ∧
    exec (.enc x) s = .next { s with out := writeBits bs s.out, cp := s.cp + 1 } ∧
    (writeBits bs s.out).bits = s.out.bits ++ bs ∧ (T.leaves = 1 → writeBits bs s.out = s.out)

/-- 41_encode.md R171. -/
def Obligations.EncChecksComeBeforeAnyBit : Prop :=
  ∀ (s : State) (x : Byte), s.err = 0#3 →
    (s.tree.root = none → exec (.enc x) s = .next { s with err := 3#3 }) ∧
    (s.tree.root ≠ none → s.tree.leafOf x = none → exec (.enc x) s = .next { s with err := 1#3 })

/-- 41_encode.md R178. -/
def Obligations.CodesArePrefixFree : Prop :=
  ∀ (t : TreeStore) (x y : Byte), t.Wf → t.present x = true → t.present y = true → x ≠ y →
    ∃ (T : Tree) (a b : List Bit), t.view = some T ∧ T.code x = some a ∧ T.code y = some b ∧ ¬ a <+: b

/-- The bounds on code lengths (the spec's own inference, 30_encoding.md section B.1). -/
def Obligations.CodeLengthsStayWithinPathMax : Prop :=
  ∀ (t : TreeStore) (T : Tree), t.Wf → t.view = some T →
    T.leaves ≤ 256 ∧ (∀ x, t.present x = true ↔ (T.code x).isSome = true) ∧
    ∀ x bs, T.code x = some bs → bs.length ≤ 255 ∧ (bs = [] ↔ T.leaves = 1)

/-- DEC inverts ENC for one symbol (the spec's own inference, 42_decode.md). -/
def Obligations.DecReturnsTheCodedSymbol : Prop :=
  ∀ (s : State) (T : Tree) (x : Byte) (bs rest : List Bit), s.err = 0#3 → Coherent s → s.tree.view = some T →
    T.code x = some bs → s.inp.restBits = bs ++ rest → ∃ i : InStream,
      exec .dec s = .next { s with inp := i, sym := x, dout := s.dout ++ [x], cp := s.cp + 1 } ∧
      i.bytes = s.inp.bytes ∧ i.restBits = rest

/-- 42_decode.md R194. -/
def Obligations.DecRaisesTruncatedStreamInMidPath : Prop :=
  ∀ (s : State) (T : Tree), s.err = 0#3 → Coherent s → s.tree.view = some T →
    (∀ x bs, T.code x = some bs → ¬ bs <+: s.inp.restBits) →
      exec .dec s =
        .next { s with err := 2#3, inp := { s.inp with pos := s.inp.bytes.length, bit := 0 } }

/-- 42_decode.md R193. -/
def Obligations.DecOnOneLeafReadsNoBit : Prop :=
  ∀ (s : State) (r : Nat) (nd : Node), s.err = 0#3 → s.tree.root = some r → s.tree.node? r = some nd →
    nd.isLeaf = true →
      exec .dec s = .next { s with sym := nd.symbol, dout := s.dout ++ [nd.symbol], cp := s.cp + 1 } ∧
      ∀ n, execAll (List.replicate (n + 1) .dec) s =
        .next { s with sym := nd.symbol, dout := s.dout ++ List.replicate (n + 1) nd.symbol, cp := s.cp + (n + 1) }

/-- Node indices, allocation order and weights are not observable (the spec's own inference, 10_state.md section 8).
-/
def Obligations.SameShapeTreesAreIndistinguishable : Prop :=
  ∀ (is : List Instr) (s s' t : State), Alike s s' → execAll is s = .next t →
    ∃ t' : State, execAll is s' = .next t' ∧ Alike t t' ∧ t'.observe = t.observe

/-- HSER over a well-formed tree on an aligned stream; the byte count is the spec's own inference (30_encoding.md
section B.2). -/
def Obligations.HserAppendsTheHeader : Prop :=
  ∀ (s : State) (T : Tree), s.err = 0#3 → s.tree.Wf → s.tree.view = some T → s.out.nbits = 0 →
    exec .hser s = .next { s with out := { s.out with bytes := s.out.bytes ++ T.header }, cp := s.cp + 1 } ∧
    T.header.length = 3 * T.leaves - 1

/-- 43_header.md R211. -/
def Obligations.HserChecksComeBeforeAnyByte : Prop :=
  ∀ s : State, s.err = 0#3 →
    (s.tree.root = none → exec .hser s = .next { s with err := 3#3 }) ∧
    (s.tree.root ≠ none → s.out.nbits ≠ 0 → exec .hser s = .next { s with err := 6#3 })

/-- HDES over a header: shape, weights, symbols and lookup table. -/
def Obligations.HdesRebuildsTheTreeOfAHeader : Prop :=
  ∀ (s : State) (T : Tree) (rest : List Byte), s.err = 0#3 → s.inp.bit = 0 →
    s.inp.restBytes = T.header ++ rest → T.symbols.Nodup → ∃ t : TreeStore,
      exec .hdes s = .next { s with inp := { s.inp with pos := s.inp.pos + T.header.length }, tree := t, cp := s.cp + 1 } ∧
      t.Wf ∧ t.view = some T.rebuilt ∧ ∀ x, t.present x = true ↔ x ∈ T.symbols

/-- Nothing but a header is accepted (after the spec's own inference about a successful HDES, 43_header.md). -/
def Obligations.HdesCompletesOnlyOnAHeader : Prop :=
  ∀ s t : State, s.err = 0#3 → exec .hdes s = .next t → t.err = 0#3 →
    s.inp.bit = 0 ∧ t.tree.Wf ∧ ∃ T : Tree, t.tree.view = some T ∧ T.rebuilt = T ∧ T.symbols.Nodup ∧
      s.inp.restBytes = T.header ++ t.inp.restBytes ∧ T.header.length ≤ 767 ∧
      t = { s with inp := { s.inp with pos := s.inp.pos + T.header.length }, tree := t.tree, cp := s.cp + 1 }

/-- What HDES raises on bytes that are no header, wherever they stop being one. `ps` is the place where the next
marker is due (Machine/View.lean). The values of IN.pos after a fault rest on log 12 (DEDUCED: the bytes read stay
consumed), since 43_header.md R227 and 93_implementation_defined.md U16 allow a model to leave them open. -/
def Obligations.HdesFaultsByTheBytesItMeets : Prop :=
  ∀ s : State, s.err = 0#3 → s.inp.bit = 0 → s.inp.pos ≤ s.inp.bytes.length →
    (∀ (T : Tree) (p : List Byte), T.symbols.Nodup → s.inp.restBytes = p → p <+: T.header → p ≠ T.header →
      ∃ t : TreeStore, t.root = none ∧
        exec .hdes s = .next { s with err := 2#3, tree := t, inp := { s.inp with pos := s.inp.bytes.length } }) ∧
    (∀ (T : Tree) (rest : List Byte), T.height ≤ 255 → ¬ T.symbols.Nodup →
      s.inp.restBytes = T.header ++ rest → ∃ t : State, exec .hdes s = .next t ∧ t.err = 5#3 ∧ t.tree.root = none) ∧
    ∀ ps : List (Option Tree), begunFits 255 ps → (begunSymbols ps).Nodup →
      (s.inp.restBytes = begunBytes ps ∨ s.inp.restBytes = begunBytes ps ++ [0x01#8] →
        ∃ t : TreeStore, t.root = none ∧
          exec .hdes s = .next { s with err := 2#3, tree := t, inp := { s.inp with pos := s.inp.bytes.length } }) ∧
      (∀ (m : Byte) (rest : List Byte), m ≠ 0x00#8 → m ≠ 0x01#8 → s.inp.restBytes = begunBytes ps ++ m :: rest →
        ∃ t : TreeStore, t.root = none ∧ exec .hdes s =
          .next { s with err := 5#3, tree := t, inp := { s.inp with pos := s.inp.pos + ((begunBytes ps).length + 1) } }) ∧
      (∀ (x : Byte) (rest : List Byte), x ∈ begunSymbols ps →
        s.inp.restBytes = begunBytes ps ++ 0x01#8 :: x :: rest →
        ∃ t : TreeStore, t.root = none ∧ exec .hdes s =
          .next { s with err := 5#3, tree := t, inp := { s.inp with pos := s.inp.pos + ((begunBytes ps).length + 2) } }) ∧
      ∀ rest : List Byte, ps.length = 255 → s.inp.restBytes = begunBytes ps ++ 0x00#8 :: rest →
        ∃ t : TreeStore, t.root = none ∧ exec .hdes s =
          .next { s with err := 5#3, tree := t, inp := { s.inp with pos := s.inp.pos + ((begunBytes ps).length + 1) } }

/-- What a faulting HDES leaves (the spec's own inference, 43_header.md). -/
def Obligations.HdesFaultLeavesNoTree : Prop :=
  ∀ s t : State, s.err = 0#3 → exec .hdes s = .next t → t.err ≠ 0#3 →
    (s.inp.bit ≠ 0 ∧ t = { s with err := 6#3 }) ∨
    (s.inp.bit = 0 ∧ (t.err = 2#3 ∨ t.err = 5#3) ∧ t.tree.root = none ∧ t.status.getLsbD 0 = true ∧
      t = { s with err := t.err, tree := t.tree, inp := { s.inp with pos := t.inp.pos } })

/-- 43_header.md R229, both directions. -/
def Obligations.HeaderRoundTrip : Prop :=
  (∀ (s t : State) (T : Tree), s.err = 0#3 → s.tree.Wf → s.tree.view = some T → exec .hser s = .next t →
    t.err = 0#3 → ∃ h : List Byte, t.out.bytes = s.out.bytes ++ h ∧
      ∀ (r : State) (rest : List Byte), r.err = 0#3 → r.inp.bit = 0 → r.inp.restBytes = h ++ rest →
        ∃ (u : State) (U : Tree), exec .hdes r = .next u ∧ u.err = 0#3 ∧ u.tree.view = some U ∧
          u.inp.restBytes = rest ∧ (∀ x, U.code x = T.code x) ∧
          (∀ x, u.tree.present x = s.tree.present x) ∧
          (u.out.nbits = 0 → ∃ v : State, exec .hser u = .next v ∧ v.err = 0#3 ∧ v.out.bytes = u.out.bytes ++ h)) ∧
  ∀ r u : State, r.err = 0#3 → exec .hdes r = .next u → u.err = 0#3 → ∃ h : List Byte,
    r.inp.restBytes = h ++ u.inp.restBytes ∧ u.inp.pos = r.inp.pos + h.length ∧
    (u.out.nbits = 0 → ∃ v : State, exec .hser u = .next v ∧ v.err = 0#3 ∧ v.out.bytes = u.out.bytes ++ h)

/-- 44_stream.md R241: encoding, checks in order, effect with its frame. -/
def Obligations.WcntWritesTheCount : Prop :=
  (∀ (s : State) (v : Count), s.err = 0#3 →
    (s.params.countMax < v → exec (.wcnt v) s = .next { s with err := 4#3 }) ∧
    (v ≤ s.params.countMax → s.out.nbits ≠ 0 → exec (.wcnt v) s = .next { s with err := 6#3 }) ∧
    (v ≤ s.params.countMax → s.out.nbits = 0 → exec (.wcnt v) s =
      .next { s with out := { s.out with bytes := s.out.bytes ++ countBytes s.params.countByteOrder v }, cp := s.cp + 1 })) ∧
  (∀ w, wordOp w = 0x30#8 →
    (wordSym w = 0#8 → decode w = .ok (.wcnt (wordVal w))) ∧ (wordSym w ≠ 0#8 → Refuses w)) ∧
  Params.default.countMax.toNat = 2 ^ 31 - 1

/-- 44_stream.md R243. -/
def Obligations.CountBytesAndValueAgree : Prop :=
  (∀ v : Count,
    countBytes .big v = [v.extractLsb' 24 8, v.extractLsb' 16 8, v.extractLsb' 8 8, v.extractLsb' 0 8] ∧
    countBytes .little v = [v.extractLsb' 0 8, v.extractLsb' 8 8, v.extractLsb' 16 8, v.extractLsb' 24 8]) ∧
  (∀ b0 b1 b2 b3 : Byte,
    (countValue .big b0 b1 b2 b3).toNat =
      b0.toNat * 2 ^ 24 + b1.toNat * 2 ^ 16 + b2.toNat * 2 ^ 8 + b3.toNat ∧
    (countValue .little b0 b1 b2 b3).toNat =
      b3.toNat * 2 ^ 24 + b2.toNat * 2 ^ 16 + b1.toNat * 2 ^ 8 + b0.toNat) ∧
  (∀ (order : ByteOrder) (v : Count) (b0 b1 b2 b3 : Byte),
    countBytes order v = [b0, b1, b2, b3] ↔ countValue order b0 b1 b2 b3 = v) ∧
  Params.default.countByteOrder = .big

/-- 44_stream.md R242: encoding, checks in order, effect with its frame. -/
def Obligations.RcntReadsTheCount : Prop :=
  (∀ s : State, s.err = 0#3 → s.inp.pos ≤ s.inp.bytes.length →
    (s.inp.bit ≠ 0 → exec .rcnt s = .next { s with err := 6#3 }) ∧
    (s.inp.bit = 0 → s.inp.restBytes.length < 4 → exec .rcnt s =
      .next { s with err := 2#3, inp := { s.inp with pos := s.inp.bytes.length } }) ∧
    ∀ (b0 b1 b2 b3 : Byte) (rest : List Byte), s.inp.bit = 0 → s.inp.restBytes = b0 :: b1 :: b2 :: b3 :: rest →
      (s.params.countMax < countValue s.params.countByteOrder b0 b1 b2 b3 → exec .rcnt s =
        .next { s with err := 5#3, inp := { s.inp with pos := s.inp.pos + 4 } }) ∧
      (countValue s.params.countByteOrder b0 b1 b2 b3 ≤ s.params.countMax → exec .rcnt s =
        .next { s with
          inp := { s.inp with pos := s.inp.pos + 4 }, cnt := countValue s.params.countByteOrder b0 b1 b2 b3,
          cp := s.cp + 1 })) ∧
  decode 0x310000000000#48 = .ok .rcnt ∧ ∀ w, wordOp w = 0x31#8 → w ≠ 0x310000000000#48 → Refuses w

/-- 44_stream.md R244: encoding, effect with its frame, corner cases. -/
def Obligations.FlushPadsToAByteBoundary : Prop :=
  (∀ s : State, s.err = 0#3 →
    (s.out.nbits = 0 → exec .flush s = .next { s with cp := s.cp + 1 }) ∧
    (s.out.nbits ≠ 0 → ∃ v : Byte,
      exec .flush s = .next { s with out := { bytes := s.out.bytes ++ [v], acc := 0#8, nbits := 0 }, cp := s.cp + 1 } ∧
      byteBits v = s.out.partialBits ++ List.replicate (8 - s.out.nbits.val) false) ∧
    ∀ t u : State, exec .flush s = .next t → exec .flush t = .next u → u.out = t.out) ∧
  decode 0x320000000000#48 = .ok .flush ∧ ∀ w, wordOp w = 0x32#8 → w ≠ 0x320000000000#48 → Refuses w

/-- Bit order for writing and reading (the spec's own inference from the pseudocode, 20_memory.md section 2). -/
def Obligations.EightBitsAreOneByte : Prop :=
  (∀ (o : OutStream) (v : Byte), o.nbits = 0 →
    writeBits ((List.range 8).map fun j => v.getLsbD (7 - j)) o = { bytes := o.bytes ++ [v], acc := 0#8, nbits := 0 }) ∧
  ∀ (i : InStream) (v : Byte), i.bit = 0 → i.bytes[i.pos]? = some v →
    readBits 8 i = ((List.range 8).map fun j => v.getLsbD (7 - j), { i with pos := i.pos + 1 })

/-- The invariant of the machine, over every state that satisfies it. -/
def Obligations.StepKeepsTheInvariant : Prop :=
  ∀ s t : State, Inv s → step s = .next t → Inv t

/-- The invariant holds at reset (the loading of a run's inputs is log 10 and log 1). -/
def Obligations.ResetHasTheInvariant : Prop :=
  Inv State.reset ∧ ∀ s : State, Inv (hostReset s) ∧ ∀ ws bs, Inv (hostLoad ws bs s)

/-- Every command terminates with a next state: the model's own stops (log 8) are for states no run reaches. -/
def Obligations.EveryCommandAnswersANextState : Prop :=
  (∀ (i : Instr) (s : State), Coherent s → ∃ t : State, exec i s = .next t ∧ Coherent t) ∧
  ∀ s : State, Inv s → ∃ t : State, step s = .next t

/-- The engine-level round trip (the spec's own inference, 45_sequences.md section 2). -/
def Obligations.EngineRoundTrip : Prop :=
  ∀ (data : List Byte) (s : State) (T : Tree), s.err = 0#3 → s.tree.Wf → s.tree.view = some T →
    (∀ x ∈ data, s.tree.present x = true) → ∃ (t : State) (bs : List Bit),
      execAll (data.map .enc) s = .next t ∧ t.err = 0#3 ∧ t.out.bits = s.out.bits ++ bs ∧
      ∀ (r : State) (U : Tree) (rest : List Bit), r.err = 0#3 → Coherent r → r.tree.view = some U →
        T.sameShape U = true → r.inp.restBits = bs ++ rest → ∃ u : State,
          execAll (List.replicate data.length .dec) r = .next u ∧ u.err = 0#3 ∧ u.dout = r.dout ++ data ∧
          u.inp.restBits = rest

/-- COMPRESS and the container it writes (the spec's own inference, 45_sequences.md section 1). -/
def Obligations.CompressWritesOneContainer : Prop :=
  ∀ (s : State) (data : List Byte), s.err = 0#3 → s.out.nbits = 0 → s.out.acc = 0#8 → data ≠ [] →
    data.length ≤ s.params.countMax.toNat → ∃ (t : State) (T : Tree) (payload : List Bit),
      execAll (compress data) s = .next t ∧ t.err = 0#3 ∧ t.out.nbits = 0 ∧
      t.cp = s.cp + ((allSymbols.filter fun x => x ∈ data).length + data.length + 5) ∧
      t.tree.view = some T ∧ T.payload data = some payload ∧
      t.out.bytes =
        s.out.bytes ++ container s.params.countByteOrder (BitVec.ofNat 32 data.length) T payload

/-- 45_sequences.md R270, over every sequence, from reset. -/
def Obligations.CompressThenDecompressIsTheData : Prop :=
  ∀ (s r : State) (data : List Byte), data.length ≤ s.params.countMax.toNat → r.params = s.params →
    ∃ t : State, execAll (compress data) (hostReset s) = .next t ∧ t.err = 0#3 ∧
      (r.inp.bytes = t.out.bytes → ∃ u : State,
        execDecompress (hostReset r) = .next u ∧ u.err = 0#3 ∧ u.dout = data)

/-- The table of faults of HDES in both directions: nothing else than its rows raises TruncatedStream or BadFormat.
`ps` is the place where the next marker is due (Machine/View.lean). -/
def Obligations.HdesRaisesNoOtherFaultOnItsBytes : Prop :=
  ∀ s t : State, s.err = 0#3 → s.inp.bit = 0 → exec .hdes s = .next t →
    (t.err = 2#3 ↔ ∃ ps : List (Option Tree), begunFits 255 ps ∧ (begunSymbols ps).Nodup ∧
      (s.inp.restBytes = begunBytes ps ∨ s.inp.restBytes = begunBytes ps ++ [0x01#8])) ∧
    (t.err = 5#3 ↔ ∃ ps : List (Option Tree), begunFits 255 ps ∧ (begunSymbols ps).Nodup ∧
      ((∃ (m : Byte) (rest : List Byte), m ≠ 0x00#8 ∧ m ≠ 0x01#8 ∧ s.inp.restBytes = begunBytes ps ++ m :: rest) ∨
        (∃ (x : Byte) (rest : List Byte), x ∈ begunSymbols ps ∧
          s.inp.restBytes = begunBytes ps ++ 0x01#8 :: x :: rest) ∨
        ∃ rest : List Byte, ps.length = 255 ∧ s.inp.restBytes = begunBytes ps ++ 0x00#8 :: rest))
end

