-- ==== Sys2Proof/Laws/State.lean ====
section
/-! SUPPORT. The fields of a State after each named update of it, one lemma per field per update, so that no later
proof unfolds a record update. -/

namespace Sys2Proof.Machine

/-! ### `raiseFault` -/

@[simp] theorem raiseFault_freq (k : FaultKind) (s : State) : (raiseFault k s).freq = s.freq := rfl
@[simp] theorem raiseFault_sym (k : FaultKind) (s : State) : (raiseFault k s).sym = s.sym := rfl
@[simp] theorem raiseFault_cnt (k : FaultKind) (s : State) : (raiseFault k s).cnt = s.cnt := rfl
@[simp] theorem raiseFault_err (k : FaultKind) (s : State) : (raiseFault k s).err = k.code := rfl
@[simp] theorem raiseFault_tree (k : FaultKind) (s : State) : (raiseFault k s).tree = s.tree := rfl
@[simp] theorem raiseFault_out (k : FaultKind) (s : State) : (raiseFault k s).out = s.out := rfl
@[simp] theorem raiseFault_inp (k : FaultKind) (s : State) : (raiseFault k s).inp = s.inp := rfl
@[simp] theorem raiseFault_dout (k : FaultKind) (s : State) : (raiseFault k s).dout = s.dout := rfl
@[simp] theorem raiseFault_cp (k : FaultKind) (s : State) : (raiseFault k s).cp = s.cp := rfl
@[simp] theorem raiseFault_cmds (k : FaultKind) (s : State) : (raiseFault k s).cmds = s.cmds := rfl
@[simp] theorem raiseFault_params (k : FaultKind) (s : State) : (raiseFault k s).params = s.params := rfl

/-! ### `advance` -/

@[simp] theorem advance_freq (s : State) : (advance s).freq = s.freq := rfl
@[simp] theorem advance_sym (s : State) : (advance s).sym = s.sym := rfl
@[simp] theorem advance_cnt (s : State) : (advance s).cnt = s.cnt := rfl
@[simp] theorem advance_err (s : State) : (advance s).err = s.err := rfl
@[simp] theorem advance_tree (s : State) : (advance s).tree = s.tree := rfl
@[simp] theorem advance_out (s : State) : (advance s).out = s.out := rfl
@[simp] theorem advance_inp (s : State) : (advance s).inp = s.inp := rfl
@[simp] theorem advance_dout (s : State) : (advance s).dout = s.dout := rfl
@[simp] theorem advance_cp (s : State) : (advance s).cp = s.cp + 1 := rfl
@[simp] theorem advance_cmds (s : State) : (advance s).cmds = s.cmds := rfl
@[simp] theorem advance_params (s : State) : (advance s).params = s.params := rfl

/-! ### `emitSymbol` -/

@[simp] theorem emitSymbol_freq (v : Byte) (s : State) : (emitSymbol v s).freq = s.freq := rfl
@[simp] theorem emitSymbol_sym (v : Byte) (s : State) : (emitSymbol v s).sym = v := rfl
@[simp] theorem emitSymbol_cnt (v : Byte) (s : State) : (emitSymbol v s).cnt = s.cnt := rfl
@[simp] theorem emitSymbol_err (v : Byte) (s : State) : (emitSymbol v s).err = s.err := rfl
@[simp] theorem emitSymbol_tree (v : Byte) (s : State) : (emitSymbol v s).tree = s.tree := rfl
@[simp] theorem emitSymbol_out (v : Byte) (s : State) : (emitSymbol v s).out = s.out := rfl
@[simp] theorem emitSymbol_inp (v : Byte) (s : State) : (emitSymbol v s).inp = s.inp := rfl
@[simp] theorem emitSymbol_dout (v : Byte) (s : State) : (emitSymbol v s).dout = s.dout ++ [v] := rfl
@[simp] theorem emitSymbol_cp (v : Byte) (s : State) : (emitSymbol v s).cp = s.cp := rfl
@[simp] theorem emitSymbol_cmds (v : Byte) (s : State) : (emitSymbol v s).cmds = s.cmds := rfl
@[simp] theorem emitSymbol_params (v : Byte) (s : State) : (emitSymbol v s).params = s.params := rfl

/-! ### `hostReset` -/

@[simp] theorem hostReset_freq (s : State) : (hostReset s).freq = Vector.replicate 256 0#32 := rfl
@[simp] theorem hostReset_sym (s : State) : (hostReset s).sym = 0#8 := rfl
@[simp] theorem hostReset_cnt (s : State) : (hostReset s).cnt = 0#32 := rfl
@[simp] theorem hostReset_err (s : State) : (hostReset s).err = 0#3 := rfl
@[simp] theorem hostReset_tree (s : State) : (hostReset s).tree = TreeStore.empty := rfl
@[simp] theorem hostReset_out (s : State) : (hostReset s).out = OutStream.reset := rfl
@[simp] theorem hostReset_inp (s : State) : (hostReset s).inp = InStream.rewind s.inp.bytes := rfl
@[simp] theorem hostReset_dout (s : State) : (hostReset s).dout = [] := rfl
@[simp] theorem hostReset_cp (s : State) : (hostReset s).cp = 0 := rfl
@[simp] theorem hostReset_cmds (s : State) : (hostReset s).cmds = s.cmds := rfl
@[simp] theorem hostReset_params (s : State) : (hostReset s).params = s.params := rfl

/-! ### `hostLoad` -/

@[simp] theorem hostLoad_freq (ws : List CmdWord) (bs : List Byte) (s : State) : (hostLoad ws bs s).freq = Vector.replicate 256 0#32 := rfl
@[simp] theorem hostLoad_sym (ws : List CmdWord) (bs : List Byte) (s : State) : (hostLoad ws bs s).sym = 0#8 := rfl
@[simp] theorem hostLoad_cnt (ws : List CmdWord) (bs : List Byte) (s : State) : (hostLoad ws bs s).cnt = 0#32 := rfl
@[simp] theorem hostLoad_err (ws : List CmdWord) (bs : List Byte) (s : State) : (hostLoad ws bs s).err = 0#3 := rfl
@[simp] theorem hostLoad_tree (ws : List CmdWord) (bs : List Byte) (s : State) : (hostLoad ws bs s).tree = TreeStore.empty := rfl
@[simp] theorem hostLoad_out (ws : List CmdWord) (bs : List Byte) (s : State) : (hostLoad ws bs s).out = OutStream.reset := rfl
@[simp] theorem hostLoad_inp (ws : List CmdWord) (bs : List Byte) (s : State) : (hostLoad ws bs s).inp = InStream.rewind bs := rfl
@[simp] theorem hostLoad_dout (ws : List CmdWord) (bs : List Byte) (s : State) : (hostLoad ws bs s).dout = [] := rfl
@[simp] theorem hostLoad_cp (ws : List CmdWord) (bs : List Byte) (s : State) : (hostLoad ws bs s).cp = 0 := rfl
@[simp] theorem hostLoad_cmds (ws : List CmdWord) (bs : List Byte) (s : State) : (hostLoad ws bs s).cmds = ws := rfl
@[simp] theorem hostLoad_params (ws : List CmdWord) (bs : List Byte) (s : State) : (hostLoad ws bs s).params = s.params := rfl

/-! ### `withFetchWord` -/

@[simp] theorem withFetchWord_freq (s : State) (n w : Nat) : (s.withFetchWord n w).freq = s.freq := rfl
@[simp] theorem withFetchWord_sym (s : State) (n w : Nat) : (s.withFetchWord n w).sym = s.sym := rfl
@[simp] theorem withFetchWord_cnt (s : State) (n w : Nat) : (s.withFetchWord n w).cnt = s.cnt := rfl
@[simp] theorem withFetchWord_err (s : State) (n w : Nat) : (s.withFetchWord n w).err = s.err := rfl
@[simp] theorem withFetchWord_tree (s : State) (n w : Nat) : (s.withFetchWord n w).tree = s.tree := rfl
@[simp] theorem withFetchWord_out (s : State) (n w : Nat) : (s.withFetchWord n w).out = s.out := rfl
@[simp] theorem withFetchWord_inp (s : State) (n w : Nat) : (s.withFetchWord n w).inp = s.inp := rfl
@[simp] theorem withFetchWord_dout (s : State) (n w : Nat) : (s.withFetchWord n w).dout = s.dout := rfl
@[simp] theorem withFetchWord_cp (s : State) (n w : Nat) : (s.withFetchWord n w).cp = s.cp := rfl
@[simp] theorem withFetchWord_cmds (s : State) (n w : Nat) : (s.withFetchWord n w).cmds = placeWord s.cmds s.cp (BitVec.ofNat 48 (w % 2 ^ n)) := rfl
@[simp] theorem withFetchWord_params (s : State) (n w : Nat) : (s.withFetchWord n w).params = s.params := rfl

/-! ### The tree store -/

@[simp] theorem newNode_fst (t : TreeStore) (w : Weight) (s : Byte) (l r : NodeRef) :
    (t.newNode w s l r).1 = t.nnode := rfl
@[simp] theorem newNode_leaf (t : TreeStore) (w : Weight) (s : Byte) (l r : NodeRef) :
    (t.newNode w s l r).2.leaf = t.leaf := rfl
@[simp] theorem newNode_root (t : TreeStore) (w : Weight) (s : Byte) (l r : NodeRef) :
    (t.newNode w s l r).2.root = t.root := rfl
@[simp] theorem setLeaf_nodes (t : TreeStore) (s : Byte) (r : NodeRef) : (t.setLeaf s r).nodes = t.nodes := rfl
@[simp] theorem setLeaf_root (t : TreeStore) (s : Byte) (r : NodeRef) : (t.setLeaf s r).root = t.root := rfl
@[simp] theorem setParent_leaf (t : TreeStore) (i p : Nat) : (t.setParent i p).leaf = t.leaf := rfl
@[simp] theorem setParent_root (t : TreeStore) (i p : Nat) : (t.setParent i p).root = t.root := rfl
@[simp] theorem empty_nodes : TreeStore.empty.nodes = [] := rfl
@[simp] theorem empty_root : TreeStore.empty.root = none := rfl
@[simp] theorem empty_nnode : TreeStore.empty.nnode = 0 := rfl
@[simp] theorem addLeaf_root (t : TreeStore) (w : Weight) (s : Byte) : (t.addLeaf w s).2.root = t.root := rfl
@[simp] theorem join_root (t : TreeStore) (a b : Keyed) : (t.join a b).2.root = t.root := rfl
@[simp] theorem join_leaf (t : TreeStore) (a b : Keyed) : (t.join a b).2.leaf = t.leaf := rfl
@[simp] theorem addLeaf_fst (t : TreeStore) (w : Weight) (s : Byte) :
    (t.addLeaf w s).1 = ⟨t.nnode, w, s⟩ := rfl
@[simp] theorem join_fst (t : TreeStore) (a b : Keyed) :
    (t.join a b).1 = ⟨t.nnode, a.weight + b.weight, a.symbol⟩ := rfl

end Sys2Proof.Machine
end

