-- ==== Sys2Proof/Laws/Command.lean ====
section
/-! SUPPORT. What a piece of pseudocode and a command can do, said once (60_exceptions.md R300, R302). -/

namespace Sys2Proof.Machine

@[simp] theorem bind_ok {σ α β : Type} (a : α) (s : σ) (f : α → σ → Run σ β) : (Run.ok a s).bind f = f a s := rfl
@[simp] theorem bind_raise {σ α β : Type} (k : FaultKind) (s : σ) (f : α → σ → Run σ β) :
    (Run.raise k s : Run σ α).bind f = .raise k s := rfl
@[simp] theorem bind_stuck {σ α β : Type} (x : Fault) (f : α → σ → Run σ β) :
    (Run.stuck x : Run σ α).bind f = .stuck x := rfl
@[simp] theorem within_ok {σ τ α : Type} (a : α) (s : σ) (f : σ → τ) : (Run.ok a s).within f = .ok a (f s) := rfl
@[simp] theorem within_raise {σ τ α : Type} (k : FaultKind) (s : σ) (f : σ → τ) :
    (Run.raise k s : Run σ α).within f = .raise k (f s) := rfl
@[simp] theorem within_stuck {σ τ α : Type} (x : Fault) (f : σ → τ) :
    (Run.stuck x : Run σ α).within f = .stuck x := rfl

/-- A sequence that returns: its first part returned and its second part too. -/
theorem bind_eq_ok {σ α β : Type} {r : Run σ α} {f : α → σ → Run σ β} {b : β} {s : σ} (h : r.bind f = .ok b s) :
    ∃ a t, r = .ok a t ∧ f a t = .ok b s := by
  cases r with
  | ok a t => exact ⟨a, t, rfl, h⟩
  | raise k t => simp at h
  | stuck x => simp at h

/-- A sequence that raises: its first part raised, or it returned and its second part raised. -/
theorem bind_eq_raise {σ α β : Type} {r : Run σ α} {f : α → σ → Run σ β} {k : FaultKind} {s : σ}
    (h : r.bind f = .raise k s) : r = .raise k s ∨ ∃ a t, r = .ok a t ∧ f a t = .raise k s := by
  cases r with
  | ok a t => exact .inr ⟨a, t, rfl, h⟩
  | raise k' t => left; simpa using h
  | stuck x => simp at h

/-- No fault has the code 0 (60_exceptions.md R291). -/
theorem code_ne_zero (k : FaultKind) : k.code ≠ 0#3 := by cases k <;> decide

/-- Code 7 is never written (60_exceptions.md R291). -/
theorem code_ne_seven (k : FaultKind) : k.code ≠ 7#3 := by cases k <;> decide

/-- Different faults have different codes (60_exceptions.md R291). -/
theorem code_injective {k k' : FaultKind} (h : k.code = k'.code) : k = k' := by
  cases k <;> cases k' <;> first | rfl | (revert h; decide)

/-- In the faulted state a command changes nothing (60_exceptions.md R302). -/
theorem command_faulted {b : State → Run State Unit} {s : State} (h : s.err ≠ 0#3) : command b s = .next s := by
  simp [command, h]

/-- A command whose pseudocode returns completes and advances `CP` (10_state.md R37). -/
theorem command_ok {b : State → Run State Unit} {s t : State} {u : Unit} (h : s.err = 0#3) (hb : b s = .ok u t) :
    command b s = .next (advance t) := by
  simp [command, h, hb]

/-- A command whose pseudocode raises a fault enters the faulted state (60_exceptions.md R300). -/
theorem command_raise {b : State → Run State Unit} {s t : State} {k : FaultKind} (h : s.err = 0#3)
    (hb : b s = .raise k t) : command b s = .next (raiseFault k t) := by
  simp [command, h, hb]

/-- Everything a command that gives a next state can have done. -/
theorem command_next {b : State → Run State Unit} {s t : State} (h : command b s = .next t) :
    (s.err ≠ 0#3 ∧ t = s) ∨
      (s.err = 0#3 ∧ ∃ u t', b s = .ok u t' ∧ t = advance t') ∨
      (s.err = 0#3 ∧ ∃ k t', b s = .raise k t' ∧ t = raiseFault k t') := by
  by_cases he : s.err = 0#3
  · cases hb : b s with
    | ok u t' =>
      rw [command_ok he hb] at h
      exact .inr (.inl ⟨he, u, t', rfl, by simpa using h.symm⟩)
    | raise k t' =>
      rw [command_raise he hb] at h
      exact .inr (.inr ⟨he, k, t', rfl, by simpa using h.symm⟩)
    | stuck f => simp [command, he, hb] at h
  · rw [command_faulted he] at h
    exact .inl ⟨he, by simpa using h.symm⟩

/-- A command never stops when its pseudocode does not. -/
theorem command_isNext {b : State → Run State Unit} {s : State} (h : s.err = 0#3 → ∀ f, b s ≠ .stuck f) :
    ∃ t, command b s = .next t := by
  by_cases he : s.err = 0#3
  · cases hb : b s with
    | ok u t => exact ⟨_, command_ok he hb⟩
    | raise k t => exact ⟨_, command_raise he hb⟩
    | stuck f => exact absurd hb (h he f)
  · exact ⟨s, command_faulted he⟩

/-- No command is refused by the model. -/
theorem command_ne_refused (b : State → Run State Unit) (s : State) (r : Refusal) : command b s ≠ .refused r := by
  unfold command
  split
  · split <;> simp
  · simp

end Sys2Proof.Machine
end

