-- ==== Sys2Proof/Laws/Forest.lean ====
section
/-! SUPPORT. What the two ways of adding a node to the store do to the trees it holds (40_build.md R145, R148;
43_header.md R222): each keeps the links, the lookup table and the node count right. -/

namespace Sys2Proof.Machine

/-! ## Symbols and the lookup table -/

@[simp] theorem symIndex_val (s : Byte) : (symIndex s).val = s.toNat := rfl

theorem symIndex_injective {s s' : Byte} (h : symIndex s = symIndex s') : s = s' := by
  apply BitVec.eq_of_toNat_eq
  simpa using congrArg Fin.val h

@[simp] theorem allSymbols_length : allSymbols.length = 256 := by simp [allSymbols]

theorem mem_allSymbols (s : Byte) : s ∈ allSymbols := by
  simp only [allSymbols, List.mem_map, List.mem_range]
  exact ⟨s.toNat, s.isLt, by simp⟩

theorem allSymbols_nodup : allSymbols.Nodup := by
  unfold allSymbols
  refine List.Nodup.map_on ?_ List.nodup_range
  intro a ha b hb h
  have := congrArg BitVec.toNat h
  simp only [List.mem_range, BitVec.toNat_ofNat] at *
  omega

/-- `LEAF` after one entry is written. -/
theorem leafOf_setLeaf (t : TreeStore) (s x : Byte) (r : NodeRef) :
    (t.setLeaf s r).leafOf x = if s = x then r else t.leafOf x := by
  by_cases h : s = x
  · subst h; simp [TreeStore.leafOf, TreeStore.setLeaf]
  · have : s.toNat ≠ x.toNat := fun h' => h (BitVec.eq_of_toNat_eq h')
    simp [TreeStore.leafOf, TreeStore.setLeaf, h, this]

@[simp] theorem leafOf_empty (s : Byte) : TreeStore.empty.leafOf s = none := by
  simp [TreeStore.leafOf, TreeStore.empty]

theorem presentSymbols_length_le (t : TreeStore) : t.presentSymbols.length ≤ 256 := by
  have := List.length_filter_le t.present allSymbols
  simpa [TreeStore.presentSymbols] using this

/-- Recording a leaf for a symbol that had none adds one present symbol. -/
theorem filter_length_update {l : List Byte} (hn : l.Nodup) {p q : Byte → Bool} {s : Byte} (hs : s ∈ l)
    (hp : p s = false) (hq : q s = true) (h : ∀ x, x ≠ s → q x = p x) :
    (l.filter q).length = (l.filter p).length + 1 := by
  induction l with
  | nil => simp at hs
  | cons x l ih =>
    obtain ⟨hx, hn⟩ := List.nodup_cons.1 hn
    rcases List.mem_cons.1 hs with rfl | hs
    · have : l.filter q = l.filter p :=
        List.filter_congr fun y hy => h y (fun h' => hx (h' ▸ hy))
      simp [hp, hq, this]
    · have hne : x ≠ s := fun h' => hx (h' ▸ hs)
      have := ih hn hs
      by_cases hpx : p x = true <;> simp [h x hne, hpx, this]

/-! ## The nodes after each operation -/

/-- `NODE` after `new_node` (10_state.md R28). -/
theorem addLeaf_node? (t : TreeStore) (w : Weight) (s : Byte) (i : Nat) :
    (t.addLeaf w s).2.nodes[i]? =
      if i = t.nnode then some ⟨w, s, none, none, none⟩ else t.nodes[i]? := by
  have : (t.addLeaf w s).2.nodes = t.nodes ++ [(⟨w, s, none, none, none⟩ : Node)] := rfl
  rw [this, List.getElem?_append]
  unfold TreeStore.nnode
  split
  · rw [if_neg (by omega)]
  · split
    · simp [*]
    · rw [List.getElem?_eq_none (by simp; omega), List.getElem?_eq_none (by omega)]

@[simp] theorem addLeaf_nnode (t : TreeStore) (w : Weight) (s : Byte) : (t.addLeaf w s).2.nnode = t.nnode + 1 := by
  simp [TreeStore.addLeaf, TreeStore.newNode, TreeStore.nnode]

@[simp] theorem join_nnode (t : TreeStore) (a b : Keyed) : (t.join a b).2.nnode = t.nnode + 1 := by
  simp [TreeStore.join, TreeStore.newNode, TreeStore.nnode, TreeStore.setParent]

/-- `NODE` after a join: the new node at `NNODE`, its children pointing back to it, the rest as it was
(40_build.md R148). -/
theorem join_node? (t : TreeStore) (a b : Keyed) (ha : a.node < t.nnode) (hb : b.node < t.nnode) (i : Nat) :
    (t.join a b).2.nodes[i]? =
      if i = t.nnode then some ⟨a.weight + b.weight, a.symbol, some a.node, some b.node, none⟩
      else if i = a.node ∨ i = b.node then (t.nodes[i]?).map fun n => { n with parent := some t.nnode }
      else t.nodes[i]? := by
  have : (t.join a b).2.nodes =
      ((t.nodes ++ [(⟨a.weight + b.weight, a.symbol, some a.node, some b.node, none⟩ : Node)]).modify a.node
        fun n => { n with parent := some t.nnode }).modify b.node fun n => { n with parent := some t.nnode } := rfl
  rw [this, List.getElem?_modify, List.getElem?_modify, List.getElem?_append]
  unfold TreeStore.nnode at *
  by_cases hi : i < t.nodes.length
  · rw [if_pos hi, if_neg (by omega)]
    by_cases h1 : b.node = i
    · by_cases h2 : a.node = i
      · cases t.nodes[i]? <;> simp [h1, h2]
      · simp [h1, h2]
    · by_cases h2 : a.node = i
      · simp [h1, h2]
      · simp only [h1, h2, if_false, Ne.symm h1, Ne.symm h2, or_self, id_map']
  · by_cases he : i = t.nodes.length
    · subst he
      have h1 : b.node ≠ t.nodes.length := by omega
      have h2 : a.node ≠ t.nodes.length := by omega
      simp [h1, h2]
    · have h1 : b.node ≠ i := by omega
      have h2 : a.node ≠ i := by omega
      have h3 : i - t.nodes.length ≠ 0 := by omega
      have h4 : t.nodes.length ≤ i := by omega
      have h5 : i ≠ a.node := by omega
      have h6 : i ≠ b.node := by omega
      simp [he, h1, h2, h3, h4, h5, h6]


/-! ## A tree under construction -/

/-- A store in the middle of BUILD or HDES: a forest with the given roots, the lookup table right, and
`NNODE` + roots = 2 × present symbols. -/
structure Growing (t : TreeStore) (roots : List Nat) : Prop where
  forest : Forest t.nodes roots
  table  : TableOk t
  size   : t.nnode + roots.length = 2 * t.presentSymbols.length
  root   : t.root = none

theorem Forest.perm {nodes : List Node} {rs rs' : List Nat} (h : Forest nodes rs) (hp : rs.Perm rs') :
    Forest nodes rs' where
  links := h.links
  parent := h.parent
  rootOf i := by rw [← hp.mem_iff]; exact h.rootOf i
  nodup := hp.nodup_iff.1 h.nodup

theorem Growing.perm {t : TreeStore} {rs rs' : List Nat} (h : Growing t rs) (hp : rs.Perm rs') : Growing t rs' :=
  ⟨h.forest.perm hp, h.table, by rw [← hp.length_eq]; exact h.size, h.root⟩

theorem Forest.root_lt {nodes : List Node} {rs : List Nat} (h : Forest nodes rs) {i : Nat} (hi : i ∈ rs) :
    i < nodes.length := by
  obtain ⟨nd, h1, -⟩ := (h.rootOf i).1 hi
  exact (List.getElem?_eq_some_iff.1 h1).1

theorem growing_empty : Growing TreeStore.empty [] where
  forest := ⟨by simp, by simp, by simp, List.nodup_nil⟩
  table := by intro s i; simp
  size := by
    have h : TreeStore.empty.present = fun _ => false := by funext x; simp [TreeStore.present]
    simp [TreeStore.presentSymbols, h]
  root := rfl

/-- A new leaf of a symbol that had none is one more root (40_build.md R145, 43_header.md R222). -/
theorem Growing.addLeaf {t : TreeStore} {rs : List Nat} (h : Growing t rs) (w : Weight) {s : Byte}
    (hs : t.leafOf s = none) : Growing (t.addLeaf w s).2 (t.nnode :: rs) := by
  have hnew : ∀ i nd, t.nodes[i]? = some nd → i ≠ t.nnode := fun i nd hi he => by
    have := (List.getElem?_eq_some_iff.1 hi).1
    unfold TreeStore.nnode at he; omega
  have hold : ∀ i, i ≠ t.nnode → (t.addLeaf w s).2.nodes[i]? = t.nodes[i]? := fun i hi => by
    rw [addLeaf_node?, if_neg hi]
  have hat : (t.addLeaf w s).2.nodes[t.nnode]? = some ⟨w, s, none, none, none⟩ := by
    rw [addLeaf_node?, if_pos rfl]
  have hkeep : ∀ i nd, t.nodes[i]? = some nd → (t.addLeaf w s).2.nodes[i]? = some nd := fun i nd hi => by
    rw [hold i (hnew i nd hi), hi]
  have hnot : t.nnode ∉ rs := fun hm => by
    have := h.forest.root_lt hm
    unfold TreeStore.nnode at this; omega
  refine ⟨⟨?_, ?_, ?_, List.nodup_cons.2 ⟨hnot, h.forest.nodup⟩⟩, ?_, ?_, h.root⟩
  · intro i nd hi
    by_cases he : i = t.nnode
    · subst he; rw [hat] at hi; cases hi; exact .inl ⟨rfl, rfl⟩
    · rw [hold i he] at hi
      rcases h.forest.links i nd hi with hl | ⟨l, r, hl, hr, hne, ⟨hlt, nl, hln, hlp⟩, ⟨hrt, nr, hrn, hrp⟩⟩
      · exact .inl hl
      · exact .inr ⟨l, r, hl, hr, hne, ⟨hlt, nl, hkeep _ _ hln, hlp⟩, ⟨hrt, nr, hkeep _ _ hrn, hrp⟩⟩
  · intro i nd p hi hp
    by_cases he : i = t.nnode
    · subst he; rw [hat] at hi; cases hi; simp at hp
    · rw [hold i he] at hi
      obtain ⟨pn, h1, h2⟩ := h.forest.parent i nd p hi hp
      exact ⟨pn, hkeep _ _ h1, h2⟩
  · intro i
    by_cases he : i = t.nnode
    · subst he; simp [hat]
    · rw [hold i he, List.mem_cons, ← h.forest.rootOf i]; simp [he]
  · intro x i
    have hlo : (t.addLeaf w s).2.leafOf x = if s = x then some t.nnode else t.leafOf x := leafOf_setLeaf _ s x _
    rw [hlo]
    by_cases he : i = t.nnode
    · subst he
      rw [hat]
      by_cases hx : s = x
      · subst hx; simp [Node.isLeaf]
      · simp only [hx, if_false]
        constructor
        · intro hl
          obtain ⟨nd, h1, -⟩ := (h.table x t.nnode).1 hl
          exact absurd rfl (hnew _ _ h1)
        · rintro ⟨nd, h1, -, h3⟩
          cases h1; exact absurd h3 hx
    · rw [hold i he]
      by_cases hx : s = x
      · subst hx
        rw [← h.table s i, hs]
        simp; omega
      · simp only [hx, if_false]; exact h.table x i
  · have hc : (t.addLeaf w s).2.presentSymbols.length = t.presentSymbols.length + 1 := by
      have hlo : ∀ x, (t.addLeaf w s).2.leafOf x = if s = x then some t.nnode else t.leafOf x :=
        fun x => leafOf_setLeaf _ s x _
      refine filter_length_update allSymbols_nodup (mem_allSymbols s) ?_ ?_ ?_
      · simp [TreeStore.present, hs]
      · simp [TreeStore.present, hlo]
      · intro x hx
        simp [TreeStore.present, hlo, Ne.symm hx]
    have := h.size
    simp only [addLeaf_nnode, List.length_cons, hc]; omega

/-- A join of two roots makes one root of them (40_build.md R148, 43_header.md R222). -/
theorem Growing.join {t : TreeStore} {rs : List Nat} {a b : Keyed} (h : Growing t (a.node :: b.node :: rs)) :
    Growing (t.join a b).2 (t.nnode :: rs) := by
  have ha : a.node < t.nnode := h.forest.root_lt (by simp)
  have hb : b.node < t.nnode := h.forest.root_lt (by simp)
  have hnd := h.forest.nodup
  simp only [List.nodup_cons, List.mem_cons, not_or] at hnd
  obtain ⟨⟨hab, hars⟩, hbrs, hrs⟩ := hnd
  have hget := join_node? t a b ha hb
  have hat : (t.join a b).2.nodes[t.nnode]? =
      some ⟨a.weight + b.weight, a.symbol, some a.node, some b.node, none⟩ := by rw [hget, if_pos rfl]
  have hnew : ∀ i nd, t.nodes[i]? = some nd → i ≠ t.nnode := fun i nd hi he => by
    have := (List.getElem?_eq_some_iff.1 hi).1
    unfold TreeStore.nnode at he; omega
  -- an old node keeps everything but, for `a` and `b`, its parent
  have hkeep : ∀ i nd, t.nodes[i]? = some nd → ∃ nd', (t.join a b).2.nodes[i]? = some nd' ∧
      nd'.left = nd.left ∧ nd'.right = nd.right ∧ nd'.symbol = nd.symbol ∧
      nd'.parent = if i = a.node ∨ i = b.node then some t.nnode else nd.parent := fun i nd hi => by
    rw [hget, if_neg (hnew i nd hi)]
    split
    · exact ⟨{ nd with parent := some t.nnode }, by rw [hi]; rfl, rfl, rfl, rfl, by simp [*]⟩
    · exact ⟨nd, hi, rfl, rfl, rfl, by simp [*]⟩
  have hback : ∀ i nd', i ≠ t.nnode → (t.join a b).2.nodes[i]? = some nd' → ∃ nd, t.nodes[i]? = some nd ∧
      nd'.left = nd.left ∧ nd'.right = nd.right ∧ nd'.symbol = nd.symbol ∧
      nd'.parent = if i = a.node ∨ i = b.node then some t.nnode else nd.parent := fun i nd' hi hn => by
    rw [hget, if_neg hi] at hn
    split at hn
    · obtain ⟨nd, h1, rfl⟩ := Option.map_eq_some_iff.1 hn
      exact ⟨nd, h1, rfl, rfl, rfl, by simp [*]⟩
    · exact ⟨nd', hn, rfl, rfl, rfl, by simp [*]⟩
  have hroot : ∀ i, i ∈ a.node :: b.node :: rs → ∀ nd, t.nodes[i]? = some nd → nd.parent = none := fun i hi nd hn => by
    obtain ⟨nd', h1, h2⟩ := (h.forest.rootOf i).1 hi
    rw [hn] at h1; cases h1; exact h2
  have hchild : ∀ c i, ChildOf t.nodes c i → ChildOf (t.join a b).2.nodes c i := fun c i ⟨hlt, nd, h1, h2⟩ => by
    obtain ⟨nd', h1', -, -, -, hp⟩ := hkeep c nd h1
    refine ⟨hlt, nd', h1', ?_⟩
    rw [hp, if_neg, h2]
    rintro (rfl | rfl)
    · rw [hroot a.node (by simp) nd h1] at h2; simp at h2
    · rw [hroot b.node (by simp) nd h1] at h2; simp at h2
  have hnot : t.nnode ∉ rs := fun hm => by
    have := h.forest.root_lt (i := t.nnode) (by simp [hm])
    unfold TreeStore.nnode at this; omega
  refine ⟨⟨?_, ?_, ?_, List.nodup_cons.2 ⟨hnot, hrs⟩⟩, ?_, ?_, h.root⟩
  · intro i nd hi
    by_cases he : i = t.nnode
    · subst he; rw [hat] at hi; cases hi
      obtain ⟨na, hna, -⟩ := (h.forest.rootOf a.node).1 (by simp)
      obtain ⟨nb, hnb, -⟩ := (h.forest.rootOf b.node).1 (by simp)
      obtain ⟨na', h1, -, -, -, hpa⟩ := hkeep _ _ hna
      obtain ⟨nb', h2, -, -, -, hpb⟩ := hkeep _ _ hnb
      exact .inr ⟨a.node, b.node, rfl, rfl, hab, ⟨ha, na', h1, by simpa using hpa⟩, ⟨hb, nb', h2, by simpa using hpb⟩⟩
    · obtain ⟨nd0, h0, hl, hr, -, -⟩ := hback i nd he hi
      rcases h.forest.links i nd0 h0 with ⟨h1, h2⟩ | ⟨l, r, h1, h2, hne, hcl, hcr⟩
      · exact .inl ⟨hl.trans h1, hr.trans h2⟩
      · exact .inr ⟨l, r, hl.trans h1, hr.trans h2, hne, hchild _ _ hcl, hchild _ _ hcr⟩
  · intro i nd p hi hp
    by_cases he : i = t.nnode
    · subst he; rw [hat] at hi; cases hi; simp at hp
    · obtain ⟨nd0, h0, -, -, -, hpar⟩ := hback i nd he hi
      by_cases hab' : i = a.node ∨ i = b.node
      · rw [hpar, if_pos hab'] at hp
        cases hp
        exact ⟨_, hat, by rcases hab' with rfl | rfl <;> simp⟩
      · rw [hpar, if_neg hab'] at hp
        obtain ⟨pn, h1, h2⟩ := h.forest.parent i nd0 p h0 hp
        obtain ⟨pn', h1', hl, hr, -, -⟩ := hkeep p pn h1
        exact ⟨pn', h1', by rw [hl, hr]; exact h2⟩
  · intro i
    by_cases he : i = t.nnode
    · subst he; simp [hat]
    · rw [List.mem_cons]
      constructor
      · rintro (h' | hm)
        · exact absurd h' he
        · obtain ⟨nd, h1, h2⟩ := (h.forest.rootOf i).1 (by simp [hm])
          obtain ⟨nd', h1', -, -, -, hp⟩ := hkeep i nd h1
          refine ⟨nd', h1', ?_⟩
          rw [hp, if_neg, h2]
          rintro (rfl | rfl)
          · exact hars hm
          · exact hbrs hm
      · rintro ⟨nd', h1, h2⟩
        obtain ⟨nd, h0, -, -, -, hp⟩ := hback i nd' he h1
        rw [h2] at hp
        split at hp
        · simp at hp
        · rename_i hnab
          have := (h.forest.rootOf i).2 ⟨nd, h0, hp.symm⟩
          simp only [List.mem_cons] at this
          tauto
  · intro x i
    have hl : (t.join a b).2.leafOf x = t.leafOf x := rfl
    rw [hl, h.table x i]
    constructor
    · rintro ⟨nd, h1, h2, h3⟩
      obtain ⟨nd', h1', hl, hr, hs, -⟩ := hkeep i nd h1
      exact ⟨nd', h1', by simpa [Node.isLeaf, hl, hr] using h2, hs.trans h3⟩
    · rintro ⟨nd', h1, h2, h3⟩
      have he : i ≠ t.nnode := fun he => by
        subst he; rw [hat] at h1; cases h1; simp [Node.isLeaf] at h2
      obtain ⟨nd, h0, hl, hr, hs, -⟩ := hback i nd' he h1
      exact ⟨nd, h0, by simpa [Node.isLeaf, hl, hr] using h2, hs.symm.trans h3⟩
  · have hc : (t.join a b).2.presentSymbols = t.presentSymbols := rfl
    have := h.size
    simp only [join_nnode, List.length_cons, hc] at this ⊢; omega

/-- A forest with no root has no node. -/
theorem Forest.nil {nodes : List Node} (h : Forest nodes []) : nodes = [] := by
  by_contra hne
  have hpos : 0 < nodes.length := List.length_pos_of_ne_nil hne
  -- a node with no later node has no parent, so it is a root
  have hlast : nodes[nodes.length - 1]? = some nodes[nodes.length - 1] := List.getElem?_eq_getElem (by omega)
  have hnone : nodes[nodes.length - 1].parent = none := by
    by_contra hp
    obtain ⟨p, hp⟩ := Option.ne_none_iff_exists'.1 hp
    obtain ⟨pn, h1, h2⟩ := h.parent _ _ p hlast hp
    have hpl := (List.getElem?_eq_some_iff.1 h1).1
    rcases h.links p pn h1 with ⟨hl, hr⟩ | ⟨l, r, hl, hr, -, ⟨hlt, -⟩, ⟨hrt, -⟩⟩
    · simp [hl, hr] at h2
    · rw [hl, hr] at h2; simp at h2; omega
  have := (h.rootOf (nodes.length - 1)).2 ⟨_, hlast, hnone⟩
  simp at this

theorem Growing.nnode_le {t : TreeStore} {rs : List Nat} (h : Growing t rs) : t.nnode ≤ nodeMax := by
  have h1 := presentSymbols_length_le t
  have h2 := h.size
  rcases rs with _ | ⟨r, rs⟩
  · have := h.forest.nil
    simp [TreeStore.nnode, this]
  · simp only [List.length_cons] at h2; unfold nodeMax; omega

/-- With no root left to join the store is the empty tree, with one root it is that tree (40_build.md R150, R153). -/
theorem Growing.wf {t : TreeStore} {r : NodeRef} (h : Growing t r.toList) : ({ t with root := r } : TreeStore).Wf := by
  refine ⟨h.forest, h.table, ?_, ?_⟩
  · rintro hr
    have hr : r = none := hr
    subst hr
    exact h.forest.nil
  · intro hr
    obtain ⟨x, rfl⟩ := Option.ne_none_iff_exists'.1 hr
    exact h.size

theorem TreeStore.Wf.empty_wf : TreeStore.empty.Wf := growing_empty.wf (r := none)

/-- A well-formed store has at most 511 entries in use (10_state.md R28). -/
theorem TreeStore.Wf.nnode_le {t : TreeStore} (h : t.Wf) : t.nnode ≤ nodeMax := by
  by_cases hr : t.root = none
  · simp [TreeStore.nnode, h.empty hr]
  · have h1 := h.size hr
    have h2 := presentSymbols_length_le t
    unfold nodeMax; omega

end Sys2Proof.Machine
end

