-- ==== Sys2Proof/Laws/Streams.lean ====
section
/-! SUPPORT. What the stream operations do, said in bit sequences (20_memory.md). -/

namespace Sys2Proof.Machine

/-! ## Bytes and bits -/

@[simp] theorem byteBits_length (v : Byte) : (byteBits v).length = 8 := by simp [byteBits]

@[simp] theorem bytesBits_nil : bytesBits [] = [] := rfl

@[simp] theorem bytesBits_cons (v : Byte) (vs : List Byte) : bytesBits (v :: vs) = byteBits v ++ bytesBits vs := by
  simp [bytesBits]

@[simp] theorem bytesBits_append (vs ws : List Byte) : bytesBits (vs ++ ws) = bytesBits vs ++ bytesBits ws := by
  simp [bytesBits]

@[simp] theorem bytesBits_length (vs : List Byte) : (bytesBits vs).length = 8 * vs.length := by
  induction vs with
  | nil => rfl
  | cons v vs ih => simp [ih]; omega

/-- The bits of a byte spelled out, most significant first (20_memory.md R63). -/
theorem byteBits_eq (v : Byte) : byteBits v =
    [v.getLsbD 7, v.getLsbD 6, v.getLsbD 5, v.getLsbD 4, v.getLsbD 3, v.getLsbD 2, v.getLsbD 1, v.getLsbD 0] := rfl

/-- A byte is determined by its bits. -/
theorem byteBits_injective {v w : Byte} (h : byteBits v = byteBits w) : v = w := by
  rw [byteBits_eq, byteBits_eq] at h
  simp only [List.cons.injEq, and_true] at h
  obtain ⟨h7, h6, h5, h4, h3, h2, h1, h0⟩ := h
  apply BitVec.eq_of_getLsbD_eq
  intro i hi
  match i, hi with
  | 0, _ | 1, _ | 2, _ | 3, _ | 4, _ | 5, _ | 6, _ | 7, _ => assumption

/-! ## The output stream -/

/-- One written bit joins the end of the bits held (20_memory.md R62, R81). -/
theorem writeBit_bits (b : Bit) (o : OutStream) : (writeBit b o).bits = o.bits ++ [b] := by
  obtain ⟨bytes, acc, nbits⟩ := o
  fin_cases nbits <;> cases b <;>
    simp [writeBit, OutStream.bits, OutStream.partialBits, byteBits, List.range_succ]

/-- Written bits join the end of the bits held, in order (20_memory.md R81). -/
theorem writeBits_bits (bs : List Bit) (o : OutStream) : (writeBits bs o).bits = o.bits ++ bs := by
  induction bs generalizing o with
  | nil => simp [writeBits]
  | cons b bs ih =>
    have := ih (writeBit b o)
    simp only [writeBits, List.foldl_cons] at this ⊢
    rw [this, writeBit_bits]; simp

@[simp] theorem writeBits_nil (o : OutStream) : writeBits [] o = o := rfl

@[simp] theorem writeBits_cons (b : Bit) (bs : List Bit) (o : OutStream) :
    writeBits (b :: bs) o = writeBits bs (writeBit b o) := rfl

theorem writeBits_append (as bs : List Bit) (o : OutStream) :
    writeBits (as ++ bs) o = writeBits bs (writeBits as o) := by
  simp [writeBits]

/-- Shifting one more bit into an accumulator that has room for it. -/
theorem shiftIn_toNat (acc : Byte) (b : Bit) (h : acc.toNat < 128) :
    ((acc <<< 1) ||| (BitVec.ofBool b).setWidth 8).toNat = 2 * acc.toNat + b.toNat := by
  have h1 := Nat.two_pow_add_eq_or_of_lt (i := 1) (b := b.toNat) (by cases b <;> decide) acc.toNat
  rw [BitVec.toNat_or, BitVec.toNat_shiftLeft, BitVec.toNat_setWidth, Nat.shiftLeft_eq,
    Nat.mod_eq_of_lt (by omega)]
  have h2 : (BitVec.ofBool b).toNat % 2 ^ 8 = b.toNat := by cases b <;> rfl
  rw [h2, Nat.mul_comm acc.toNat (2^1), ← h1]

def AccOk (o : OutStream) : Prop := o.acc.toNat < 2 ^ o.nbits.val

theorem writeBit_accOk (b : Bit) {o : OutStream} (h : AccOk o) : AccOk (writeBit b o) := by
  unfold AccOk writeBit at *
  have hb : b.toNat ≤ 1 := by cases b <;> decide
  by_cases h7 : o.nbits = 7
  · simp [h7]
  · have hn : o.nbits.val < 7 := by omega
    have h128 : o.acc.toNat < 128 :=
      Nat.lt_of_lt_of_le h (Nat.pow_le_pow_right (n := 2) (by omega) (by omega : o.nbits.val ≤ 7))
    have hs : (o.nbits + 1).val = o.nbits.val + 1 := by
      rw [Fin.val_add]; exact Nat.mod_eq_of_lt (by simp; omega)
    simp only [h7, if_false, hs, Nat.pow_succ]
    rw [shiftIn_toNat _ _ h128]; omega

theorem writeBits_accOk (bs : List Bit) {o : OutStream} (h : AccOk o) : AccOk (writeBits bs o) := by
  induction bs generalizing o with
  | nil => exact h
  | cons b bs ih => exact ih (writeBit_accOk b h)

theorem flushBitwise_accOk {o : OutStream} (h : AccOk o) : AccOk (flushBitwise o) := by
  unfold flushBitwise AccOk at *
  split <;> simp_all

theorem flushBitwise_aligned (o : OutStream) : (flushBitwise o).nbits = 0 := by
  unfold flushBitwise; split <;> simp_all

theorem flushBitwise_of_aligned {o : OutStream} (h : o.nbits = 0) : flushBitwise o = o := by simp [flushBitwise, h]

/-- FLUSH pads with zero bits up to the next byte boundary -/
theorem flushBitwise_bits (o : OutStream) :
    (flushBitwise o).bits = o.bits ++ List.replicate ((8 - o.nbits.val) % 8) false := by
  obtain ⟨bytes, acc, nbits⟩ := o
  fin_cases nbits <;>
    simp [flushBitwise, OutStream.bits, OutStream.partialBits, byteBits, List.range_succ, List.replicate]

theorem bits_of_aligned {o : OutStream} (h : o.nbits = 0) : o.bits = bytesBits o.bytes := by
  simp [OutStream.bits, OutStream.partialBits, h]

theorem writeByte_aligned (v : Byte) {o : OutStream} (h : o.nbits = 0) :
    writeByte v o = .ok () { o with bytes := o.bytes ++ [v] } := by simp [writeByte, h]
theorem writeByte_misaligned (v : Byte) {o : OutStream} (h : o.nbits ≠ 0) :
    writeByte v o = .raise .misaligned o := by simp [writeByte, h]

theorem writeBytes_aligned (vs : List Byte) {o : OutStream} (h : o.nbits = 0) :
    writeBytes vs o = .ok () { o with bytes := o.bytes ++ vs } := by
  induction vs generalizing o with
  | nil => simp [writeBytes]
  | cons v vs ih => simp [writeBytes, writeByte_aligned v h, ih (o := { o with bytes := o.bytes ++ [v] }) h]

/-! ## Input -/
theorem restBits_eq (i : InStream) {v : Byte} (h : i.bytes[i.pos]? = some v) :
    i.restBits = (byteBits v).drop i.bit.val ++ bytesBits (i.bytes.drop (i.pos + 1)) := by
  have hd : i.bytes.drop i.pos = v :: i.bytes.drop (i.pos + 1) := by
    obtain ⟨hl, rfl⟩ := List.getElem?_eq_some_iff.1 h
    exact List.drop_eq_getElem_cons hl
  rw [InStream.restBits, InStream.restBytes, hd, bytesBits_cons, List.drop_append_of_le_length (by simp)]

theorem readBit_eos {i : InStream} (h : i.bytes.length ≤ i.pos) : readBit i = (none, i) := by
  simp [readBit, h]

theorem restBits_eos {i : InStream} (h : i.bytes.length ≤ i.pos) : i.restBits = [] := by
  simp [InStream.restBits, InStream.restBytes, h]

theorem readBit_some {i : InStream} (h : i.pos < i.bytes.length) :
    ∃ b, (readBit i).1 = some b ∧ i.restBits = b :: (readBit i).2.restBits := by
  obtain ⟨bytes, pos, bit⟩ := i
  have hv : bytes[pos]? = some bytes[pos] := List.getElem?_eq_getElem h
  refine ⟨bytes[pos].getLsbD (7 - bit.val), by simp [readBit, hv], ?_⟩
  have hd : bytes.drop pos = bytes[pos] :: bytes.drop (pos + 1) := List.drop_eq_getElem_cons h
  generalize bytes[pos] = v at hv hd ⊢
  generalize hr : bytes.drop (pos + 1) = rest at hd
  fin_cases bit <;> simp [readBit, hv, InStream.restBits, InStream.restBytes, hd, hr, byteBits_eq]

theorem readBit_cons {i : InStream} {b : Bit} {bs : List Bit} (h : i.restBits = b :: bs) :
    (readBit i).1 = some b ∧ (readBit i).2.restBits = bs := by
  rcases Nat.lt_or_ge i.pos i.bytes.length with hp | hp
  · obtain ⟨b', h1, h2⟩ := readBit_some hp
    rw [h] at h2
    simp only [List.cons.injEq] at h2
    exact ⟨by rw [h1, h2.1], h2.2.symm⟩
  · rw [restBits_eos hp] at h; simp at h

@[simp] theorem readBit_bytes (i : InStream) : (readBit i).2.bytes = i.bytes := by
  unfold readBit; split <;> (try split) <;> simp

/-- `IN.pos` is at most the length, and the stream is aligned at its end (20_memory.md R68). -/
def InOk (i : InStream) : Prop := i.pos ≤ i.bytes.length ∧ (i.pos = i.bytes.length → i.bit = 0)

theorem restBits_nil {i : InStream} (h : i.restBits = []) : i.bytes.length ≤ i.pos := by
  rcases Nat.lt_or_ge i.pos i.bytes.length with hp | hp
  · obtain ⟨b', h1, h2⟩ := readBit_some hp
    rw [h] at h2; simp at h2
  · exact hp

theorem readBit_inOk {i : InStream} (h : InOk i) : InOk (readBit i).2 := by
  obtain ⟨h1, h2⟩ := h
  unfold readBit InOk at *
  split
  · exact ⟨h1, h2⟩
  · rename_i v hv
    obtain ⟨hl, -⟩ := List.getElem?_eq_some_iff.1 hv
    split
    · simp; omega
    · simp; exact ⟨h1, fun h => by omega⟩

theorem needByte_misaligned {i : InStream} (h : i.bit ≠ 0) : needByte i = .raise .misaligned i := by
  simp [needByte, readByte, h]

theorem needByte_nil {i : InStream} (ha : i.bit = 0) (h : i.restBytes = []) :
    needByte i = .raise .truncatedStream i := by
  have : i.bytes.length ≤ i.pos := by simpa [InStream.restBytes] using h
  simp [needByte, readByte, ha, this]

theorem needByte_cons {i : InStream} {v : Byte} {vs : List Byte} (ha : i.bit = 0) (h : i.restBytes = v :: vs) :
    needByte i = .ok v { i with pos := i.pos + 1 } ∧ ({ i with pos := i.pos + 1 } : InStream).restBytes = vs ∧
      i.pos < i.bytes.length := by
  have hp : i.pos < i.bytes.length := by
    rcases Nat.lt_or_ge i.pos i.bytes.length with hp | hp
    · exact hp
    · simp [InStream.restBytes, List.drop_eq_nil_of_le hp] at h
  rw [InStream.restBytes, List.drop_eq_getElem_cons hp] at h
  simp only [List.cons.injEq] at h
  refine ⟨?_, h.2, hp⟩
  simp [needByte, readByte, ha, List.getElem?_eq_getElem hp, h.1]

theorem restBits_of_aligned {i : InStream} (h : i.bit = 0) : i.restBits = bytesBits i.restBytes := by
  simp [InStream.restBits, h]

/-- Everything `read_byte()` of a due byte can do (20_memory.md R72, R73; 43_header.md R222). -/
theorem needByte_cases (i : InStream) :
    (i.bit ≠ 0 ∧ needByte i = .raise .misaligned i) ∨
      (i.bit = 0 ∧ i.restBytes = [] ∧ needByte i = .raise .truncatedStream i) ∨
      ∃ v vs, i.bit = 0 ∧ i.restBytes = v :: vs ∧ i.pos < i.bytes.length ∧
        needByte i = .ok v { i with pos := i.pos + 1 } ∧ ({ i with pos := i.pos + 1 } : InStream).restBytes = vs := by
  by_cases ha : i.bit = 0
  · cases h : i.restBytes with
    | nil => exact .inr (.inl ⟨ha, rfl, needByte_nil ha h⟩)
    | cons v vs =>
      obtain ⟨h1, h2, h3⟩ := needByte_cons ha h
      exact .inr (.inr ⟨v, vs, ha, rfl, h3, h1, h2⟩)
  · exact .inl ⟨ha, needByte_misaligned ha⟩

end Sys2Proof.Machine
end

