-- ==== Sys2Proof/Laws/Links.lean ====
section
/-! SUPPORT. The node store as an inductive tree: which tree lies below a node, the paths through it, and what the
three walks of ENC, DEC and HSER do on it (41_encode.md R172, 42_decode.md R192, 43_header.md R212). -/

namespace Sys2Proof.Machine

/-- The tree `T` lies below `NODE[i]`. -/
inductive Holds (nodes : List Node) : Nat → Tree → Prop where
  | leaf {i : Nat} {nd : Node} : nodes[i]? = some nd → nd.left = none → nd.right = none →
      Holds nodes i (.leaf nd.weight nd.symbol)
  | node {i l r : Nat} {nd : Node} {L R : Tree} : nodes[i]? = some nd → nd.left = some l → nd.right = some r →
      Holds nodes l L → Holds nodes r R → Holds nodes i (.node nd.weight nd.symbol L R)

/-- Two stores agree on a node but for its parent link. -/
def SameDown (nodes nodes' : List Node) : Prop :=
  ∀ (i : Nat) (nd : Node), nodes[i]? = some nd → ∃ nd' : Node, nodes'[i]? = some nd' ∧
    nd'.left = nd.left ∧ nd'.right = nd.right ∧ nd'.weight = nd.weight ∧ nd'.symbol = nd.symbol

theorem SameDown.trans {a b c : List Node} (h : SameDown a b) (h' : SameDown b c) : SameDown a c := by
  intro i nd hi
  obtain ⟨nd1, h1, hl, hr, hw, hs⟩ := h i nd hi
  obtain ⟨nd2, h2, hl', hr', hw', hs'⟩ := h' i nd1 h1
  exact ⟨nd2, h2, hl'.trans hl, hr'.trans hr, hw'.trans hw, hs'.trans hs⟩

theorem SameDown.refl (a : List Node) : SameDown a a := fun _ nd h => ⟨nd, h, rfl, rfl, rfl, rfl⟩

theorem Holds.mono {nodes nodes' : List Node} (hs : SameDown nodes nodes') {i : Nat} {T : Tree}
    (h : Holds nodes i T) : Holds nodes' i T := by
  induction h with
  | leaf hi hl hr =>
    obtain ⟨nd', h1, h2, h3, h4, h5⟩ := hs _ _ hi
    rw [← h4, ← h5]; exact .leaf h1 (h2.trans hl) (h3.trans hr)
  | node hi hl hr _ _ ihl ihr =>
    obtain ⟨nd', h1, h2, h3, h4, h5⟩ := hs _ _ hi
    rw [← h4, ← h5]; exact .node h1 (h2.trans hl) (h3.trans hr) ihl ihr

theorem Holds.det {nodes : List Node} {i : Nat} {T T' : Tree} (h : Holds nodes i T) (h' : Holds nodes i T') :
    T = T' := by
  induction h generalizing T' with
  | leaf hi hl hr =>
    cases h' with
    | leaf hi' _ _ => rw [hi] at hi'; cases hi'; rfl
    | node hi' hl' _ _ _ => rw [hi] at hi'; cases hi'; simp [hl] at hl'
  | node hi hl hr _ _ ihl ihr =>
    cases h' with
    | leaf hi' hl' _ => rw [hi] at hi'; cases hi'; simp [hl] at hl'
    | node hi' hl' hr' hL hR =>
      rw [hi] at hi'; cases hi'
      rw [hl] at hl'; cases hl'
      rw [hr] at hr'; cases hr'
      rw [ihl hL, ihr hR]

theorem addLeaf_sameDown (t : TreeStore) (w : Weight) (s : Byte) : SameDown t.nodes (t.addLeaf w s).2.nodes := by
  intro i nd hi
  have hlt := (List.getElem?_eq_some_iff.1 hi).1
  exact ⟨nd, by rw [addLeaf_node?, if_neg (by unfold TreeStore.nnode; omega), hi], rfl, rfl, rfl, rfl⟩

theorem join_sameDown (t : TreeStore) (a b : Keyed) (ha : a.node < t.nnode) (hb : b.node < t.nnode) :
    SameDown t.nodes (t.join a b).2.nodes := by
  intro i nd hi
  have hlt := (List.getElem?_eq_some_iff.1 hi).1
  rw [join_node? t a b ha hb, if_neg (by unfold TreeStore.nnode; omega)]
  split
  · exact ⟨{ nd with parent := some t.nnode }, by rw [hi]; rfl, rfl, rfl, rfl, rfl⟩
  · exact ⟨nd, hi, rfl, rfl, rfl, rfl⟩

/-- What a leaf just added holds. -/
theorem addLeaf_holds (t : TreeStore) (w : Weight) (s : Byte) : Holds (t.addLeaf w s).2.nodes t.nnode (.leaf w s) := by
  have h : (t.addLeaf w s).2.nodes[t.nnode]? = some ⟨w, s, none, none, none⟩ := by rw [addLeaf_node?, if_pos rfl]
  exact Holds.leaf h rfl rfl

/-- What a node just joined holds. -/
theorem join_holds (t : TreeStore) (a b : Keyed) (ha : a.node < t.nnode) (hb : b.node < t.nnode) {A B : Tree}
    (hA : Holds t.nodes a.node A) (hB : Holds t.nodes b.node B) :
    Holds (t.join a b).2.nodes t.nnode (.node (a.weight + b.weight) a.symbol A B) := by
  have h : (t.join a b).2.nodes[t.nnode]? =
      some ⟨a.weight + b.weight, a.symbol, some a.node, some b.node, none⟩ := by rw [join_node? t a b ha hb, if_pos rfl]
  exact Holds.node h rfl rfl (hA.mono (join_sameDown t a b ha hb)) (hB.mono (join_sameDown t a b ha hb))

/-- Below every node in use lies a tree: links lead to earlier nodes, so there is no cycle (10_state.md R35). -/
theorem Forest.holds {nodes : List Node} {rs : List Nat} (h : Forest nodes rs) (i : Nat) (hi : i < nodes.length) :
    ∃ T, Holds nodes i T := by
  induction i using Nat.strong_induction_on with
  | _ i ih =>
    have hn : nodes[i]? = some nodes[i] := List.getElem?_eq_getElem hi
    rcases h.links i _ hn with ⟨hl, hr⟩ | ⟨l, r, hl, hr, -, ⟨hlt, -⟩, ⟨hrt, -⟩⟩
    · exact ⟨_, .leaf hn hl hr⟩
    · obtain ⟨L, hL⟩ := ih l hlt (by omega)
      obtain ⟨R, hR⟩ := ih r hrt (by omega)
      exact ⟨_, .node hn hl hr hL hR⟩

theorem Holds.lt {nodes : List Node} {i : Nat} {T : Tree} (h : Holds nodes i T) : i < nodes.length := by
  cases h with
  | leaf hi _ _ => exact (List.getElem?_eq_some_iff.1 hi).1
  | node hi _ _ _ _ => exact (List.getElem?_eq_some_iff.1 hi).1

/-- Links go to earlier nodes. -/
def Downward (nodes : List Node) : Prop :=
  ∀ (i : Nat) (nd : Node) (c : Nat), nodes[i]? = some nd → nd.left = some c ∨ nd.right = some c → c < i

theorem Forest.downward {nodes : List Node} {rs : List Nat} (h : Forest nodes rs) : Downward nodes := by
  intro i nd c hi hc
  rcases h.links i nd hi with ⟨hl, hr⟩ | ⟨l, r, hl, hr, -, ⟨hlt, -⟩, ⟨hrt, -⟩⟩
  · simp [hl, hr] at hc
  · rw [hl, hr] at hc; simp at hc; omega

/-- The bounded reading of the store finds the tree. -/
theorem Holds.treeAt {nodes : List Node} (hd : Downward nodes) {i : Nat} {T : Tree} (h : Holds nodes i T) (n : Nat)
    (hn : i ≤ n) : treeAt nodes n i = some T := by
  induction h generalizing n with
  | leaf hi hl hr => unfold Machine.treeAt; simp [hi, hl, hr]
  | @node i l r nd L R hi hl hr _ _ ihl ihr =>
    have h1 := hd i nd l hi (.inl hl)
    have h2 := hd i nd r hi (.inr hr)
    obtain ⟨n, rfl⟩ : ∃ m, n = m + 1 := ⟨n - 1, by omega⟩
    unfold Machine.treeAt; simp [hi, hl, hr, ihl n (by omega), ihr n (by omega)]

theorem treeAt_holds {nodes : List Node} {n i : Nat} {T : Tree} (h : treeAt nodes n i = some T) : Holds nodes i T := by
  induction n generalizing i T with
  | zero =>
    unfold treeAt at h
    split at h
    · simp at h
    · rename_i nd hi
      split at h
      · simp at h; subst h; exact .leaf hi ‹_› ‹_›
      · simp at h
      · simp at h
  | succ n ih =>
    unfold treeAt at h
    split at h
    · simp at h
    · rename_i nd hi
      split at h
      · simp at h; subst h; exact .leaf hi ‹_› ‹_›
      · simp only at h
        split at h
        · rename_i hL hR
          simp at h; subst h
          exact .node hi ‹_› ‹_› (ih hL) (ih hR)
        · simp at h
      · simp at h

/-- A well-formed store with a root holds a tree (10_state.md R34, R35). -/
theorem TreeStore.Wf.view_some {t : TreeStore} (h : t.Wf) {r : Nat} (hr : t.root = some r) :
    ∃ T, t.view = some T ∧ Holds t.nodes r T ∧ r < t.nnode := by
  have hm : r ∈ t.root.toList := by simp [hr]
  have hlt := h.forest.root_lt hm
  obtain ⟨T, hT⟩ := h.forest.holds r hlt
  exact ⟨T, by simp [TreeStore.view, hr, hT.treeAt h.forest.downward t.nnode (by unfold TreeStore.nnode; omega)], hT, hlt⟩

theorem TreeStore.view_root {t : TreeStore} {T : Tree} (h : t.view = some T) :
    ∃ r, t.root = some r ∧ Holds t.nodes r T := by
  unfold TreeStore.view at h
  obtain ⟨r, h1, h2⟩ := Option.bind_eq_some_iff.1 h
  exact ⟨r, h1, treeAt_holds h2⟩

theorem TreeStore.Wf.view_none {t : TreeStore} (h : t.Wf) : t.view = none ↔ t.root = none := by
  constructor
  · intro hv
    by_contra hr
    obtain ⟨r, hr⟩ := Option.ne_none_iff_exists'.1 hr
    obtain ⟨T, hT, -⟩ := h.view_some hr
    rw [hv] at hT; simp at hT
  · intro hr; simp [TreeStore.view, hr]

/-! ## Paths -/

/-- `c` is the `b` child of `NODE[i]`: left for 0, right for 1. -/
def Child (nodes : List Node) (i : Nat) (b : Bit) (c : Nat) : Prop :=
  ∃ nd : Node, nodes[i]? = some nd ∧ (if b then nd.right else nd.left) = some c

/-- The branches `bs` lead from `NODE[i]` down to `NODE[j]`. -/
inductive Reach (nodes : List Node) (i : Nat) : List Bit → Nat → Prop where
  | nil : Reach nodes i [] i
  | snoc {bs : List Bit} {k j : Nat} {b : Bit} : Reach nodes i bs k → Child nodes k b j → Reach nodes i (bs ++ [b]) j

theorem Reach.trans {nodes : List Node} {i j k : Nat} {as bs : List Bit} (h : Reach nodes i as j)
    (h' : Reach nodes j bs k) : Reach nodes i (as ++ bs) k := by
  induction h' with
  | nil => simpa using h
  | snoc _ hc ih => rw [← List.append_assoc]; exact .snoc ih hc

theorem Reach.cons {nodes : List Node} {i j k : Nat} {b : Bit} {bs : List Bit} (hc : Child nodes i b j)
    (h : Reach nodes j bs k) : Reach nodes i (b :: bs) k :=
  Reach.trans (as := [b]) (.snoc (bs := []) .nil hc) h

theorem Child.lt {nodes : List Node} (hd : Downward nodes) {i c : Nat} {b : Bit} (h : Child nodes i b c) : c < i := by
  obtain ⟨nd, h1, h2⟩ := h
  cases b
  · exact hd i nd c h1 (.inl (by simpa using h2))
  · exact hd i nd c h1 (.inr (by simpa using h2))

theorem Reach.le {nodes : List Node} (hd : Downward nodes) {i j : Nat} {bs : List Bit} (h : Reach nodes i bs j) :
    j + bs.length ≤ i := by
  induction h with
  | nil => simp
  | snoc _ hc ih => have := hc.lt hd; simp; omega

/-- A child's parent link and its side (10_state.md R35). -/
theorem Forest.child {nodes : List Node} {rs : List Nat} (h : Forest nodes rs) {i c : Nat} {b : Bit}
    (hc : Child nodes i b c) : ∃ nd cn : Node, nodes[i]? = some nd ∧ nodes[c]? = some cn ∧ cn.parent = some i ∧
      (nd.left != some c) = b := by
  obtain ⟨nd, h1, h2⟩ := hc
  rcases h.links i nd h1 with ⟨hl, hr⟩ | ⟨l, r, hl, hr, hne, ⟨-, ln, hln, hlp⟩, ⟨-, rn, hrn, hrp⟩⟩
  · cases b <;> simp [hl, hr] at h2
  · cases b
    · simp [hl] at h2; subst h2; exact ⟨nd, ln, h1, hln, hlp, by simp [hl]⟩
    · simp [hr] at h2; subst h2; exact ⟨nd, rn, h1, hrn, hrp, by simp [hl, hne]⟩

/-- ENC's first loop collects the branches of the path to the root (41_encode.md R172, R173). -/
theorem pathUp_reach {nodes : List Node} {rs : List Nat} (h : Forest nodes rs) {r j : Nat} (hr : r ∈ rs)
    {bs : List Bit} (hp : Reach nodes r bs j) (n : Nat) (hn : bs.length ≤ n) (stk : List Bit) :
    pathUp nodes n j stk = .ok (bs ++ stk) := by
  induction hp generalizing n stk with
  | nil =>
    obtain ⟨nd, h1, h2⟩ := (h.rootOf r).1 hr
    unfold pathUp; simp [h1, h2]
  | @snoc bs k j b _ hc ih =>
    obtain ⟨nd, cn, h1, h2, h3, h4⟩ := h.child hc
    obtain ⟨n, rfl⟩ : ∃ m, n = m + 1 := ⟨n - 1, by simp at hn; omega⟩
    unfold pathUp
    simp only [h2, h3, h1, h4]
    rw [ih n (by simpa using hn)]; simp

/-- Every node in use lies below some root (10_state.md R35). -/
theorem Forest.reach {nodes : List Node} {rs : List Nat} (h : Forest nodes rs) (j : Nat) (hj : j < nodes.length) :
    ∃ r bs, r ∈ rs ∧ Reach nodes r bs j := by
  generalize hm : nodes.length - j = m
  induction m using Nat.strong_induction_on generalizing j with
  | _ m ih =>
    have hn : nodes[j]? = some nodes[j] := List.getElem?_eq_getElem hj
    cases hp : nodes[j].parent with
    | none => exact ⟨j, [], (h.rootOf j).2 ⟨_, hn, hp⟩, .nil⟩
    | some p =>
      obtain ⟨pn, h1, h2⟩ := h.parent j _ p hn hp
      have hlt := h.downward p pn j h1 h2
      have hpl := (List.getElem?_eq_some_iff.1 h1).1
      obtain ⟨r, bs, hr, hb⟩ := ih (nodes.length - p) (by omega) p hpl rfl
      rcases h2 with h2 | h2
      · exact ⟨r, bs ++ [false], hr, .snoc hb ⟨pn, h1, by simpa using h2⟩⟩
      · exact ⟨r, bs ++ [true], hr, .snoc hb ⟨pn, h1, by simpa using h2⟩⟩

/-! ## Codes -/

theorem code_isSome (T : Tree) (s : Byte) : (T.code s).isSome ↔ s ∈ T.symbols := by
  induction T with
  | leaf w x => by_cases h : x = s <;> simp [Tree.code, Tree.symbols, h, eq_comm (a := s)]
  | node w x L R ihL ihR =>
    simp only [Tree.code, Tree.symbols, List.mem_append, ← ihL, ← ihR]
    cases L.code s <;> simp

/-- The code of a symbol leads to a leaf that holds it (10_state.md R41). -/
theorem Holds.code_reach {nodes : List Node} {i : Nat} {T : Tree} (h : Holds nodes i T) {s : Byte} {bs : List Bit}
    (hc : T.code s = some bs) :
    ∃ (j : Nat) (nd : Node), Reach nodes i bs j ∧ nodes[j]? = some nd ∧ nd.isLeaf = true ∧ nd.symbol = s := by
  induction h generalizing bs with
  | @leaf i nd hi hl hr =>
    simp only [Tree.code] at hc
    split at hc
    · simp at hc; subst hc
      exact ⟨i, nd, .nil, hi, by simp [Node.isLeaf, hl, hr], ‹_›⟩
    · simp at hc
  | @node i l r nd L R hi hl hr _ _ ihl ihr =>
    simp only [Tree.code] at hc
    split at hc
    · rename_i bs' hL
      simp at hc; subst hc
      obtain ⟨j, nd', h1, h2⟩ := ihl hL
      exact ⟨j, nd', .cons ⟨nd, hi, by simpa using hl⟩ h1, h2⟩
    · obtain ⟨bs', hR, rfl⟩ := Option.map_eq_some_iff.1 hc
      obtain ⟨j, nd', h1, h2⟩ := ihr hR
      exact ⟨j, nd', .cons ⟨nd, hi, by simpa using hr⟩ h1, h2⟩

/-- A leaf below a node is one of its tree's symbols. -/
theorem Holds.reach_symbol {nodes : List Node} {i : Nat} {T : Tree} (h : Holds nodes i T) {j : Nat} {nd : Node}
    {bs : List Bit} (hp : Reach nodes i bs j) (hj : nodes[j]? = some nd) (hl : nd.isLeaf = true) :
    nd.symbol ∈ T.symbols := by
  have key : ∀ {j bs}, Reach nodes i bs j → ∃ T', Holds nodes j T' ∧ ∀ x ∈ T'.symbols, x ∈ T.symbols := by
    intro j bs hp
    induction hp with
    | nil => exact ⟨T, h, fun x hx => hx⟩
    | @snoc bs k j b _ hc ih =>
      obtain ⟨T', hT', hsub⟩ := ih
      obtain ⟨kn, h1, h2⟩ := hc
      cases hT' with
      | leaf h3 h4 h5 => rw [h3] at h1; cases h1; cases b <;> simp [h4, h5] at h2
      | node h3 h4 h5 hL hR =>
        rw [h3] at h1; cases h1
        cases b
        · simp [h4] at h2; subst h2; exact ⟨_, hL, fun x hx => hsub x (by simp [Tree.symbols, hx])⟩
        · simp [h5] at h2; subst h2; exact ⟨_, hR, fun x hx => hsub x (by simp [Tree.symbols, hx])⟩
  obtain ⟨T', hT', hsub⟩ := key hp
  cases hT' with
  | leaf h3 h4 h5 => rw [h3] at hj; cases hj; exact hsub _ (by simp [Tree.symbols])
  | node h3 h4 h5 hL hR => rw [h3] at hj; cases hj; simp [Node.isLeaf, h4] at hl

/-- The present symbols are the symbols of the tree (10_state.md R33). -/
theorem TreeStore.Wf.present_iff {t : TreeStore} (h : t.Wf) {T : Tree} (hv : t.view = some T) (s : Byte) :
    t.present s = true ↔ s ∈ T.symbols := by
  obtain ⟨r, hr, hT⟩ := TreeStore.view_root hv
  constructor
  · intro hp
    obtain ⟨j, hj⟩ := Option.isSome_iff_exists.1 hp
    obtain ⟨nd, h1, h2, h3⟩ := (h.table s j).1 hj
    obtain ⟨r', bs, hr', hb⟩ := h.forest.reach j (List.getElem?_eq_some_iff.1 h1).1
    simp [hr] at hr'; subst hr'
    exact h3 ▸ hT.reach_symbol hb h1 h2
  · intro hs
    obtain ⟨bs, hc⟩ := Option.isSome_iff_exists.1 ((code_isSome T s).2 hs)
    obtain ⟨j, nd, -, h1, h2, h3⟩ := hT.code_reach hc
    have := (h.table s j).2 ⟨nd, h1, h2, h3⟩
    simp [TreeStore.present, this]

/-- ENC's walk from the leaf of `s` gives `code(s)` (41_encode.md R173). -/
theorem TreeStore.Wf.pathUp_code {t : TreeStore} (h : t.Wf) {T : Tree} (hv : t.view = some T) {s : Byte} {i : Nat}
    (hi : t.leafOf s = some i) : ∃ bs, T.code s = some bs ∧ pathUp t.nodes t.nnode i [] = .ok bs := by
  obtain ⟨r, hr, hT⟩ := TreeStore.view_root hv
  have hs : s ∈ T.symbols := (h.present_iff hv s).1 (by simp [TreeStore.present, hi])
  obtain ⟨bs, hc⟩ := Option.isSome_iff_exists.1 ((code_isSome T s).2 hs)
  obtain ⟨j, nd, hb, h1, h2, h3⟩ := hT.code_reach hc
  have hj := (h.table s j).2 ⟨nd, h1, h2, h3⟩
  rw [hi] at hj; cases hj
  have hle := hb.le h.forest.downward
  have hlt := hT.lt
  refine ⟨bs, hc, ?_⟩
  rw [pathUp_reach h.forest (r := r) (by simp [hr]) hb t.nnode (by unfold TreeStore.nnode; omega)]; simp

/-- No symbol is at two leaves (10_state.md R33). -/
theorem TreeStore.Wf.symbols_nodup {t : TreeStore} (h : t.Wf) {T : Tree} (hv : t.view = some T) : T.symbols.Nodup := by
  obtain ⟨r, hr, hT⟩ := TreeStore.view_root hv
  have key : ∀ {i T'}, Holds t.nodes i T' → ∀ {pre}, Reach t.nodes r pre i → T'.symbols.Nodup := by
    intro i T' hT'
    induction hT' with
    | leaf _ _ _ => intros; simp [Tree.symbols]
    | @node i l r' nd L R hi hl hr' hL hR ihl ihr =>
      intro pre hp
      have hcl : Child t.nodes i false l := ⟨nd, hi, by simpa using hl⟩
      have hcr : Child t.nodes i true r' := ⟨nd, hi, by simpa using hr'⟩
      refine List.nodup_append.2 ⟨ihl (.snoc hp hcl), ihr (.snoc hp hcr), ?_⟩
      rintro x hx y hy rfl
      obtain ⟨b1, hc1⟩ := Option.isSome_iff_exists.1 ((code_isSome L x).2 hx)
      obtain ⟨b2, hc2⟩ := Option.isSome_iff_exists.1 ((code_isSome R x).2 hy)
      obtain ⟨j1, n1, hb1, h11, h12, h13⟩ := hL.code_reach hc1
      obtain ⟨j2, n2, hb2, h21, h22, h23⟩ := hR.code_reach hc2
      have e1 := (h.table x j1).2 ⟨n1, h11, h12, h13⟩
      have e2 := (h.table x j2).2 ⟨n2, h21, h22, h23⟩
      rw [e1] at e2; cases e2
      have p1 := hp.trans (Reach.cons hcl hb1)
      have p2 := hp.trans (Reach.cons hcr hb2)
      have q1 := pathUp_reach h.forest (r := r) (by simp [hr]) p1 ((pre ++ false :: b1).length + (pre ++ true :: b2).length)
        (by omega) []
      have q2 := pathUp_reach h.forest (r := r) (by simp [hr]) p2 ((pre ++ false :: b1).length + (pre ++ true :: b2).length)
        (by omega) []
      rw [q1] at q2
      simp at q2
  exact key hT .nil

/-! ## DEC and HSER -/

theorem Holds.isLeaf {nodes : List Node} {i : Nat} {T : Tree} (h : Holds nodes i T) :
    ∃ nd : Node, nodes[i]? = some nd ∧ nd.isLeaf = (match T with | .leaf _ _ => true | .node _ _ _ _ => false) := by
  cases h with
  | leaf hi hl hr => exact ⟨_, hi, by simp [Node.isLeaf, hl, hr]⟩
  | node hi hl hr _ _ => exact ⟨_, hi, by simp [Node.isLeaf, hl]⟩

/-- DEC's loop is the walk of the tree over the bits not consumed yet (42_decode.md R192, R194, R196). -/
theorem Holds.decWalk {nodes : List Node} (hd : Downward nodes) {i : Nat} {T : Tree} (h : Holds nodes i T) (n : Nat)
    (hn : i ≤ n) (inp : InStream) (hin : InOk inp) :
    ∃ inp' : InStream, inp'.bytes = inp.bytes ∧ InOk inp' ∧
      ((∃ v, T.walk inp.restBits = some (v, inp'.restBits) ∧ Machine.decWalk nodes n (some i) inp = .ok v inp') ∨
        (T.walk inp.restBits = none ∧ inp'.pos = inp.bytes.length ∧
          Machine.decWalk nodes n (some i) inp = .raise .truncatedStream inp')) := by
  induction h generalizing n inp with
  | @leaf i nd hi hl hr =>
    refine ⟨inp, rfl, hin, .inl ⟨nd.symbol, rfl, ?_⟩⟩
    unfold Machine.decWalk; simp [hi, Node.isLeaf, hl, hr]
  | @node i l r nd L R hi hl hr _ _ ihl ihr =>
    have h1 := hd i nd l hi (.inl hl)
    have h2 := hd i nd r hi (.inr hr)
    obtain ⟨n, rfl⟩ : ∃ m, n = m + 1 := ⟨n - 1, by omega⟩
    cases hb : inp.restBits with
    | nil =>
      have hp := restBits_nil hb
      refine ⟨inp, rfl, hin, .inr ⟨rfl, by have := hin.1; omega, ?_⟩⟩
      rw [Machine.decWalk.eq_def]; simp [hi, Node.isLeaf, hl, readBit_eos hp]
    | cons b bs =>
      obtain ⟨hr1, hr2⟩ := readBit_cons hb
      have hok := readBit_inOk hin
      have hbytes := readBit_bytes inp
      have hrb : readBit inp = ((readBit inp).1, (readBit inp).2) := rfl
      rw [hr1] at hrb
      generalize (readBit inp).2 = inp1 at hrb hr2 hok hbytes
      cases b with
      | false =>
        obtain ⟨inp', hb', ho', hres⟩ := ihl n (by omega) inp1 hok
        refine ⟨inp', hb'.trans hbytes, ho', ?_⟩
        rw [hr2, hbytes] at hres
        rw [Machine.decWalk.eq_def]; simpa [hi, Node.isLeaf, hl, hrb, Tree.walk] using hres
      | true =>
        obtain ⟨inp', hb', ho', hres⟩ := ihr n (by omega) inp1 hok
        refine ⟨inp', hb'.trans hbytes, ho', ?_⟩
        rw [hr2, hbytes] at hres
        rw [Machine.decWalk.eq_def]; simpa [hi, Node.isLeaf, hl, hr, hrb, Tree.walk] using hres

/-- HSER's traversal appends the header of the tree (30_encoding.md R113, 43_header.md R212, R213). -/
theorem Holds.serialize {nodes : List Node} (hd : Downward nodes) {i : Nat} {T : Tree} (h : Holds nodes i T) (n : Nat)
    (hn : i ≤ n) (o : OutStream) (ho : o.nbits = 0) :
    Machine.serialize nodes n (some i) o = .ok () { o with bytes := o.bytes ++ T.header } := by
  induction h generalizing n o with
  | @leaf i nd hi hl hr =>
    unfold Machine.serialize
    simp [hi, Node.isLeaf, hl, hr, writeByte_aligned, ho, flushBitwise_of_aligned, Tree.header]
  | @node i l r nd L R hi hl hr _ _ ihl ihr =>
    have h1 := hd i nd l hi (.inl hl)
    have h2 := hd i nd r hi (.inr hr)
    obtain ⟨n, rfl⟩ : ∃ m, n = m + 1 := ⟨n - 1, by omega⟩
    rw [Machine.serialize.eq_def]
    simp only [hi, Node.isLeaf, hl, hr, Option.bind_some]
    simp only [writeByte_aligned markInternal ho, bind_ok]
    have e1 := ihl n (by omega) { o with bytes := o.bytes ++ [markInternal] } ho
    have e2 := ihr n (by omega) { o with bytes := o.bytes ++ [markInternal] ++ L.header } ho
    rw [if_neg (by simp), e1]
    simp only [bind_ok, e2, Tree.header]
    simp

end Sys2Proof.Machine
end

