-- ==== Sys2Proof/Laws/Build.lean ====
section
/-! SUPPORT. What BUILD leaves (40_build.md): a well-formed store that holds the tree of the construction over inductive
trees, with a leaf for exactly the symbols of positive frequency. -/

namespace Sys2Proof.Machine

theorem pqInsert_perm (e : Keyed) (q : List Keyed) : (pqInsert e q).Perm (e :: q) := by
  induction q with
  | nil => exact .refl _
  | cons x q ih =>
    unfold pqInsert
    split
    · exact .refl _
    · exact (ih.cons x).trans (.swap e x q)

theorem insertTree_perm (e : Tree) (q : List Tree) : (insertTree e q).Perm (e :: q) := by
  induction q with
  | nil => exact .refl _
  | cons x q ih =>
    unfold insertTree
    split
    · exact .refl _
    · exact (ih.cons x).trans (.swap e x q)

@[simp] theorem pqInsert_length (e : Keyed) (q : List Keyed) : (pqInsert e q).length = q.length + 1 := by
  simpa using (pqInsert_perm e q).length_eq

@[simp] theorem insertTree_length (e : Tree) (q : List Tree) : (insertTree e q).length = q.length + 1 := by
  simpa using (insertTree_perm e q).length_eq

/-- An entry of `PQ` stands for a tree: the node holds it and the key is its key. -/
def Stands (nodes : List Node) (e : Keyed) (T : Tree) : Prop :=
  Holds nodes e.node T ∧ e.weight = T.weight ∧ e.symbol = T.symbol

/-- `PQ` over the store and `PQ` over trees, entry by entry. -/
def Matches (nodes : List Node) (q : List Keyed) (ts : List Tree) : Prop := List.Forall₂ (Stands nodes) q ts

theorem Matches.mono {nodes nodes' : List Node} (hs : SameDown nodes nodes') {q : List Keyed} {ts : List Tree}
    (h : Matches nodes q ts) : Matches nodes' q ts :=
  List.Forall₂.imp (fun _ _ ⟨h1, h2⟩ => ⟨h1.mono hs, h2⟩) h

theorem before_eq {nodes : List Node} {e e' : Keyed} {T T' : Tree} (h : Stands nodes e T) (h' : Stands nodes e' T') :
    e.before e' = T.before T' := by
  simp [Keyed.before, Tree.before, h.2.1, h.2.2, h'.2.1, h'.2.2]

theorem Matches.insert {nodes : List Node} {q : List Keyed} {ts : List Tree} (h : Matches nodes q ts) {e : Keyed}
    {T : Tree} (he : Stands nodes e T) : Matches nodes (pqInsert e q) (insertTree T ts) := by
  unfold Matches at *
  induction h with
  | nil => exact .cons he .nil
  | @cons x X q ts hx hq ih =>
    unfold pqInsert insertTree
    rw [before_eq he hx]
    split
    · exact .cons he (.cons hx hq)
    · exact .cons hx ih

/-- The node of a new leaf. -/
def leafNode (freq : Vector Freq 256) (s : Byte) : Node :=
  { weight := freqWeight (readFreq freq s), symbol := s, left := none, right := none, parent := none }

/-- Step 1 of BUILD: a leaf for each listed symbol of positive frequency, in order (40_build.md R145, R159). -/
theorem buildLeaf_foldl (freq : Vector Freq 256) (l : List Byte) (hn : l.Nodup) (t : TreeStore) (q : List Keyed)
    (ts : List Tree) (hg : Growing t (q.map Keyed.node)) (hm : Matches t.nodes q ts)
    (hfresh : ∀ x ∈ l, t.leafOf x = none) :
    ∃ t' q', l.foldl (buildLeaf freq) (t, q) = (t', q') ∧ Growing t' (q'.map Keyed.node) ∧
      Matches t'.nodes q' ((l.filter fun s => readFreq freq s != 0#32).foldl
        (fun q s => insertTree (.leaf (freqWeight (readFreq freq s)) s) q) ts) ∧
      (∀ x, t'.present x = true ↔ t.present x = true ∨ (x ∈ l ∧ readFreq freq x ≠ 0#32)) ∧
      t'.nodes = t.nodes ++ (l.filter fun s => readFreq freq s != 0#32).map (leafNode freq) ∧
      q'.length = q.length + (l.filter fun s => readFreq freq s != 0#32).length := by
  induction l generalizing t q ts with
  | nil => exact ⟨t, q, rfl, hg, hm, by simp, by simp, by simp⟩
  | cons s l ih =>
    obtain ⟨hs, hn⟩ := List.nodup_cons.1 hn
    have hsl : t.leafOf s = none := hfresh s (by simp)
    by_cases hf : readFreq freq s = 0#32
    · have hstep : buildLeaf freq (t, q) s = (t, q) := by simp [buildLeaf, hf]
      obtain ⟨t', q', h1, h2, h3, h4, h5, h6⟩ := ih hn t q ts hg hm fun x hx => hfresh x (by simp [hx])
      refine ⟨t', q', by rw [List.foldl_cons, hstep, h1], h2, by simpa [hf] using h3, ?_, by simpa [hf] using h5,
        by simpa [hf] using h6⟩
      intro x
      rw [h4 x]
      by_cases hx : x = s
      · subst hx; simp [hf]
      · simp [hx]
    · generalize hw : freqWeight (readFreq freq s) = w
      have hstep : buildLeaf freq (t, q) s = ((t.addLeaf w s).2, pqInsert ⟨t.nnode, w, s⟩ q) := by
        simp [buildLeaf, hf, hw]
      have hlo : ∀ x, (t.addLeaf w s).2.leafOf x = if s = x then some t.nnode else t.leafOf x :=
        fun x => leafOf_setLeaf _ s x _
      have hg' : Growing (t.addLeaf w s).2 ((pqInsert ⟨t.nnode, w, s⟩ q).map Keyed.node) :=
        (hg.addLeaf w hsl).perm ((pqInsert_perm ⟨t.nnode, w, s⟩ q).map Keyed.node).symm
      have hm' : Matches (t.addLeaf w s).2.nodes (pqInsert ⟨t.nnode, w, s⟩ q) (insertTree (.leaf w s) ts) :=
        (hm.mono (addLeaf_sameDown t w s)).insert ⟨addLeaf_holds t w s, rfl, rfl⟩
      obtain ⟨t', q', h1, h2, h3, h4, h5, h6⟩ := ih hn _ _ _ hg' hm' fun x hx => by
        rw [hlo, if_neg (by rintro rfl; exact hs hx)]; exact hfresh x (by simp [hx])
      refine ⟨t', q', by rw [List.foldl_cons, hstep, h1], h2, by simpa [hf, hw] using h3, ?_, ?_, ?_⟩
      · intro x
        rw [h4 x]
        by_cases hx : s = x
        · subst hx; simp [TreeStore.present, hlo, hf]
        · simp [TreeStore.present, hlo, hx, Ne.symm hx]
      · rw [h5]
        simp [hf, leafNode, hw, TreeStore.addLeaf, TreeStore.newNode]
      · rw [h6]; simp [hf]; omega

/-- Step 2 of BUILD: with enough merges allowed at most one tree is left (40_build.md R148). -/
theorem mergeAll_spec (n : Nat) (t : TreeStore) (q : List Keyed) (ts : List Tree) (hn : q.length ≤ n + 1)
    (hg : Growing t (q.map Keyed.node)) (hm : Matches t.nodes q ts) :
    ∃ t' q', mergeAll n t q = (t', q') ∧ Growing t' (q'.map Keyed.node) ∧ Matches t'.nodes q' (mergeTrees n ts) ∧
      q'.length ≤ 1 ∧ t'.leaf = t.leaf ∧ (q = [] ↔ q' = []) := by
  induction n generalizing t q ts with
  | zero =>
    refine ⟨t, q, ?_, hg, ?_, by omega, rfl, Iff.rfl⟩
    · unfold mergeAll; rfl
    · unfold mergeTrees; exact hm
  | succ n ih =>
    match q, ts, hm with
    | [], _, .nil => exact ⟨t, [], by simp [mergeAll], hg, by simpa [mergeTrees] using .nil, by simp, rfl, Iff.rfl⟩
    | [a], _, .cons ha .nil =>
      exact ⟨t, [a], by simp [mergeAll], hg, by simpa [mergeTrees] using .cons ha .nil, by simp, rfl, by simp⟩
    | a :: b :: q, _, .cons (b := A) ha (.cons (b := B) hb hq) =>
      have hla : a.node < t.nnode := hg.forest.root_lt (by simp)
      have hlb : b.node < t.nnode := hg.forest.root_lt (by simp)
      have hsd := join_sameDown t a b hla hlb
      have he : Stands (t.join a b).2.nodes (t.join a b).1 (A.merge B) := by
        refine ⟨?_, ?_, ?_⟩
        · have := join_holds t a b hla hlb ha.1 hb.1
          simpa [Tree.merge, ha.2.1, ha.2.2, hb.2.1] using this
        · simp [Tree.merge, Tree.weight, ha.2.1, hb.2.1]
        · simp [Tree.merge, Tree.symbol, ha.2.2]
      have hm' := (Matches.mono hsd hq).insert he
      have hg' : Growing (t.join a b).2 ((pqInsert (t.join a b).1 q).map Keyed.node) :=
        (Growing.join (a := a) (b := b) hg).perm ((pqInsert_perm (t.join a b).1 q).map Keyed.node).symm
      obtain ⟨t', q', h1, h2, h3, h4, h5, h6⟩ := ih _ _ _ (by simp at hn ⊢; omega) hg' hm'
      refine ⟨t', q', by simpa [mergeAll] using h1, h2, by simpa [mergeTrees] using h3, h4, h5, ?_⟩
      have hne : pqInsert (t.join a b).1 q ≠ [] := fun h => by
        have := congrArg List.length h; simp at this
      have : q' ≠ [] := fun h => hne (h6.2 h)
      simp [this]

/-- BUILD's store, said once: it is well formed, it holds the tree of 40_build.md R145 to R150, and exactly the symbols
of positive frequency are present (10_state.md R33, R40). -/
theorem buildTree_spec (freq : Vector Freq 256) :
    (buildTree freq).Wf ∧ (buildTree freq).view = huffman freq ∧
      ∀ x, (buildTree freq).present x = true ↔ readFreq freq x ≠ 0#32 := by
  obtain ⟨t1, q1, h1, hg1, hm1, hp1, -, hl1⟩ := buildLeaf_foldl freq allSymbols allSymbols_nodup TreeStore.empty [] []
    growing_empty .nil (fun x _ => leafOf_empty x)
  have hlen : (leafTrees freq).length = q1.length := (List.Forall₂.length_eq hm1).symm
  obtain ⟨t2, q2, h2, hg2, hm2, hl2, hleaf, -⟩ := mergeAll_spec q1.length t1 q1 (leafTrees freq) (by omega) hg1 hm1
  have hb : buildTree freq = { t2 with root := q2.head?.map Keyed.node } := by
    simp only [buildTree, buildLeaves, h1, h2]
  have hq : (q2.head?.map Keyed.node).toList = q2.map Keyed.node := by
    match q2, hl2 with
    | [], _ => rfl
    | [e], _ => rfl
  have hwf : (buildTree freq).Wf := by
    rw [hb]; exact Growing.wf (by rw [hq]; exact hg2)
  refine ⟨hwf, ?_, ?_⟩
  · have hhuff : huffman freq = (mergeTrees q1.length (leafTrees freq)).head? := by rw [huffman, hlen]
    rw [hhuff]
    match q2, hl2, hm2, hb with
    | [], _, hm2, hb =>
      generalize mergeTrees q1.length (leafTrees freq) = ts at hm2
      cases hm2
      simp [hb, TreeStore.view]
    | [e], _, hm2, hb =>
      generalize mergeTrees q1.length (leafTrees freq) = ts at hm2
      cases hm2 with
      | cons he hnil =>
        cases hnil
        have hr : (buildTree freq).root = some e.node := by simp [hb]
        obtain ⟨T, hT, hH, -⟩ := hwf.view_some hr
        have hn : (buildTree freq).nodes = t2.nodes := by rw [hb]
        rw [hn] at hH
        rw [hT, hH.det he.1]; simp
  · intro x
    have : (buildTree freq).present x = t1.present x := by
      rw [hb]; simp [TreeStore.present, TreeStore.leafOf, hleaf]
    rw [this, hp1 x]
    simp [TreeStore.present, mem_allSymbols]

end Sys2Proof.Machine
end

