-- ==== Sys2Proof/Laws/Header.lean ====
section
/-! SUPPORT. Headers: they delimit themselves (30_encoding.md R114), and what HDES's descent does with the bytes it is
given (43_header.md R222, R225, R226). -/

namespace Sys2Proof.Machine

/-! ## Trees and their headers -/

theorem symbols_length (T : Tree) : T.symbols.length = T.leaves := by
  induction T with
  | leaf => rfl
  | node w s l r ihl ihr => simp [Tree.symbols, Tree.leaves, ihl, ihr]

theorem leaves_pos (T : Tree) : 1 ≤ T.leaves := by
  induction T with
  | leaf => simp [Tree.leaves]
  | node w s l r ihl ihr => simp [Tree.leaves]; omega

/-- A tree with `k` leaves has a header of 3k − 1 bytes (30_encoding.md R114). -/
theorem header_length (T : Tree) : T.header.length + 1 = 3 * T.leaves := by
  induction T with
  | leaf => rfl
  | node w s l r ihl ihr => simp [Tree.header, Tree.leaves]; omega

/-- A tree with `k` leaves has depth at most k − 1 (00_scope.md R12). -/
theorem height_lt_leaves (T : Tree) : T.height + 1 ≤ T.leaves := by
  induction T with
  | leaf => simp [Tree.height, Tree.leaves]
  | node w s l r ihl ihr =>
    have := leaves_pos l
    have := leaves_pos r
    simp [Tree.height, Tree.leaves]; omega

/-- Different symbols at all leaves leave room for 256 of them (43_header.md R226). -/
theorem leaves_le_of_nodup {T : Tree} (h : T.symbols.Nodup) : T.leaves ≤ 256 := by
  rw [← symbols_length]
  have := (List.subperm_of_subset h (fun x _ => mem_allSymbols x)).length_le
  simpa using this

theorem rebuilt_symbols (T : Tree) : T.rebuilt.symbols = T.symbols := by
  induction T with
  | leaf => rfl
  | node w s l r ihl ihr => simp [Tree.rebuilt, Tree.symbols, ihl, ihr]

theorem rebuilt_header (T : Tree) : T.rebuilt.header = T.header := by
  induction T with
  | leaf => rfl
  | node w s l r ihl ihr => simp [Tree.rebuilt, Tree.header, ihl, ihr]

theorem rebuilt_code (T : Tree) (s : Byte) : T.rebuilt.code s = T.code s := by
  induction T with
  | leaf => rfl
  | node w x l r ihl ihr => simp [Tree.rebuilt, Tree.code, ihl, ihr]

theorem rebuilt_rebuilt (T : Tree) : T.rebuilt.rebuilt = T.rebuilt := by
  induction T with
  | leaf => rfl
  | node w s l r ihl ihr => simp [Tree.rebuilt, ihl, ihr]

theorem sameShape_rebuilt (T : Tree) : T.sameShape T.rebuilt = true := by
  induction T with
  | leaf => simp [Tree.rebuilt, Tree.sameShape]
  | node w s l r ihl ihr => simp [Tree.rebuilt, Tree.sameShape, ihl, ihr]

theorem sameShape_iff_rebuilt (T U : Tree) : T.sameShape U = true ↔ T.rebuilt = U.rebuilt := by
  induction T generalizing U with
  | leaf w s => cases U <;> simp [Tree.sameShape, Tree.rebuilt]
  | node w s l r ihl ihr =>
    cases U with
    | leaf => simp [Tree.sameShape, Tree.rebuilt]
    | node w' s' l' r' =>
      simp only [Tree.sameShape, Bool.and_eq_true, ihl, ihr, Tree.rebuilt, Tree.node.injEq]
      constructor
      · rintro ⟨h1, h2⟩; simp [h1, h2]
      · rintro ⟨-, -, h1, h2⟩; exact ⟨h1, h2⟩

/-- A header says where it ends and what its tree looks like (30_encoding.md R114). -/
theorem header_prefix {T U : Tree} {as bs : List Byte} (h : T.header ++ as = U.header ++ bs) :
    T.rebuilt = U.rebuilt ∧ as = bs := by
  induction T generalizing U as bs with
  | leaf w s =>
    cases U with
    | leaf w' s' => simp [Tree.header, Tree.rebuilt] at h ⊢; exact h
    | node w' s' l' r' => simp [Tree.header, markLeaf, markInternal] at h
  | node w s l r ihl ihr =>
    cases U with
    | leaf w' s' => simp [Tree.header, markLeaf, markInternal] at h
    | node w' s' l' r' =>
      simp only [Tree.header, List.cons_append, List.append_assoc, List.cons.injEq, true_and] at h
      obtain ⟨h1, h2⟩ := ihl h
      obtain ⟨h3, h4⟩ := ihr h2
      exact ⟨by simp [Tree.rebuilt, h1, h3], h4⟩

/-! ## The descent of HDES -/

/-- What the descent keeps: the store is a forest with the given roots, the stream is aligned and in range. -/
structure LoaderOk (d : Loader) (roots : List Nat) : Prop where
  growing : Growing d.tree roots
  aligned : d.inp.bit = 0
  inOk    : InOk d.inp

/-- One due byte read inside HDES. -/
theorem Loader.needByte_cases {d : Loader} {rs : List Nat} (h : LoaderOk d rs) :
    (d.inp.restBytes = [] ∧ d.needByte = .raise .truncatedStream d) ∨
      ∃ v i, d.inp.restBytes = v :: i.restBytes ∧ i.pos = d.inp.pos + 1 ∧ i.bytes = d.inp.bytes ∧
        d.needByte = .ok v { d with inp := i } ∧ LoaderOk { d with inp := i } rs := by
  rcases Machine.needByte_cases d.inp with ⟨ha, -⟩ | ⟨-, hr, hn⟩ | ⟨v, vs, ha, hr, hp, hn, hr'⟩
  · exact absurd h.aligned ha
  · exact .inl ⟨hr, by simp [Loader.needByte, hn]⟩
  · refine .inr ⟨v, { d.inp with pos := d.inp.pos + 1 }, by rw [hr, hr'], rfl, rfl, by simp [Loader.needByte, hn], ?_⟩
    refine ⟨h.growing, h.aligned, ?_⟩
    have h1 := h.inOk.1
    exact ⟨by simp; omega, fun _ => h.aligned⟩

/-- The descent returned: a tree whose header it consumed is one more root, its symbols are now present. -/
structure DesOk (d d' : Loader) (rs : List Nat) (e : Keyed) (T : Tree) : Prop where
  loader  : LoaderOk d' (e.node :: rs)
  down    : SameDown d.tree.nodes d'.tree.nodes
  stands  : Stands d'.tree.nodes e T
  rebuilt : T.rebuilt = T
  bytes   : d'.inp.bytes = d.inp.bytes
  rest    : d.inp.restBytes = T.header ++ d'.inp.restBytes
  pos     : d'.inp.pos = d.inp.pos + T.header.length
  present : ∀ x, d'.tree.present x = true ↔ d.tree.present x = true ∨ x ∈ T.symbols

/-- The descent raised a fault: what it leaves is still a forest (43_header.md R227). -/
structure DesRaise (d d' : Loader) (k : FaultKind) : Prop where
  kind    : k = .truncatedStream ∨ k = .badFormat
  loader  : ∃ rs, LoaderOk d' rs
  bytes   : d'.inp.bytes = d.inp.bytes

/-- The leaf branch of the descent. -/
theorem desLeaf_cases {d0 d : Loader} {rs : List Nat} (h : LoaderOk d rs) (h0 : d0.tree = d.tree)
    (hr0 : d0.inp.restBytes = markLeaf :: d.inp.restBytes) (hp0 : d.inp.pos = d0.inp.pos + 1)
    (hb0 : d.inp.bytes = d0.inp.bytes) :
    (∃ e d' T, desLeaf d = .ok e d' ∧ DesOk d0 d' rs e T) ∨ ∃ k d', desLeaf d = .raise k d' ∧ DesRaise d0 d' k := by
  rcases Loader.needByte_cases h with ⟨hr, hn⟩ | ⟨v, i, hr, hp, hb, hn, hl⟩
  · exact .inr ⟨.truncatedStream, d, by simp [desLeaf, hn], .inl rfl, ⟨rs, h⟩, hb0⟩
  · by_cases hv : d.tree.leafOf v = none
    · left
      refine ⟨⟨d.tree.nnode, 1#40, v⟩, ⟨i, (d.tree.addLeaf 1#40 v).2⟩, .leaf 1#40 v, by simp [desLeaf, hn, hv], ?_⟩
      refine ⟨⟨hl.growing.addLeaf 1#40 hv, hl.aligned, hl.inOk⟩, ?_, ⟨addLeaf_holds _ _ _, rfl, rfl⟩, rfl, hb.trans hb0,
        ?_, ?_, ?_⟩
      · rw [h0]; exact addLeaf_sameDown _ _ _
      · rw [hr0, hr]; rfl
      · simp [Tree.header, hp, hp0]
      · intro x
        have hlo : (d.tree.addLeaf 1#40 v).2.leafOf x = if v = x then some d.tree.nnode else d.tree.leafOf x :=
          leafOf_setLeaf _ v x _
        by_cases hx : v = x
        · subst hx; simp [TreeStore.present, hlo, Tree.symbols]
        · simp [TreeStore.present, hlo, hx, Tree.symbols, h0, Ne.symm hx]
    · obtain ⟨j, hj⟩ := Option.ne_none_iff_exists'.1 hv
      exact .inr ⟨.badFormat, _, by simp [desLeaf, hn, hj], .inr rfl, ⟨rs, hl⟩, hb.trans hb0⟩

/-- Everything the descent can do (43_header.md R222, R225). -/
theorem des_cases (room : Nat) {d : Loader} {rs : List Nat} (h : LoaderOk d rs) :
    (∃ e d' T, des room d = .ok e d' ∧ DesOk d d' rs e T) ∨ ∃ k d', des room d = .raise k d' ∧ DesRaise d d' k := by
  induction room generalizing d rs with
  | zero =>
    rcases Loader.needByte_cases h with ⟨hr, hn⟩ | ⟨m, i, hr, hp, hb, hn, hl⟩
    · exact .inr ⟨.truncatedStream, d, by rw [des.eq_def]; simp [hn], .inl rfl, ⟨rs, h⟩, rfl⟩
    · by_cases hm : m = markLeaf
      · have hd : des 0 d = desLeaf { d with inp := i } := by rw [des.eq_def]; simp [hn, hm]
        rw [hd]; subst hm
        exact desLeaf_cases hl rfl hr hp hb
      · exact .inr ⟨.badFormat, _, by rw [des.eq_def]; simp [hn, hm], .inr rfl, ⟨rs, hl⟩, hb⟩
  | succ room ih =>
    rcases Loader.needByte_cases h with ⟨hr, hn⟩ | ⟨m, i, hr, hp, hb, hn, hl⟩
    · exact .inr ⟨.truncatedStream, d, by rw [des.eq_def]; simp [hn], .inl rfl, ⟨rs, h⟩, rfl⟩
    · by_cases hm : m = markLeaf
      · have hd : des (room + 1) d = desLeaf { d with inp := i } := by rw [des.eq_def]; simp [hn, hm]
        rw [hd]; subst hm
        exact desLeaf_cases hl rfl hr hp hb
      · by_cases hi : m = markInternal
        · have hd : des (room + 1) d = (des room { d with inp := i }).bind fun l d =>
              (des room d).bind fun r d => .ok (d.tree.join l r).1 { d with tree := (d.tree.join l r).2 } := by
            rw [des.eq_def]; simp [hn, hi, markLeaf, markInternal]
          subst hi
          rcases ih hl with ⟨l, d1, L, h1, o1⟩ | ⟨k, d1, h1, o1⟩
          · rcases ih o1.loader with ⟨r, d2, R, h2, o2⟩ | ⟨k, d2, h2, o2⟩
            · left
              have hg : Growing d2.tree (l.node :: r.node :: rs) := o2.loader.growing.perm (.swap _ _ _)
              have hll : l.node < d2.tree.nnode := hg.forest.root_lt (by simp)
              have hrl : r.node < d2.tree.nnode := hg.forest.root_lt (by simp)
              have hsl : Stands d2.tree.nodes l L := ⟨o1.stands.1.mono o2.down, o1.stands.2⟩
              have hsr := o2.stands
              have hsd := join_sameDown d2.tree l r hll hrl
              refine ⟨_, _, .node (l.weight + r.weight) l.symbol L R, by rw [hd, h1, bind_ok, h2, bind_ok], ?_⟩
              refine ⟨⟨hg.join, o2.loader.aligned, o2.loader.inOk⟩, ?_, ?_, ?_, ?_, ?_, ?_, ?_⟩
              · exact (o1.down.trans o2.down).trans hsd
              · exact ⟨join_holds _ _ _ hll hrl hsl.1 hsr.1, rfl, rfl⟩
              · simp [Tree.rebuilt, o1.rebuilt, o2.rebuilt, hsl.2.1, hsl.2.2, hsr.2.1]
              · exact o2.bytes.trans (o1.bytes.trans hb)
              · have e1 := o1.rest
                have e2 := o2.rest
                simp only at e1 e2
                rw [hr, e1, e2]; simp [Tree.header]
              · have e1 := o1.pos
                have e2 := o2.pos
                simp only at e1 e2
                rw [e2, e1, hp]; simp [Tree.header]; omega
              · intro x
                have : (d2.tree.join l r).2.present x = d2.tree.present x := rfl
                simp only [this, o2.present x, o1.present x, Tree.symbols, List.mem_append, or_assoc]
            · exact .inr ⟨k, d2, by rw [hd, h1, bind_ok, h2, bind_raise], o2.kind, o2.loader,
                o2.bytes.trans (o1.bytes.trans hb)⟩
          · exact .inr ⟨k, d1, by rw [hd, h1, bind_raise], o1.kind, o1.loader, o1.bytes.trans hb⟩
        · exact .inr ⟨.badFormat, _, by rw [des.eq_def]; simp [hn, hm, hi], .inr rfl, ⟨rs, hl⟩, hb⟩

/-- The descent accepts every header that fits: symbols all different and not present yet, depth within the room
(43_header.md R226, R229). -/
theorem des_header (T : Tree) {room : Nat} {d : Loader} {rs : List Nat} {rest : List Byte} (h : LoaderOk d rs)
    (hr : d.inp.restBytes = T.header ++ rest) (hn : T.symbols.Nodup) (hf : ∀ x ∈ T.symbols, d.tree.leafOf x = none)
    (hh : T.height ≤ room) : ∃ e d', des room d = .ok e d' ∧ DesOk d d' rs e T.rebuilt ∧ d'.inp.restBytes = rest := by
  -- it cannot raise, and if it returns it has consumed this header
  suffices hs : ∃ e d', des room d = .ok e d' by
    obtain ⟨e, d', he⟩ := hs
    rcases des_cases room h with ⟨e1, d1, T1, h1, o1⟩ | ⟨k, d1, h1, -⟩
    · rw [he] at h1; cases h1
      have := o1.rest
      rw [hr] at this
      obtain ⟨h2, h3⟩ := header_prefix this
      rw [o1.rebuilt] at h2
      exact ⟨e, d', he, h2 ▸ o1, h3.symm⟩
    · rw [he] at h1; simp at h1
  induction T generalizing room d rs rest with
  | leaf w s =>
    rcases Loader.needByte_cases h with ⟨hr', -⟩ | ⟨m, i, hr', hp, hb, hnb, hl⟩
    · rw [hr] at hr'; simp [Tree.header] at hr'
    · rw [hr] at hr'
      simp only [Tree.header, List.cons_append, List.nil_append, List.cons.injEq] at hr'
      obtain ⟨rfl, hr'⟩ := hr'
      rcases Loader.needByte_cases hl with ⟨hr2, -⟩ | ⟨v, i2, hr2, -, -, hnb2, -⟩
      · simp only at hr2; rw [← hr'] at hr2; simp at hr2
      · simp only at hr2
        rw [← hr'] at hr2
        simp only [List.cons.injEq] at hr2
        obtain ⟨rfl, -⟩ := hr2
        have hv := hf s (by simp [Tree.symbols])
        have hd : des room d = desLeaf { d with inp := i } := by rw [des.eq_def]; simp [hnb]
        exact ⟨_, _, by rw [hd, desLeaf, hnb2]; simp only [bind_ok, hv]; rfl⟩
  | node w s l r ihl ihr =>
    obtain ⟨hnl, hnr, hdis⟩ := List.nodup_append.1 hn
    have hnr' := hnr
    simp only [Tree.height] at hh
    obtain ⟨room, rfl⟩ : ∃ m, room = m + 1 := ⟨room - 1, by omega⟩
    rcases Loader.needByte_cases h with ⟨hr', -⟩ | ⟨m, i, hr', hp, hb, hnb, hl⟩
    · rw [hr] at hr'; simp [Tree.header] at hr'
    · rw [hr] at hr'
      simp only [Tree.header, List.cons_append, List.append_assoc, List.cons.injEq] at hr'
      obtain ⟨rfl, hr'⟩ := hr'
      have hd : des (room + 1) d = (des room { d with inp := i }).bind fun l d =>
          (des room d).bind fun r d => .ok (d.tree.join l r).1 { d with tree := (d.tree.join l r).2 } := by
        rw [des.eq_def]; simp [hnb, markLeaf, markInternal]
      have hfl : ∀ x ∈ l.symbols, d.tree.leafOf x = none := fun x hx => hf x (by simp [Tree.symbols, hx])
      obtain ⟨e1, d1, h1⟩ := ihl (room := room) hl (rest := r.header ++ rest) hr'.symm hnl hfl (by omega)
      rcases des_cases room hl with ⟨e1', d1', T1, h1', o1⟩ | ⟨k, d1', h1', -⟩
      · rw [h1] at h1'; cases h1'
        have e := o1.rest
        simp only at e
        rw [← hr'] at e
        obtain ⟨h2, h3⟩ := header_prefix e
        have hfr : ∀ x ∈ r.symbols, d1.tree.leafOf x = none := by
          intro x hx
          have hnp : ¬ d1.tree.present x = true := by
            rw [o1.present x]
            rintro (hp | hp)
            · have := hf x (by simp [Tree.symbols, hx]); simp [TreeStore.present, this] at hp
            · rw [← o1.rebuilt, ← h2, rebuilt_symbols] at hp
              exact hdis x hp x hx rfl
          simpa [TreeStore.present] using hnp
        obtain ⟨e2, d2, h4⟩ := ihr (room := room) o1.loader (rest := rest) h3.symm hnr hfr (by omega)
        exact ⟨_, _, by rw [hd, h1, bind_ok, h4, bind_ok]⟩
      · rw [h1] at h1'; simp at h1'

end Sys2Proof.Machine
end

