-- ==== Sys2Proof/Laws/Codes.lean ====
section
/-! SUPPORT. Codes, walks and payloads over the inductive tree (41_encode.md R178, 42_decode.md R196), and packing
(30_encoding.md R124). -/

namespace Sys2Proof.Machine

/-- The walk undoes the code (42_decode.md R196). -/
theorem walk_code {T : Tree} {s : Byte} {bs : List Bit} (h : T.code s = some bs) (rest : List Bit) :
    T.walk (bs ++ rest) = some (s, rest) := by
  induction T generalizing bs with
  | leaf w x =>
    simp only [Tree.code] at h
    split at h
    · simp at h; subst h; simp [Tree.walk, *]
    · simp at h
  | node w x l r ihl ihr =>
    simp only [Tree.code] at h
    split at h
    · rename_i bs' hl
      simp at h; subst h
      simpa [Tree.walk] using ihl hl
    · obtain ⟨bs', hr, rfl⟩ := Option.map_eq_some_iff.1 h
      simpa [Tree.walk] using ihr hr

/-- A walk that ends has followed the code of the symbol it returns (42_decode.md R192). -/
theorem walk_some {T : Tree} (hn : T.symbols.Nodup) {bs rest : List Bit} {s : Byte}
    (h : T.walk bs = some (s, rest)) : ∃ c, T.code s = some c ∧ bs = c ++ rest := by
  induction T generalizing bs with
  | leaf w x =>
    simp [Tree.walk] at h
    obtain ⟨rfl, rfl⟩ := h
    exact ⟨[], by simp [Tree.code], rfl⟩
  | node w x l r ihl ihr =>
    obtain ⟨hl, hr, hd⟩ := List.nodup_append.1 hn
    match bs with
    | [] => simp [Tree.walk] at h
    | false :: bs =>
      obtain ⟨c, h1, rfl⟩ := ihl hl (by simpa [Tree.walk] using h)
      exact ⟨false :: c, by simp [Tree.code, h1], rfl⟩
    | true :: bs =>
      obtain ⟨c, h1, rfl⟩ := ihr hr (by simpa [Tree.walk] using h)
      have hs : s ∈ r.symbols := (code_isSome r s).1 (by simp [h1])
      have hnl : l.code s = none := by
        by_contra hne
        have := (code_isSome l s).1 (Option.isSome_iff_ne_none.2 hne)
        exact hd s this s hs rfl
      exact ⟨true :: c, by simp [Tree.code, hnl, h1], rfl⟩

theorem code_length_le {T : Tree} {s : Byte} {bs : List Bit} (h : T.code s = some bs) : bs.length ≤ T.height := by
  induction T generalizing bs with
  | leaf w x =>
    simp only [Tree.code] at h
    split at h
    · simp at h; subst h; simp
    · simp at h
  | node w x l r ihl ihr =>
    simp only [Tree.code] at h
    split at h
    · rename_i bs' hl
      simp at h; subst h
      have := ihl hl
      simp [Tree.height]; omega
    · obtain ⟨bs', hr, rfl⟩ := Option.map_eq_some_iff.1 h
      have := ihr hr
      simp [Tree.height]; omega

/-- Trees of one shape have the same codes (43_header.md R229). -/
theorem sameShape_code {T U : Tree} (h : T.sameShape U = true) (s : Byte) : T.code s = U.code s := by
  rw [← rebuilt_code T, ← rebuilt_code U, (sameShape_iff_rebuilt T U).1 h]

theorem rebuilt_walk (T : Tree) (bs : List Bit) : T.rebuilt.walk bs = T.walk bs := by
  induction T generalizing bs with
  | leaf => rfl
  | node w x l r ihl ihr => cases bs <;> simp [Tree.rebuilt, Tree.walk, ihl, ihr]

/-- Trees of one shape are walked alike (42_decode.md R199). -/
theorem sameShape_walk {T U : Tree} (h : T.sameShape U = true) (bs : List Bit) : T.walk bs = U.walk bs := by
  rw [← rebuilt_walk T, ← rebuilt_walk U, (sameShape_iff_rebuilt T U).1 h]

/-! ## Packing -/

/-- Complete bytes in front do not change what is written behind them. -/
theorem writeBits_bytes (bs : List Bit) (front : List Byte) (o : OutStream) :
    writeBits bs { o with bytes := front ++ o.bytes } =
      { writeBits bs o with bytes := front ++ (writeBits bs o).bytes } := by
  induction bs generalizing o with
  | nil => rfl
  | cons b bs ih =>
    have : writeBit b { o with bytes := front ++ o.bytes } =
        { writeBit b o with bytes := front ++ (writeBit b o).bytes } := by
      unfold writeBit; split <;> simp_all
    rw [writeBits_cons, this, ih, writeBits_cons]

theorem flushBitwise_bytes (front : List Byte) (o : OutStream) :
    flushBitwise { o with bytes := front ++ o.bytes } =
      { flushBitwise o with bytes := front ++ (flushBitwise o).bytes } := by
  unfold flushBitwise; split <;> simp_all

/-- The packed bytes hold the bits and then fewer than eight zero bits (30_encoding.md R124, R125). -/
theorem packBits_bits (bs : List Bit) : ∃ pad, pad < 8 ∧ bytesBits (packBits bs) = bs ++ List.replicate pad false := by
  refine ⟨(8 - (writeBits bs OutStream.reset).nbits.val) % 8, Nat.mod_lt _ (by omega), ?_⟩
  have h := flushBitwise_bits (writeBits bs OutStream.reset)
  rw [bits_of_aligned (flushBitwise_aligned _), writeBits_bits] at h
  have h0 : OutStream.reset.bits = [] := by simp [OutStream.bits, OutStream.partialBits, OutStream.reset]
  rw [packBits, h, h0]; rfl

end Sys2Proof.Machine
end

