-- ==== Sys2Proof/Laws/Effects.lean ====
section
/-! SUPPORT. What each command can do, said once: if it answers a next state from a block that is not faulted, that
state is one of these (60_exceptions.md R300, R301). -/

namespace Sys2Proof.Machine

/-! ## The walks touch nothing but their stream -/

theorem decWalk_frame (nodes : List Node) (n : Nat) (cur : NodeRef) (i : InStream) :
    (∃ f, decWalk nodes n cur i = .stuck f) ∨
      ∃ i' : InStream, i'.bytes = i.bytes ∧
        ((∃ v, decWalk nodes n cur i = .ok v i') ∨ decWalk nodes n cur i = .raise .truncatedStream i') := by
  induction n generalizing cur i with
  | zero =>
    unfold decWalk
    split
    · exact .inl ⟨_, rfl⟩
    · split
      · exact .inr ⟨i, rfl, .inl ⟨_, rfl⟩⟩
      · exact .inl ⟨_, rfl⟩
  | succ n ih =>
    unfold decWalk
    split
    · exact .inl ⟨_, rfl⟩
    · split
      · exact .inr ⟨i, rfl, .inl ⟨_, rfl⟩⟩
      · have hb := readBit_bytes i
        rcases hr : readBit i with ⟨_ | b, j⟩
        · rw [hr] at hb; exact .inr ⟨j, hb, .inr rfl⟩
        · rw [hr] at hb
          have hb' : j.bytes = i.bytes := hb
          cases b
          · rw [← hb']; exact ih _ j
          · rw [← hb']; exact ih _ j

theorem serialize_frame (nodes : List Node) (n : Nat) (cur : NodeRef) (o : OutStream) (ho : o.nbits = 0) :
    (∃ f, serialize nodes n cur o = .stuck f) ∨
      ∃ bs, serialize nodes n cur o = .ok () { o with bytes := o.bytes ++ bs } := by
  induction n generalizing cur o with
  | zero =>
    unfold serialize
    split
    · exact .inl ⟨_, rfl⟩
    · split
      · rw [writeByte_aligned _ ho, bind_ok, flushBitwise_of_aligned (by simpa using ho), writeByte_aligned _ (by simpa using ho)]
        exact .inr ⟨_, congrArg (fun b => Run.ok () { o with bytes := b }) (List.append_assoc ..)⟩
      · exact .inl ⟨_, rfl⟩
  | succ n ih =>
    unfold serialize
    split
    · exact .inl ⟨_, rfl⟩
    · rename_i nd _
      split
      · rw [writeByte_aligned _ ho, bind_ok, flushBitwise_of_aligned (by simpa using ho), writeByte_aligned _ (by simpa using ho)]
        exact .inr ⟨_, congrArg (fun b => Run.ok () { o with bytes := b }) (List.append_assoc ..)⟩
      · dsimp only
        rw [writeByte_aligned _ ho, bind_ok]
        rcases ih nd.left { o with bytes := o.bytes ++ [markInternal] } ho with ⟨f, h⟩ | ⟨bs, h⟩
        · rw [h]; exact .inl ⟨f, rfl⟩
        · rw [h, bind_ok]
          rcases ih nd.right { o with bytes := (o.bytes ++ [markInternal]) ++ bs } ho with ⟨f, h'⟩ | ⟨bs', h'⟩
          · exact .inl ⟨f, h'⟩
          · exact .inr ⟨[markInternal] ++ bs ++ bs', by rw [h']; simp only [List.append_assoc]⟩

/-- A read of a due byte on an aligned stream. -/
theorem Loader.needByte_frame (d : Loader) (h : d.inp.bit = 0) :
    d.needByte = .raise .truncatedStream d ∨
      ∃ v p, d.needByte = .ok v { d with inp := { d.inp with pos := p } } := by
  rcases Machine.needByte_cases d.inp with ⟨hb, -⟩ | ⟨-, -, hn⟩ | ⟨v, vs, -, -, -, hn, -⟩
  · exact absurd h hb
  · exact .inl (by simp [Loader.needByte, hn])
  · exact .inr ⟨v, d.inp.pos + 1, by simp only [Loader.needByte, hn, within_ok]⟩

/-- The descent of HDES moves the position of its stream and grows its tree; it never sets the root. -/
theorem des_frame (room : Nat) (d : Loader) (h : d.inp.bit = 0) :
    ∃ d' : Loader, d'.inp = { d.inp with pos := d'.inp.pos } ∧ d'.tree.root = d.tree.root ∧
      ((∃ e, des room d = .ok e d') ∨ des room d = .raise .truncatedStream d' ∨ des room d = .raise .badFormat d') := by
  have leaf : ∀ d : Loader, d.inp.bit = 0 → ∃ d' : Loader, d'.inp = { d.inp with pos := d'.inp.pos } ∧
      d'.tree.root = d.tree.root ∧
      ((∃ e, desLeaf d = .ok e d') ∨ desLeaf d = .raise .truncatedStream d' ∨ desLeaf d = .raise .badFormat d') := by
    intro d h
    unfold desLeaf
    rcases d.needByte_frame h with hn | ⟨v, p, hn⟩
    · exact ⟨d, rfl, rfl, .inr (.inl (by rw [hn]; rfl))⟩
    · rw [hn, bind_ok]
      cases hl : ({ d with inp := { d.inp with pos := p } } : Loader).tree.leafOf v with
      | some i => exact ⟨{ d with inp := { d.inp with pos := p } }, rfl, rfl, .inr (.inr rfl)⟩
      | none =>
        exact ⟨{ inp := { d.inp with pos := p }, tree := (d.tree.addLeaf 1#40 v).2 }, rfl, addLeaf_root _ _ _,
          .inl ⟨_, rfl⟩⟩
  induction room generalizing d with
  | zero =>
    unfold des
    rcases d.needByte_frame h with hn | ⟨v, p, hn⟩
    · exact ⟨d, rfl, rfl, .inr (.inl (by rw [hn]; rfl))⟩
    · rw [hn, bind_ok]
      split
      · obtain ⟨d', h1, h2, h3⟩ := leaf { d with inp := { d.inp with pos := p } } h
        exact ⟨d', h1, h2, h3⟩
      · split
        · exact ⟨{ d with inp := { d.inp with pos := p } }, rfl, rfl, .inr (.inr rfl)⟩
        · exact ⟨{ d with inp := { d.inp with pos := p } }, rfl, rfl, .inr (.inr rfl)⟩
  | succ room ih =>
    unfold des
    rcases d.needByte_frame h with hn | ⟨v, p, hn⟩
    · exact ⟨d, rfl, rfl, .inr (.inl (by rw [hn]; rfl))⟩
    · rw [hn, bind_ok]
      split
      · obtain ⟨d', h1, h2, h3⟩ := leaf { d with inp := { d.inp with pos := p } } h
        exact ⟨d', h1, h2, h3⟩
      · split
        · obtain ⟨d1, i1, r1, o1⟩ := ih { d with inp := { d.inp with pos := p } } h
          rcases o1 with ⟨l, o1⟩ | o1 | o1
          · have h1 : d1.inp.bit = 0 := by rw [i1]; exact h
            obtain ⟨d2, i2, r2, o2⟩ := ih d1 h1
            have hi : d2.inp = { d.inp with pos := d2.inp.pos } := by rw [i2, i1]
            have hr : d2.tree.root = d.tree.root := r2.trans r1
            simp only [o1, bind_ok]
            rcases o2 with ⟨r, o2⟩ | o2 | o2
            · exact ⟨{ d2 with tree := (d2.tree.join l r).2 }, hi, (join_root _ _ _).trans hr, .inl ⟨_, by rw [o2]; rfl⟩⟩
            · exact ⟨d2, hi, hr, .inr (.inl (by rw [o2]; rfl))⟩
            · exact ⟨d2, hi, hr, .inr (.inr (by rw [o2]; rfl))⟩
          · exact ⟨d1, i1, r1, .inr (.inl (by simp only [o1, bind_raise]))⟩
          · exact ⟨d1, i1, r1, .inr (.inr (by simp only [o1, bind_raise]))⟩
        · exact ⟨{ d with inp := { d.inp with pos := p } }, rfl, rfl, .inr (.inr rfl)⟩

/-- Reading the count moves the position of an aligned stream, at most by four. -/
theorem readCount_frame (order : ByteOrder) (i : InStream) (h : i.bit = 0) :
    (∃ p, i.restBytes.length < 4 ∧ readCount order i = .raise .truncatedStream { i with pos := p } ∧
        (i.pos ≤ i.bytes.length → p = i.bytes.length)) ∨
      ∃ b0 b1 b2 b3 rest, i.restBytes = b0 :: b1 :: b2 :: b3 :: rest ∧
        ({ i with pos := i.pos + 4 } : InStream).restBytes = rest ∧ i.pos + 4 ≤ i.bytes.length ∧
        readCount order i = .ok (countValue order b0 b1 b2 b3) { i with pos := i.pos + 4 } := by
  have hlen : i.restBytes.length = i.bytes.length - i.pos := by simp [InStream.restBytes]
  have nil : ∀ p, ({ i with pos := p } : InStream).restBytes = [] →
      needByte { i with pos := p } = .raise .truncatedStream { i with pos := p } := fun p hp => needByte_nil h hp
  have cons : ∀ p v vs, ({ i with pos := p } : InStream).restBytes = v :: vs →
      needByte { i with pos := p } = .ok v { i with pos := p + 1 } ∧
        ({ i with pos := p + 1 } : InStream).restBytes = vs ∧ p < i.bytes.length := fun p v vs hp => needByte_cons h hp
  have hend : ∀ p, ({ i with pos := p } : InStream).restBytes = [] → i.bytes.length ≤ p := by
    intro p hp; simpa [InStream.restBytes] using hp
  unfold readCount
  rcases e0 : i.restBytes with _ | ⟨b0, r0⟩
  · refine .inl ⟨i.pos, by simp, by rw [nil i.pos e0]; rfl, fun hp => ?_⟩
    have := hend i.pos e0; omega
  · obtain ⟨n0, e1, l0⟩ := cons i.pos b0 r0 e0
    rw [show needByte i = needByte { i with pos := i.pos } from rfl, n0, bind_ok]
    rcases r0 with _ | ⟨b1, r1⟩
    · refine .inl ⟨i.pos + 1, by simp, by rw [nil _ e1]; rfl, fun hp => ?_⟩
      have := hend _ e1; omega
    · obtain ⟨n1, e2, l1⟩ := cons _ b1 r1 e1
      rw [n1, bind_ok]
      rcases r1 with _ | ⟨b2, r2⟩
      · refine .inl ⟨i.pos + 1 + 1, by simp, by rw [nil _ e2]; rfl, fun hp => ?_⟩
        have := hend _ e2; omega
      · obtain ⟨n2, e3, l2⟩ := cons _ b2 r2 e2
        rw [n2, bind_ok]
        rcases r2 with _ | ⟨b3, r3⟩
        · refine .inl ⟨i.pos + 1 + 1 + 1, by simp, by rw [nil _ e3]; rfl, fun hp => ?_⟩
          have := hend _ e3; omega
        · obtain ⟨n3, e4, l3⟩ := cons _ b3 r3 e3
          exact .inr ⟨b0, b1, b2, b3, r3, rfl, e4, by omega, by rw [n3, bind_ok]⟩

/-! ## The commands -/

/-- The pseudocode of each command. -/
def body : Instr → State → Run State Unit
  | .fclr => fun s => .ok () { s with freq := clearFreq }
  | .fset x v => fun s => .ok () { s with freq := writeFreq s.freq x v }
  | .build => fun s => .ok () { s with tree := buildTree s.freq }
  | .tclr => fun s => .ok () { s with tree := TreeStore.empty }
  | .enc x => encBody x
  | .dec => decBody
  | .hser => hserBody
  | .hdes => hdesBody
  | .wcnt v => wcntBody v
  | .rcnt => rcntBody
  | .flush => fun s => .ok () { s with out := flushBitwise s.out }

/-- Every command is its pseudocode run under the rules for faults (60_exceptions.md R300, R302). -/
theorem exec_eq_command (i : Instr) (s : State) : exec i s = command (body i) s := by cases i <;> rfl


/-- What a command can leave, from a block `s` that is not faulted: one constructor for each way it can end. -/
inductive Effect (s : State) : Instr → State → Prop where
  | fclr : Effect s .fclr { s with freq := clearFreq, cp := s.cp + 1 }
  | fset (x : Byte) (v : Freq) : Effect s (.fset x v) { s with freq := writeFreq s.freq x v, cp := s.cp + 1 }
  | build : Effect s .build { s with tree := buildTree s.freq, cp := s.cp + 1 }
  | tclr : Effect s .tclr { s with tree := TreeStore.empty, cp := s.cp + 1 }
  | encEmpty (x : Byte) : s.tree.root = none → Effect s (.enc x) { s with err := 3#3 }
  | encInvalid (x : Byte) : s.tree.root ≠ none → s.tree.leafOf x = none → Effect s (.enc x) { s with err := 1#3 }
  | encOk (x : Byte) (bs : List Bit) : s.tree.root ≠ none → s.tree.leafOf x ≠ none →
      Effect s (.enc x) { s with out := writeBits bs s.out, cp := s.cp + 1 }
  | decEmpty : s.tree.root = none → Effect s .dec { s with err := 3#3 }
  | decOk (i : InStream) (v : Byte) : s.tree.root ≠ none → i.bytes = s.inp.bytes →
      Effect s .dec { s with inp := i, sym := v, dout := s.dout ++ [v], cp := s.cp + 1 }
  | decTruncated (i : InStream) : s.tree.root ≠ none → i.bytes = s.inp.bytes →
      Effect s .dec { s with inp := i, err := 2#3 }
  | hserEmpty : s.tree.root = none → Effect s .hser { s with err := 3#3 }
  | hserMisaligned : s.tree.root ≠ none → s.out.nbits ≠ 0 → Effect s .hser { s with err := 6#3 }
  | hserOk (bs : List Byte) : s.tree.root ≠ none → s.out.nbits = 0 →
      Effect s .hser { s with out := { s.out with bytes := s.out.bytes ++ bs }, cp := s.cp + 1 }
  | hdesMisaligned : s.inp.bit ≠ 0 → Effect s .hdes { s with err := 6#3 }
  | hdesOk (p : Nat) (u : TreeStore) : s.inp.bit = 0 → u.root ≠ none →
      Effect s .hdes { s with inp := { s.inp with pos := p }, tree := u, cp := s.cp + 1 }
  | hdesTruncated (p : Nat) (u : TreeStore) : s.inp.bit = 0 → u.root = none →
      Effect s .hdes { s with inp := { s.inp with pos := p }, tree := u, err := 2#3 }
  | hdesBad (p : Nat) (u : TreeStore) : s.inp.bit = 0 → u.root = none →
      Effect s .hdes { s with inp := { s.inp with pos := p }, tree := u, err := 5#3 }
  | wcntIllegal (v : Count) : s.params.countMax < v → Effect s (.wcnt v) { s with err := 4#3 }
  | wcntMisaligned (v : Count) : v ≤ s.params.countMax → s.out.nbits ≠ 0 → Effect s (.wcnt v) { s with err := 6#3 }
  | wcntOk (v : Count) : v ≤ s.params.countMax → s.out.nbits = 0 → Effect s (.wcnt v)
      { s with out := { s.out with bytes := s.out.bytes ++ countBytes s.params.countByteOrder v }, cp := s.cp + 1 }
  | rcntMisaligned : s.inp.bit ≠ 0 → Effect s .rcnt { s with err := 6#3 }
  | rcntTruncated (p : Nat) : s.inp.bit = 0 → s.inp.restBytes.length < 4 →
      (s.inp.pos ≤ s.inp.bytes.length → p = s.inp.bytes.length) →
      Effect s .rcnt { s with inp := { s.inp with pos := p }, err := 2#3 }
  | rcntBad (b0 b1 b2 b3 : Byte) : s.inp.bit = 0 → s.inp.pos + 4 ≤ s.inp.bytes.length →
      s.inp.restBytes = b0 :: b1 :: b2 :: b3 :: ({ s.inp with pos := s.inp.pos + 4 } : InStream).restBytes →
      s.params.countMax < countValue s.params.countByteOrder b0 b1 b2 b3 →
      Effect s .rcnt { s with inp := { s.inp with pos := s.inp.pos + 4 }, err := 5#3 }
  | rcntOk (b0 b1 b2 b3 : Byte) : s.inp.bit = 0 → s.inp.pos + 4 ≤ s.inp.bytes.length →
      s.inp.restBytes = b0 :: b1 :: b2 :: b3 :: ({ s.inp with pos := s.inp.pos + 4 } : InStream).restBytes →
      countValue s.params.countByteOrder b0 b1 b2 b3 ≤ s.params.countMax →
      Effect s .rcnt
        { s with
          inp := { s.inp with pos := s.inp.pos + 4 }, cnt := countValue s.params.countByteOrder b0 b1 b2 b3,
          cp := s.cp + 1 }
  | flush : Effect s .flush { s with out := flushBitwise s.out, cp := s.cp + 1 }

/-- A block that is not faulted answers one of these, or the model stops on a walk (log 8). -/
theorem exec_effect (i : Instr) {s : State} (h : s.err = 0#3) :
    (∃ f, exec i s = .fault f) ∨ ∃ t, exec i s = .next t ∧ Effect s i t := by
  have stuck : ∀ {b : State → Run State Unit} {f}, b s = .stuck f → command b s = .fault f := by
    intro b f hb; simp [command, h, hb]
  cases i with
  | fclr =>
    refine .inr ⟨_, ?_, .fclr⟩
    simp only [exec, execFclr, command, if_pos h]; rfl
  | fset x v =>
    refine .inr ⟨_, ?_, .fset x v⟩
    simp only [exec, execFset, command, if_pos h]; rfl
  | build =>
    refine .inr ⟨_, ?_, .build⟩
    simp only [exec, execBuild, command, if_pos h]; rfl
  | tclr =>
    refine .inr ⟨_, ?_, .tclr⟩
    simp only [exec, execTclr, command, if_pos h]; rfl
  | flush =>
    refine .inr ⟨_, ?_, .flush⟩
    simp only [exec, execFlush, command, if_pos h]; rfl
  | enc x =>
    simp only [exec, execEnc]
    cases hr : s.tree.root with
    | none => exact .inr ⟨_, command_raise (k := .emptyTree) (t := s) h (by simp [encBody, hr]), .encEmpty x hr⟩
    | some r =>
      cases hl : s.tree.leafOf x with
      | none =>
        exact .inr ⟨_, command_raise (k := .invalidSymbol) (t := s) h (by simp [encBody, hr, hl]), .encInvalid x (by simp [hr]) hl⟩
      | some i =>
        cases hp : pathUp s.tree.nodes s.tree.nnode i [] with
        | error f => exact .inl ⟨f, stuck (by simp [encBody, hr, hl, hp])⟩
        | ok bs =>
          exact .inr ⟨_, command_ok (t := { s with out := writeBits bs s.out }) (u := ()) h
            (by simp [encBody, hr, hl, hp]), .encOk x bs (by simp [hr]) (by simp [hl])⟩
  | dec =>
    simp only [exec, execDec]
    cases hr : s.tree.root with
    | none => exact .inr ⟨_, command_raise (k := .emptyTree) (t := s) h (by simp [decBody, hr]), .decEmpty hr⟩
    | some r =>
      rcases decWalk_frame s.tree.nodes s.tree.nnode (some r) s.inp with ⟨f, hw⟩ | ⟨i', hb, ⟨v, hw⟩ | hw⟩
      · exact .inl ⟨f, stuck (by simp [decBody, hr, hw])⟩
      · exact .inr ⟨_, command_ok (t := emitSymbol v { s with inp := i' }) (u := ()) h (by simp [decBody, hr, hw]),
          .decOk i' v (by simp [hr]) hb⟩
      · exact .inr ⟨_, command_raise (k := .truncatedStream) (t := { s with inp := i' }) h (by simp [decBody, hr, hw]),
          .decTruncated i' (by simp [hr]) hb⟩
  | hser =>
    simp only [exec, execHser]
    cases hr : s.tree.root with
    | none => exact .inr ⟨_, command_raise (k := .emptyTree) (t := s) h (by simp [hserBody, hr]), .hserEmpty hr⟩
    | some r =>
      by_cases hn : s.out.nbits = 0
      · rcases serialize_frame s.tree.nodes s.tree.nnode (some r) s.out hn with ⟨f, hw⟩ | ⟨bs, hw⟩
        · exact .inl ⟨f, stuck (by simp [hserBody, hr, hn, hw])⟩
        · exact .inr ⟨_, command_ok (t := { s with out := { s.out with bytes := s.out.bytes ++ bs } }) (u := ()) h
            (by simp [hserBody, hr, hn, hw]), .hserOk bs (by simp [hr]) hn⟩
      · exact .inr ⟨_, command_raise (k := .misaligned) (t := s) h (by simp [hserBody, hr, hn]),
          .hserMisaligned (by simp [hr]) hn⟩
  | hdes =>
    simp only [exec, execHdes]
    by_cases hb : s.inp.bit = 0
    · obtain ⟨d, hi, hr, ho⟩ := des_frame pathMax { inp := s.inp, tree := TreeStore.empty } hb
      have hs : ∀ u : TreeStore, ({ s with inp := d.inp, tree := u } : State) =
          { s with inp := { s.inp with pos := d.inp.pos }, tree := u } := by intro u; rw [hi]
      rcases ho with ⟨e, ho⟩ | ho | ho
      · refine .inr ⟨_, command_ok (u := ()) (t := { s with inp := { s.inp with pos := d.inp.pos }, tree := { d.tree with root := some e.node } }) h ?_, .hdesOk _ _ hb (by simp)⟩
        unfold hdesBody; rw [if_pos hb, ho, within_ok, bind_ok, hs]
      · refine .inr ⟨_, command_raise (k := .truncatedStream) (t := { s with inp := { s.inp with pos := d.inp.pos }, tree := d.tree }) h ?_, .hdesTruncated _ _ hb (by rw [hr]; rfl)⟩
        unfold hdesBody; rw [if_pos hb, ho, within_raise, bind_raise, hs]
      · refine .inr ⟨_, command_raise (k := .badFormat) (t := { s with inp := { s.inp with pos := d.inp.pos }, tree := d.tree }) h ?_, .hdesBad _ _ hb (by rw [hr]; rfl)⟩
        unfold hdesBody; rw [if_pos hb, ho, within_raise, bind_raise, hs]
    · exact .inr ⟨_, command_raise (k := .misaligned) (t := s) h (by simp [hdesBody, hb]), .hdesMisaligned hb⟩
  | wcnt v =>
    simp only [exec, execWcnt]
    by_cases hv : s.params.countMax < v
    · exact .inr ⟨_, command_raise (k := .illegalCommand) (t := s) h (by simp [wcntBody, hv]), .wcntIllegal v hv⟩
    · have hv' : v ≤ s.params.countMax := BitVec.not_lt.1 hv
      by_cases hn : s.out.nbits = 0
      · refine .inr ⟨_, command_ok (u := ()) (t := { s with out := { s.out with bytes := s.out.bytes ++ countBytes s.params.countByteOrder v } }) h ?_, .wcntOk v hv' hn⟩
        unfold wcntBody; rw [if_neg hv, if_pos hn, writeBytes_aligned _ hn, within_ok]
      · exact .inr ⟨_, command_raise (k := .misaligned) (t := s) h (by simp [wcntBody, hv, hn]), .wcntMisaligned v hv' hn⟩
  | rcnt =>
    simp only [exec, execRcnt]
    by_cases hb : s.inp.bit = 0
    · rcases readCount_frame s.params.countByteOrder s.inp hb with ⟨p, hl, hr, hp⟩ | ⟨b0, b1, b2, b3, rest, e, e', hl, hr⟩
      · refine .inr ⟨_, command_raise (k := .truncatedStream) (t := { s with inp := { s.inp with pos := p } }) h ?_,
          .rcntTruncated p hb hl hp⟩
        unfold rcntBody; rw [if_pos hb, hr, within_raise, bind_raise]
      · by_cases hm : s.params.countMax < countValue s.params.countByteOrder b0 b1 b2 b3
        · refine .inr ⟨_, command_raise (k := .badFormat) (t := { s with inp := { s.inp with pos := s.inp.pos + 4 } }) h ?_,
            .rcntBad b0 b1 b2 b3 hb hl (by rw [e, e']) hm⟩
          unfold rcntBody; rw [if_pos hb, hr, within_ok, bind_ok, if_pos hm]
        · refine .inr ⟨_, command_ok (u := ()) (t := { s with inp := { s.inp with pos := s.inp.pos + 4 }, cnt := countValue s.params.countByteOrder b0 b1 b2 b3 }) h ?_,
            .rcntOk b0 b1 b2 b3 hb hl (by rw [e, e']) (BitVec.not_lt.1 hm)⟩
          unfold rcntBody; rw [if_pos hb, hr, within_ok, bind_ok, if_neg hm]
    · exact .inr ⟨_, command_raise (k := .misaligned) (t := s) h (by simp [rcntBody, hb]), .rcntMisaligned hb⟩

/-- What a command that answers a next state has done. -/
theorem effect_of_next {i : Instr} {s t : State} (h : s.err = 0#3) (ht : exec i s = .next t) : Effect s i t := by
  rcases exec_effect i h with ⟨f, hf⟩ | ⟨t', h1, h2⟩
  · rw [ht] at hf; cases hf
  · rw [ht] at h1; cases h1; exact h2

end Sys2Proof.Machine
end

