-- ==== Sys2Proof/Laws/Optimal.lean ====
section
/-! SUPPORT. What the optimality of the construction rests on (40_build.md R157): code lengths that fit a binary tree
(Kraft's sum), the exchange that gives the two least weights the longest lengths, and the sum a merge adds. -/

namespace Sys2Proof.Machine

/-! ## Lengths that fit -/

/-- Kraft's sum, scaled by `2 ^ L`. -/
def kraftSum (L : Nat) (ls : List Nat) : Nat := (ls.map fun l => 2 ^ (L - l)).sum

/-- The lengths are at most `L` and fit a binary tree. -/
def Fits (L : Nat) (ls : List Nat) : Prop := (∀ l ∈ ls, l ≤ L) ∧ kraftSum L ls ≤ 2 ^ L

@[simp] theorem kraftSum_nil (L : Nat) : kraftSum L [] = 0 := rfl

@[simp] theorem kraftSum_cons (L l : Nat) (ls : List Nat) : kraftSum L (l :: ls) = 2 ^ (L - l) + kraftSum L ls := by
  simp [kraftSum]

theorem kraftSum_perm {L : Nat} {ls ls' : List Nat} (h : ls.Perm ls') : kraftSum L ls = kraftSum L ls' :=
  (h.map _).sum_eq

theorem Fits.perm {L : Nat} {ls ls' : List Nat} (h : Fits L ls) (hp : ls.Perm ls') : Fits L ls' :=
  ⟨fun l hl => h.1 l (hp.mem_iff.2 hl), kraftSum_perm hp ▸ h.2⟩

theorem kraftSum_scale {L M : Nat} {ls : List Nat} (hM : ∀ l ∈ ls, l ≤ M) (hL : M ≤ L) :
    kraftSum L ls = 2 ^ (L - M) * kraftSum M ls := by
  induction ls with
  | nil => simp
  | cons l ls ih =>
    have hl := hM l (by simp)
    rw [kraftSum_cons, kraftSum_cons, ih fun x hx => hM x (by simp [hx]), Nat.mul_add, ← Nat.pow_add]
    congr 2; omega

/-- A smaller bound that still covers the lengths serves as well. -/
theorem Fits.lower {L M : Nat} {ls : List Nat} (h : Fits L ls) (hM : ∀ l ∈ ls, l ≤ M) (hL : M ≤ L) : Fits M ls := by
  refine ⟨hM, ?_⟩
  have h2 := h.2
  rw [kraftSum_scale hM hL, ← Nat.sub_add_cancel hL, Nat.pow_add, Nat.sub_add_cancel hL] at h2
  exact Nat.le_of_mul_le_mul_left h2 (Nat.two_pow_pos _)

/-- The longest length may come down to the second longest (the sums are multiples of a power of two). -/
theorem Fits.level {M M2 : Nat} {ls : List Nat} (h : Fits M (M :: ls)) (hM : M2 ≤ M) (hl : ∀ l ∈ ls, l ≤ M2) :
    Fits M2 (M2 :: ls) := by
  refine ⟨by simpa using hl, ?_⟩
  have h2 := h.2
  rw [kraftSum_cons, kraftSum_scale hl hM, Nat.sub_self, Nat.pow_zero] at h2
  have hp : 2 ^ M = 2 ^ (M - M2) * 2 ^ M2 := by rw [← Nat.pow_add]; congr 1; omega
  rw [hp] at h2
  have hlt : kraftSum M2 ls < 2 ^ M2 := by
    by_contra hge
    have := Nat.mul_le_mul_left (2 ^ (M - M2)) (Nat.le_of_not_lt hge)
    omega
  rw [kraftSum_cons, Nat.sub_self, Nat.pow_zero]; omega

/-- Two leaves at one depth make room for one a level up. -/
theorem Fits.join {L m : Nat} {ls : List Nat} (h : Fits L ((m + 1) :: (m + 1) :: ls)) : Fits L (m :: ls) := by
  obtain ⟨h1, h2⟩ := h
  have hm := h1 (m + 1) (by simp)
  refine ⟨fun l hl => ?_, ?_⟩
  · rcases List.mem_cons.1 hl with rfl | hl
    · omega
    · exact h1 l (by simp [hl])
  · rw [kraftSum_cons, kraftSum_cons] at h2
    have : 2 ^ (L - m) = 2 ^ (L - (m + 1)) + 2 ^ (L - (m + 1)) := by
      rw [← Nat.two_mul, ← Nat.pow_succ']; congr 1; omega
    rw [kraftSum_cons]; omega

/-! ## The exchange -/

/-- Weight times length, summed. -/
def pairCost (ps : List (Nat × Nat)) : Nat := (ps.map fun p => p.1 * p.2).sum

@[simp] theorem pairCost_nil : pairCost [] = 0 := rfl

@[simp] theorem pairCost_cons (p : Nat × Nat) (ps : List (Nat × Nat)) :
    pairCost (p :: ps) = p.1 * p.2 + pairCost ps := by simp [pairCost]

/-- The least weight can take the longest length at no extra cost. -/
theorem take_longest (w l : Nat) (ps : List (Nat × Nat)) (hw : ∀ p ∈ ps, w ≤ p.1) :
    ∃ l' ps', ps'.map Prod.fst = ps.map Prod.fst ∧ (l' :: ps'.map Prod.snd).Perm (l :: ps.map Prod.snd) ∧
      (∀ p ∈ ps', p.2 ≤ l') ∧ w * l' + pairCost ps' ≤ w * l + pairCost ps := by
  induction ps with
  | nil => exact ⟨l, [], rfl, .refl _, by simp, Nat.le_refl _⟩
  | cons p ps ih =>
    obtain ⟨w1, l1⟩ := p
    have hw1 : w ≤ w1 := hw (w1, l1) (by simp)
    obtain ⟨l', ps', h1, h2, h3, h4⟩ := ih fun p hp => hw p (by simp [hp])
    rcases Nat.le_total l1 l' with hle | hle
    · refine ⟨l', (w1, l1) :: ps', by simp [h1], ?_, ?_, ?_⟩
      · simp only [List.map_cons]
        exact (List.Perm.swap _ _ _).trans ((h2.cons l1).trans (.swap _ _ _))
      · intro p hp
        rcases List.mem_cons.1 hp with rfl | hp
        · exact hle
        · exact h3 p hp
      · simp; omega
    · refine ⟨l1, (w1, l') :: ps', by simp [h1], ?_, ?_, ?_⟩
      · simp only [List.map_cons]
        exact (h2.cons l1).trans (.swap _ _ _)
      · intro p hp
        rcases List.mem_cons.1 hp with rfl | hp
        · exact hle
        · exact (h3 p hp).trans hle
      · simp only [pairCost_cons]
        have : w * l1 + w1 * l' ≤ w * l' + w1 * l1 := by
          obtain ⟨d, rfl⟩ := Nat.exists_eq_add_of_le hle
          have := Nat.mul_le_mul_right d hw1
          simp only [Nat.mul_add]; omega
        omega

/-- The two least weights can share the longest length at no extra cost. -/
theorem exchange (wa wb la lb L : Nat) (ps : List (Nat × Nat)) (hab : wa ≤ wb) (hb : ∀ p ∈ ps, wb ≤ p.1)
    (hf : Fits L (la :: lb :: ps.map Prod.snd)) :
    ∃ m L' ps', ps'.map Prod.fst = ps.map Prod.fst ∧ Fits L' ((m + 1) :: (m + 1) :: ps'.map Prod.snd) ∧
      (wa + wb) * (m + 1) + pairCost ps' ≤ wa * la + wb * lb + pairCost ps := by
  obtain ⟨M, qs, h1, h2, h3, h4⟩ := take_longest wa la ((wb, lb) :: ps) (by
    intro p hp
    rcases List.mem_cons.1 hp with rfl | hp
    · exact hab
    · exact hab.trans (hb p hp))
  match qs, h1, h2, h3, h4 with
  | (wb', lb') :: qs, h1', h2, h3, h4 =>
    simp only [List.map_cons, List.cons.injEq] at h1'
    obtain ⟨rfl, hq⟩ := h1'
    obtain ⟨M2, rs, h5, h6, h7, h8⟩ := take_longest wb' lb' qs (by
      intro p hp
      have : p.1 ∈ ps.map Prod.fst := hq ▸ List.mem_map_of_mem hp
      obtain ⟨p', hp', he⟩ := List.mem_map.1 this
      exact he ▸ hb p' hp')
    have hM2 : M2 ≤ M := by
      have : M2 ∈ lb' :: qs.map Prod.snd := h6.subset (by simp)
      rcases List.mem_cons.1 this with rfl | hm
      · exact h3 (wb', M2) (by simp)
      · obtain ⟨p, hp, rfl⟩ := List.mem_map.1 hm
        exact h3 p (by simp [hp])
    have hfm : Fits L (M :: M2 :: rs.map Prod.snd) := by
      refine hf.perm (h2.symm.trans ?_)
      exact (h6.symm.cons M)
    have hM : M ≤ L := hfm.1 M (by simp)
    have hall : ∀ l ∈ M2 :: rs.map Prod.snd, l ≤ M2 := by
      intro l hl
      rcases List.mem_cons.1 hl with rfl | hl
      · exact Nat.le_refl _
      · obtain ⟨p, hp, rfl⟩ := List.mem_map.1 hl
        exact h7 p hp
    have hfM : Fits M (M :: M2 :: rs.map Prod.snd) := hfm.lower (by
      intro l hl
      rcases List.mem_cons.1 hl with rfl | hl
      · exact Nat.le_refl _
      · exact (hall l hl).trans hM2) hM
    have hf2 := hfM.level hM2 hall
    have hpos : M2 ≠ 0 := by
      rintro rfl
      have := hf2.2
      simp at this
    obtain ⟨m, rfl⟩ : ∃ m, M2 = m + 1 := ⟨M2 - 1, by omega⟩
    refine ⟨m, m + 1, rs, h5.trans hq, hf2, ?_⟩
    simp only [pairCost_cons] at h4
    have h9 : wa * (m + 1) ≤ wa * M := Nat.mul_le_mul_left _ hM2
    rw [Nat.add_mul]; omega

/-! ## Codes fit -/

/-- The rest of a code that begins with a given bit. -/
def branch (b : Bit) : List Bit → Option (List Bit)
  | [] => none
  | x :: c => if x = b then some c else none

theorem branch_eq_some {b : Bit} {c d : List Bit} : branch b c = some d ↔ c = b :: d := by
  cases c with
  | nil => simp [branch]
  | cons x c => by_cases h : x = b <;> simp [branch, h]

/-- Kraft's sum, split by the first bit. -/
theorem kraftSum_branch (L : Nat) (cs : List (List Bit)) (hn : [] ∉ cs) :
    kraftSum (L + 1) (cs.map List.length) =
      kraftSum L ((cs.filterMap (branch false)).map List.length) +
        kraftSum L ((cs.filterMap (branch true)).map List.length) := by
  induction cs with
  | nil => simp
  | cons c cs ih =>
    have ih := ih fun h => hn (by simp [h])
    match c, hn with
    | [], hn => simp at hn
    | false :: c, _ =>
      have h1 : branch false (false :: c) = some c := rfl
      have h2 : branch true (false :: c) = none := rfl
      simp [h1, h2, ih]; omega
    | true :: c, _ =>
      have h1 : branch false (true :: c) = none := rfl
      have h2 : branch true (true :: c) = some c := rfl
      simp [h1, h2, ih]; omega

/-- A list of codes none of which is a prefix of another has lengths that fit (Kraft). -/
theorem prefixFree_fits (L : Nat) (cs : List (List Bit)) (hL : ∀ c ∈ cs, c.length ≤ L)
    (hp : cs.Pairwise fun a b => ¬ a <+: b ∧ ¬ b <+: a) : Fits L (cs.map List.length) := by
  refine ⟨by simpa using hL, ?_⟩
  induction L generalizing cs with
  | zero =>
    match cs, hp with
    | [], _ => simp
    | [c], _ => simp
    | a :: b :: cs, hp =>
      have ha := hL a (by simp)
      have ha : a = [] := by simpa using ha
      have := (List.pairwise_cons.1 hp).1 b (by simp)
      simp [ha] at this
  | succ L ih =>
    by_cases hnil : [] ∈ cs
    · match cs, hnil with
      | [c], hnil => simp at hnil; subst hnil; simp
      | a :: b :: cs, hnil =>
        exfalso
        obtain ⟨h1, h2⟩ := List.pairwise_cons.1 hp
        rcases List.mem_cons.1 hnil with rfl | hm
        · exact (h1 b (by simp)).1 (List.nil_prefix)
        · exact (h1 [] hm).2 List.nil_prefix
    · have key : ∀ b : Bit, kraftSum L ((cs.filterMap (branch b)).map List.length) ≤ 2 ^ L := by
        intro b
        refine ih _ ?_ ?_
        · intro c hc
          obtain ⟨d, hd, he⟩ := List.mem_filterMap.1 hc
          rw [branch_eq_some] at he; subst he
          simpa using hL _ hd
        · refine hp.filterMap _ ?_
          rintro a a' ⟨h1, h2⟩ c hc c' hc'
          rw [branch_eq_some] at hc hc'
          subst hc hc'
          simpa [List.cons_prefix_cons] using And.intro h1 h2
      rw [kraftSum_branch L cs hnil]
      have h0 := key false
      have h1 := key true
      rw [Nat.pow_succ]; omega

/-! ## The sum of a merge -/

/-- The weights of the leaves, added as numbers. -/
def Tree.leafSum : Tree → Nat
  | .leaf w _ => w.toNat
  | .node _ _ l r => l.leafSum + r.leafSum

/-- Weight times depth, summed over the leaves, the root at depth `d` (40_build.md R157). -/
def Tree.costFrom (T : Tree) (d : Nat) : Nat := ((T.leafDepths d).map fun x => x.2.1.toNat * x.2.2).sum

theorem costFrom_succ (T : Tree) (d : Nat) : T.costFrom (d + 1) = T.costFrom d + T.leafSum := by
  induction T generalizing d with
  | leaf w s => simp [Tree.costFrom, Tree.leafDepths, Tree.leafSum, Nat.mul_add]
  | node w s l r ihl ihr =>
    have h1 := ihl (d + 1)
    have h2 := ihr (d + 1)
    simp only [Tree.costFrom, Tree.leafDepths, List.map_append, List.sum_append, Tree.leafSum] at h1 h2 ⊢
    omega

theorem costFrom_node (w : Weight) (s : Byte) (l r : Tree) :
    (Tree.node w s l r).costFrom 0 = l.costFrom 0 + r.costFrom 0 + l.leafSum + r.leafSum := by
  have h1 := costFrom_succ l 0
  have h2 := costFrom_succ r 0
  simp only [Tree.costFrom, Tree.leafDepths, List.map_append, List.sum_append] at h1 h2 ⊢
  omega

end Sys2Proof.Machine
end

