-- ==== Sys2Proof/Laws/Huffman.lean ====
section
/-! SUPPORT. What the construction over trees gives (40_build.md R145 to R150): exact weights, leftmost symbols, the
leaves of `FREQ`, and a cost no fitting choice of code lengths beats (R157). -/

namespace Sys2Proof.Machine

theorem exact_weight {T : Tree} (h : T.exact) : T.weight.toNat = T.leafSum := by
  induction T with
  | leaf => rfl
  | node w s l r ihl ihr =>
    obtain ⟨h1, h2, h3⟩ := h
    simp only [Tree.weight, Tree.leafSum, ← ihl h2, ← ihr h3, h1]

theorem leftmost_head {T : Tree} (h : T.leftmost) : T.symbols.head? = some T.symbol := by
  cases T with
  | leaf => rfl
  | node w s l r => simp [Tree.symbols, Tree.symbol, h.1]

/-- The weighted path length is the sum of the internal weights (40_build.md R157). -/
theorem cost_eq_internal {T : Tree} (h : T.exact) : T.costFrom 0 = (T.internalWeights.map BitVec.toNat).sum := by
  induction T with
  | leaf => simp [Tree.costFrom, Tree.leafDepths, Tree.internalWeights]
  | node w s l r ihl ihr =>
    obtain ⟨h1, h2, h3⟩ := h
    rw [costFrom_node, ihl h2, ihr h3]
    simp only [Tree.internalWeights, List.map_cons, List.map_append, List.sum_cons, List.sum_append, h1,
      exact_weight h2, exact_weight h3]
    omega

/-! ## The priority structure stays sorted -/

/-- Ascending weights. -/
def SortedByWeight (q : List Tree) : Prop := q.Pairwise fun a b => a.weight.toNat ≤ b.weight.toNat

theorem before_le {a b : Tree} (h : a.before b = true) : a.weight.toNat ≤ b.weight.toNat := by
  simp only [Tree.before, Bool.or_eq_true, decide_eq_true_eq, Bool.and_eq_true, beq_iff_eq] at h
  rcases h with h | ⟨h, -⟩
  · exact Nat.le_of_lt h
  · rw [h]

theorem not_before_le {a b : Tree} (h : ¬ a.before b = true) : b.weight.toNat ≤ a.weight.toNat := by
  simp only [Tree.before, Bool.or_eq_true, decide_eq_true_eq, not_or] at h
  exact Nat.le_of_not_lt h.1

theorem insertTree_sorted {e : Tree} {q : List Tree} (h : SortedByWeight q) : SortedByWeight (insertTree e q) := by
  unfold SortedByWeight at *
  induction q with
  | nil => simp [insertTree]
  | cons x q ih =>
    obtain ⟨h1, h2⟩ := List.pairwise_cons.1 h
    unfold insertTree
    split
    · rename_i hb
      refine List.pairwise_cons.2 ⟨?_, h⟩
      intro y hy
      rcases List.mem_cons.1 hy with rfl | hy
      · exact before_le hb
      · exact (before_le hb).trans (h1 y hy)
    · rename_i hb
      refine List.pairwise_cons.2 ⟨?_, ih h2⟩
      intro y hy
      rcases List.mem_cons.1 ((insertTree_perm e q).subset hy) with rfl | hy
      · exact not_before_le hb
      · exact h1 y hy

/-- An assignment of lengths to the trees extends to an inserted tree. -/
theorem insertTree_pairs (e : Tree) (m : Nat) (ps : List (Tree × Nat)) :
    ∃ ps' : List (Tree × Nat), ps'.map Prod.fst = insertTree e (ps.map Prod.fst) ∧ ps'.Perm ((e, m) :: ps) := by
  induction ps with
  | nil => exact ⟨[(e, m)], rfl, .refl _⟩
  | cons p ps ih =>
    obtain ⟨ps', h1, h2⟩ := ih
    simp only [List.map_cons, insertTree]
    split
    · exact ⟨(e, m) :: p :: ps, rfl, .refl _⟩
    · exact ⟨p :: ps', by simp [h1], (h2.cons p).trans (.swap _ _ _)⟩

/-! ## The merges -/

/-- The leaf weights of all the trees, added. -/
def totalSum (q : List Tree) : Nat := (q.map Tree.leafSum).sum

/-- The cost of hanging each tree at a given depth. -/
def hangCost (ps : List (Tree × Nat)) : Nat := (ps.map fun p => p.1.costFrom 0 + p.1.leafSum * p.2).sum

theorem hangCost_perm {ps ps' : List (Tree × Nat)} (h : ps.Perm ps') : hangCost ps = hangCost ps' := (h.map _).sum_eq

@[simp] theorem hangCost_nil : hangCost [] = 0 := rfl

@[simp] theorem hangCost_cons (p : Tree × Nat) (ps : List (Tree × Nat)) :
    hangCost (p :: ps) = p.1.costFrom 0 + p.1.leafSum * p.2 + hangCost ps := by simp [hangCost]

theorem hangCost_eq (ps : List (Tree × Nat)) : hangCost ps =
    ((ps.map Prod.fst).map fun t => t.costFrom 0).sum + pairCost (ps.map fun p => (p.1.leafSum, p.2)) := by
  induction ps with
  | nil => rfl
  | cons p ps ih => simp only [hangCost_cons, List.map_cons, List.sum_cons, pairCost_cons, ih]; omega

/-- The trees in the priority structure are well made: exact weights, leftmost symbols, no sum can wrap. -/
structure Made (q : List Tree) : Prop where
  exact    : ∀ t ∈ q, t.exact
  leftmost : ∀ t ∈ q, t.leftmost
  total    : totalSum q < 2 ^ 40
  sorted   : SortedByWeight q

theorem Made.insert_merge {a b : Tree} {q : List Tree} (h : Made (a :: b :: q)) :
    Made (insertTree (a.merge b) q) ∧ (a.merge b).exact := by
  have ha := h.exact a (by simp)
  have hb := h.exact b (by simp)
  have ht := h.total
  simp only [totalSum, List.map_cons, List.sum_cons] at ht
  have hm : (a.merge b).exact := by
    refine ⟨?_, ha, hb⟩
    rw [BitVec.toNat_add, exact_weight ha, exact_weight hb, Nat.mod_eq_of_lt (by omega)]
  refine ⟨⟨?_, ?_, ?_, ?_⟩, hm⟩
  · intro t ht
    rcases List.mem_cons.1 ((insertTree_perm _ _).subset ht) with rfl | ht
    · exact hm
    · exact h.exact t (by simp [ht])
  · intro t ht
    rcases List.mem_cons.1 ((insertTree_perm _ _).subset ht) with rfl | ht
    · have h1 := h.leftmost a (by simp)
      exact ⟨leftmost_head h1, h1, h.leftmost b (by simp)⟩
    · exact h.leftmost t (by simp [ht])
  · have : totalSum (insertTree (a.merge b) q) = totalSum (a.merge b :: q) :=
      ((insertTree_perm (a.merge b) q).map _).sum_eq
    rw [this]
    simp only [totalSum, List.map_cons, List.sum_cons, Tree.merge, Tree.leafSum]; omega
  · exact insertTree_sorted ((List.pairwise_cons.1 (List.pairwise_cons.1 h.sorted).2).2)

/-- All the merges, said once: one tree, well made, holding the leaves of all, at a cost no fitting lengths beat. -/
theorem mergeTrees_spec (n : Nat) (q : List Tree) (hn : q.length = n + 1) (h : Made q) :
    ∃ T, mergeTrees n q = [T] ∧ T.exact ∧ T.leftmost ∧ T.leafSum = totalSum q ∧
      (T.symbols.Perm (q.flatMap Tree.symbols)) ∧
      (∀ P : Byte → Weight → Prop, (∀ t ∈ q, ∀ d, ∀ x ∈ t.leafDepths d, P x.1 x.2.1) →
        ∀ d, ∀ x ∈ T.leafDepths d, P x.1 x.2.1) ∧
      ∀ (ps : List (Tree × Nat)) (L : Nat), ps.map Prod.fst = q → Fits L (ps.map Prod.snd) →
        T.costFrom 0 ≤ hangCost ps := by
  induction n generalizing q with
  | zero =>
    match q, hn with
    | [T], _ =>
      refine ⟨T, by unfold mergeTrees; rfl, h.exact T (by simp), h.leftmost T (by simp), by simp [totalSum], by simp,
        fun P hP d x hx => hP T (by simp) d x hx, ?_⟩
      intro ps L hps _
      match ps, hps with
      | [p], hps => simp at hps; subst hps; simp
  | succ n ih =>
    match q, hn with
    | a :: b :: q, hn =>
      obtain ⟨hmade, hex⟩ := h.insert_merge
      have hperm := insertTree_perm (a.merge b) q
      obtain ⟨T, h1, h2, h3, h4, h5, h6, h7⟩ := ih (insertTree (a.merge b) q) (by simp at hn ⊢; omega) hmade
      refine ⟨T, by simpa [mergeTrees] using h1, h2, h3, ?_, ?_, ?_, ?_⟩
      · have : totalSum (insertTree (a.merge b) q) = totalSum (a.merge b :: q) := (hperm.map _).sum_eq
        rw [h4, this]; simp [totalSum, Tree.merge, Tree.leafSum, Nat.add_assoc]
      · refine h5.trans ((hperm.flatMap_right _).trans ?_)
        simp [Tree.merge, Tree.symbols]
      · intro P hP
        refine h6 P ?_
        intro t ht d x hx
        rcases List.mem_cons.1 (hperm.subset ht) with rfl | ht
        · simp only [Tree.merge, Tree.leafDepths, List.mem_append] at hx
          rcases hx with hx | hx
          · exact hP a (by simp) _ x hx
          · exact hP b (by simp) _ x hx
        · exact hP t (by simp [ht]) d x hx
      · intro ps L hps hf
        match ps, hps with
        | (a', la) :: (b', lb) :: ps, h0 =>
          simp only [List.map_cons, List.cons.injEq] at h0
          obtain ⟨rfl, rfl, hq⟩ := h0
          have ha := exact_weight (h.exact a' (by simp))
          have hb := exact_weight (h.exact b' (by simp))
          obtain ⟨hs1, hs2⟩ := List.pairwise_cons.1 h.sorted
          obtain ⟨hs3, -⟩ := List.pairwise_cons.1 hs2
          have hab : a'.leafSum ≤ b'.leafSum := by rw [← ha, ← hb]; exact hs1 b' (by simp)
          obtain ⟨m, L', rs, e1, e2, e3⟩ := exchange a'.leafSum b'.leafSum la lb L
            (ps.map fun p => (p.1.leafSum, p.2)) hab (by
              intro p hp
              obtain ⟨p', hp', rfl⟩ := List.mem_map.1 hp
              have hm : p'.1 ∈ q := hq ▸ List.mem_map_of_mem hp'
              have := hs3 p'.1 hm
              rw [hb, exact_weight (h.exact p'.1 (by simp [hm]))] at this
              exact this) (by simpa [List.map_map, Function.comp_def] using hf)
          -- the trees of `ps` with the new lengths
          obtain ⟨us, hu1, hu2⟩ : ∃ us : List (Tree × Nat), us.map Prod.fst = q ∧
              us.map (fun p => (p.1.leafSum, p.2)) = rs := by
            have hlen : q.length = rs.length := by
              have := congrArg List.length e1
              have h' := congrArg List.length hq
              simp at this h'; omega
            refine ⟨q.zip (rs.map Prod.snd), List.map_fst_zip (by simp [hlen]), ?_⟩
            apply List.ext_getElem
            · simp [hlen]
            · intro i hi1 hi2
              have hfst : (rs[i]).1 = (q[i]'(by omega)).leafSum := by
                have := congrArg (fun l => l[i]?) e1
                simp only [List.map_map, List.getElem?_map] at this
                rw [List.getElem?_eq_getElem hi2] at this
                have hpi : i < ps.length := by
                  have h' := congrArg List.length hq
                  simp at h'; omega
                rw [List.getElem?_eq_getElem hpi] at this
                simp only [Option.map_some, Function.comp, Option.some.injEq] at this
                rw [this]; congr 1; simp [← hq]
              simp [← hfst]
          obtain ⟨vs, hv1, hv2⟩ := insertTree_pairs (a'.merge b') m us
          have hsnd : us.map Prod.snd = rs.map Prod.snd := by
            rw [← hu2]; simp [List.map_map, Function.comp_def]
          have hfv : Fits L' (vs.map Prod.snd) := by
            refine e2.join.perm ?_
            have := (hv2.map Prod.snd).symm
            simpa [hsnd] using this
          have hcost := h7 vs L' (by rw [hv1, hu1]) hfv
          have hmc : (a'.merge b').costFrom 0 = a'.costFrom 0 + b'.costFrom 0 + a'.leafSum + b'.leafSum :=
            costFrom_node _ _ _ _
          have hms : (a'.merge b').leafSum = a'.leafSum + b'.leafSum := rfl
          rw [hangCost_perm hv2, hangCost_cons, hangCost_eq us, hu1, hu2] at hcost
          simp only [hmc, hms] at hcost
          simp only [hangCost_cons, hangCost_eq ps, hq]
          rw [Nat.mul_add, Nat.mul_one] at e3
          omega

/-! ## The leaves of BUILD -/

theorem freqWeight_toNat (f : Freq) : (freqWeight f).toNat = f.toNat := by
  unfold freqWeight
  rw [BitVec.toNat_setWidth, Nat.mod_eq_of_lt]
  have := f.isLt
  omega

/-- The leaf of a symbol. -/
def leafTree (freq : Vector Freq 256) (s : Byte) : Tree := .leaf (freqWeight (readFreq freq s)) s

theorem foldl_insert_perm (ts q : List Tree) : (ts.foldl (fun q t => insertTree t q) q).Perm (ts ++ q) := by
  induction ts generalizing q with
  | nil => exact .refl _
  | cons t ts ih =>
    refine (ih (insertTree t q)).trans ?_
    exact ((insertTree_perm t q).append_left ts).trans List.perm_middle

theorem foldl_insert_sorted (ts q : List Tree) (h : SortedByWeight q) :
    SortedByWeight (ts.foldl (fun q t => insertTree t q) q) := by
  induction ts generalizing q with
  | nil => exact h
  | cons t ts ih => exact ih _ (insertTree_sorted h)

/-- The symbols of positive frequency, ascending. -/
def positives (freq : Vector Freq 256) : List Byte := allSymbols.filter fun s => readFreq freq s != 0#32

theorem leafTrees_eq (freq : Vector Freq 256) :
    leafTrees freq = ((positives freq).map (leafTree freq)).foldl (fun q t => insertTree t q) [] := by
  rw [List.foldl_map]; rfl

theorem leafTrees_perm (freq : Vector Freq 256) : (leafTrees freq).Perm ((positives freq).map (leafTree freq)) := by
  rw [leafTrees_eq]; simpa using foldl_insert_perm ((positives freq).map (leafTree freq)) []

theorem positives_length_le (freq : Vector Freq 256) : (positives freq).length ≤ 256 := by
  have := List.length_filter_le (fun s => readFreq freq s != 0#32) allSymbols
  simpa [positives] using this

/-- At most 256 frequencies below 2^32 add up to less than 2^40 (40_build.md R152). -/
theorem sum_freq_lt (freq : Vector Freq 256) (l : List Byte) (h : l.length ≤ 256) :
    (l.map fun s => (readFreq freq s).toNat).sum < 2 ^ 40 := by
  have key : ∀ l : List Byte, (l.map fun s => (readFreq freq s).toNat).sum ≤ l.length * (2 ^ 32 - 1) := by
    intro l
    induction l with
    | nil => simp
    | cons s l ih =>
      have := (readFreq freq s).isLt
      simp only [List.map_cons, List.sum_cons, List.length_cons, Nat.add_mul]; omega
  have := key l
  have := Nat.mul_le_mul_right (2 ^ 32 - 1) h
  omega

theorem leafTrees_total (freq : Vector Freq 256) :
    totalSum (leafTrees freq) = ((positives freq).map fun s => (readFreq freq s).toNat).sum := by
  have h : totalSum (leafTrees freq) = totalSum ((positives freq).map (leafTree freq)) :=
    ((leafTrees_perm freq).map _).sum_eq
  rw [h, totalSum, List.map_map]
  congr 1

theorem leafTrees_made (freq : Vector Freq 256) : Made (leafTrees freq) where
  exact t ht := by
    obtain ⟨s, -, rfl⟩ := List.mem_map.1 ((leafTrees_perm freq).subset ht)
    trivial
  leftmost t ht := by
    obtain ⟨s, -, rfl⟩ := List.mem_map.1 ((leafTrees_perm freq).subset ht)
    trivial
  total := by rw [leafTrees_total]; exact sum_freq_lt freq _ (positives_length_le freq)
  sorted := by rw [leafTrees_eq]; exact foldl_insert_sorted _ _ .nil

/-- What BUILD's tree is, said once, for a vector with a positive frequency. -/
theorem huffman_spec (freq : Vector Freq 256) (h : positives freq ≠ []) :
    ∃ T, huffman freq = some T ∧ T.exact ∧ T.leftmost ∧ T.symbols.Perm (positives freq) ∧
      T.leafSum = ((positives freq).map fun s => (readFreq freq s).toNat).sum ∧
      (∀ d, ∀ x ∈ T.leafDepths d, x.2.1 = freqWeight (readFreq freq x.1)) ∧
      ∀ (len : Byte → Nat) (L : Nat), Fits L ((positives freq).map len) →
        T.costFrom 0 ≤ ((positives freq).map fun s => (readFreq freq s).toNat * len s).sum := by
  have hp := leafTrees_perm freq
  have hlen : (leafTrees freq).length = (positives freq).length := by simpa using hp.length_eq
  obtain ⟨n, hn⟩ : ∃ n, (leafTrees freq).length = n + 1 := by
    have := List.length_pos_of_ne_nil h
    exact ⟨(leafTrees freq).length - 1, by omega⟩
  -- one merge more than needed changes nothing: `mergeTrees` stops at one tree
  obtain ⟨T, h1, h2, h3, h4, h5, h6, h7⟩ := mergeTrees_spec n (leafTrees freq) hn (leafTrees_made freq)
  have hmore : ∀ (n : Nat) (q : List Tree), q.length = n + 1 → mergeTrees (n + 1) q = mergeTrees n q := by
    intro n
    induction n with
    | zero =>
      intro q hq
      match q, hq with
      | [t], _ => simp [mergeTrees]
    | succ n ih =>
      intro q hq
      match q, hq with
      | a :: b :: q, hq =>
        have e1 : mergeTrees (n + 1 + 1) (a :: b :: q) = mergeTrees (n + 1) (insertTree (a.merge b) q) := rfl
        have e2 : mergeTrees (n + 1) (a :: b :: q) = mergeTrees n (insertTree (a.merge b) q) := rfl
        rw [e1, e2, ih _ (by simp at hq ⊢; omega)]
  refine ⟨T, by rw [huffman, hn, hmore n _ hn, h1]; rfl, h2, h3, ?_, by rw [h4, leafTrees_total], ?_, ?_⟩
  · refine h5.trans ((hp.flatMap_right _).trans ?_)
    simp [List.flatMap_map, leafTree, Tree.symbols]
  · refine h6 (fun s w => w = freqWeight (readFreq freq s)) ?_
    intro t ht d x hx
    obtain ⟨s, -, rfl⟩ := List.mem_map.1 (hp.subset ht)
    simp [leafTree, Tree.leafDepths] at hx
    subst hx; rfl
  · intro len L hf
    -- the lengths attached to the leaves, in the order of the priority structure
    have hps : ((leafTrees freq).map fun t => (t, len t.symbol)).map Prod.fst = leafTrees freq := by
      simp [List.map_map, Function.comp_def]
    have hpp : ((leafTrees freq).map fun t => (t, len t.symbol)).Perm
        ((positives freq).map fun s => (leafTree freq s, len s)) := by
      refine (hp.map _).trans ?_
      rw [List.map_map]; exact .refl _
    have hfit : Fits L (((leafTrees freq).map fun t => (t, len t.symbol)).map Prod.snd) := by
      refine hf.perm (List.Perm.symm ((hpp.map _).trans ?_))
      rw [List.map_map]; exact .refl _
    refine (h7 _ L hps hfit).trans (Nat.le_of_eq ?_)
    rw [hangCost_perm hpp, hangCost, List.map_map]
    congr 1
    exact List.map_congr_left fun s _ => by
      simp [leafTree, Tree.costFrom, Tree.leafDepths, Tree.leafSum, freqWeight_toNat]

/-- With no positive frequency there is no tree (40_build.md R153). -/
theorem huffman_none (freq : Vector Freq 256) (h : positives freq = []) : huffman freq = none := by
  have : leafTrees freq = [] := by
    have := (leafTrees_perm freq).length_eq
    rw [h] at this
    simpa using this
  simp [huffman, this, mergeTrees]

end Sys2Proof.Machine
end

