-- ==== Sys2Proof/Laws/Run.lean ====
section
/-! SUPPORT. Runs: the host's `Host.Core.run` step by step, and the faulted state (60_exceptions.md R302). -/

namespace Sys2Proof.Machine

theorem run_succ_next (M : Host.Core) {n : Nat} {s t : M.State} (h : M.step s = .next t) :
    M.run (n + 1) s = M.run n t := by simp [Host.Core.run, h]

theorem run_succ_fault (M : Host.Core) {n : Nat} {s : M.State} {f : M.Fault} (h : M.step s = .fault f) :
    M.run (n + 1) s = .fault f := by simp [Host.Core.run, h]

theorem run_succ_refused (M : Host.Core) {n : Nat} {s : M.State} {r : M.Refusal} (h : M.step s = .refused r) :
    M.run (n + 1) s = .refused r := by simp [Host.Core.run, h]

/-- A command a faulted block meets changes nothing. -/
theorem exec_of_faulted (i : Instr) {s : State} (h : s.err ≠ 0#3) : exec i s = .next s := by
  rw [exec_eq_command, command_faulted h]

/-- What a command that answers a next state has done, faulted or not. -/
theorem next_cases {i : Instr} {s t : State} (h : exec i s = .next t) :
    (s.err ≠ 0#3 ∧ t = s) ∨ (s.err = 0#3 ∧ Effect s i t) := by
  by_cases hs : s.err = 0#3
  · exact .inr ⟨hs, effect_of_next hs h⟩
  · rw [exec_of_faulted i hs] at h; cases h; exact .inl ⟨hs, rfl⟩

theorem execAll_append (is js : List Instr) {s t : State} (h : execAll is s = .next t) :
    execAll (is ++ js) s = execAll js t := by
  induction is generalizing s with
  | nil => cases h; rfl
  | cons i is ih =>
    simp only [List.cons_append, execAll] at h ⊢
    cases hx : exec i s with
    | next u => rw [hx] at h; exact ih h
    | fault f => rw [hx] at h; cases h
    | refused r => rw [hx] at h; cases h

theorem execAll_cons {i : Instr} {is : List Instr} {s t : State} (h : exec i s = .next t) :
    execAll (i :: is) s = execAll is t := by simp only [execAll, h]

end Sys2Proof.Machine
end

