-- ==== Sys2Proof/Laws/Commands.lean ====
section
/-! SUPPORT. What the walks of DEC and HDES and the operations under the other commands can do, said once each, so that
a proof about a command cites them. -/

namespace Sys2Proof.Machine

/-- The fields of `STATUS` (10_state.md R24). -/
theorem status_bits (s : State) : (s.status.getLsbD 0 = s.emptyFlag) ∧ (s.status.getLsbD 1 = s.faultFlag) ∧
    s.status.extractLsb' 2 3 = s.err ∧ s.status.extractLsb' 5 3 = 0#3 := by
  unfold State.status
  generalize s.err = e
  cases s.faultFlag <;> cases s.emptyFlag <;> revert e <;> decide

/-- A read of `FREQ` after a write (40_build.md R142). -/
theorem readFreq_writeFreq (f : Vector Freq 256) (x y : Byte) (v : Freq) : readFreq (writeFreq f x v) y = if y =
    x then v else readFreq f y := by
  unfold readFreq writeFreq
  simp only [Fin.getElem_fin, Vector.getElem_set]
  by_cases h : y = x
  · subst h; simp
  · rw [if_neg h, if_neg]; intro hh; exact h (symIndex_injective (Fin.ext hh.symm))

/-- A read of `FREQ` after FCLR (40_build.md R141). -/
theorem readFreq_clearFreq (x : Byte) : readFreq clearFreq x = 0#32 := by simp [readFreq, clearFreq]

/-- A symbol that is not present has no leaf. -/
theorem leafOf_of_not_present {t : TreeStore} {x : Byte} (h : ¬ t.present x = true) : t.leafOf x = none := by
  simpa [TreeStore.present] using h

/-- A tree with a present symbol has a root. -/
theorem TreeStore.Wf.root_of_present {t : TreeStore} (h : t.Wf) {x : Byte} (hp : t.present x = true) : ∃ r, t.root =
    some r := by
  apply Option.ne_none_iff_exists'.1
  intro hr
  obtain ⟨i, hi⟩ := Option.isSome_iff_exists.1 hp
  obtain ⟨nd, h1, -⟩ := (h.table x i).1 hi
  rw [h.empty hr] at h1; simp at h1

/-- The root is the entry allocated last (40_build.md R159, 43_header.md R222). -/
theorem TreeStore.Wf.root_last {t : TreeStore} (h : t.Wf) {r : Nat} (hr : t.root = some r) : r + 1 = t.nnode := by
  obtain ⟨T, _, _, hlt⟩ := h.view_some hr
  have hl : t.nnode - 1 < t.nodes.length := by unfold TreeStore.nnode at *; omega
  have hg := List.getElem?_eq_getElem hl
  have hpar : t.nodes[t.nnode - 1].parent = none := by
    cases hp : t.nodes[t.nnode - 1].parent with
    | none => rfl
    | some p =>
      obtain ⟨pn, h1, h2⟩ := h.forest.parent _ _ p hg hp
      have := h.forest.downward p pn _ h1 h2
      have := (List.getElem?_eq_some_iff.1 h1).1
      unfold TreeStore.nnode at *; omega
  have := (h.forest.rootOf (t.nnode - 1)).2 ⟨_, hg, hpar⟩
  rw [hr] at this; simp at this; omega

/-- After BUILD the present symbols are those with a positive frequency (40_build.md R145). -/
theorem presentSymbols_buildTree (freq : Vector Freq 256) : (buildTree freq).presentSymbols = positives freq := by
  obtain ⟨h1, h2, h3⟩ := buildTree_spec freq
  unfold TreeStore.presentSymbols positives
  apply List.filter_congr
  intro x _
  have := h3 x
  by_cases hx : readFreq freq x = 0#32
  · simp [hx] at this ⊢; exact this
  · have h2 : (readFreq freq x != 0#32) = true := by simp [hx]
    rw [h2]; exact this.2 hx

/-- The merges of BUILD keep the entries in use and add internal nodes behind them (40_build.md R149). -/
theorem mergeAll_nodes (n : Nat) (t : TreeStore) (q : List Keyed) (hq : ∀ e ∈ q, e.node < t.nnode) :
    SameDown t.nodes (mergeAll n t q).1.nodes ∧ ∀ j nd, t.nnode ≤ j → (mergeAll n t q).1.node? j = some nd →
        nd.isLeaf = false := by
  induction n generalizing t q with
  | zero =>
    refine ⟨SameDown.refl _, fun j nd hj h => ?_⟩
    unfold mergeAll TreeStore.node? at h
    have := (List.getElem?_eq_some_iff.1 h).1
    unfold TreeStore.nnode at hj
    have : j < t.nodes.length := this
    omega
  | succ n ih =>
    rcases q with _ | ⟨a, _ | ⟨b, q⟩⟩
    · refine ⟨SameDown.refl _, fun j nd hj h => ?_⟩
      have : j < t.nodes.length := (List.getElem?_eq_some_iff.1 h).1
      unfold TreeStore.nnode at hj; omega
    · refine ⟨SameDown.refl _, fun j nd hj h => ?_⟩
      have : j < t.nodes.length := (List.getElem?_eq_some_iff.1 h).1
      unfold TreeStore.nnode at hj; omega
    · have ha := hq a (by simp)
      have hb := hq b (by simp)
      have e : mergeAll (n + 1) t (a :: b :: q) = mergeAll n (t.join a b).2 (pqInsert (t.join a b).1 q) := rfl
      rw [e]
      have hq' : ∀ e ∈ pqInsert (t.join a b).1 q, e.node < (t.join a b).2.nnode := by
        intro e he
        rw [(pqInsert_perm _ _).mem_iff] at he
        rw [join_nnode]
        rcases List.mem_cons.1 he with rfl | he
        · show t.nnode < _; omega
        · have := hq e (by simp [he]); omega
      obtain ⟨i1, i2⟩ := ih (t.join a b).2 _ hq'
      refine ⟨(join_sameDown t a b ha hb).trans i1, fun j nd hj hnd => ?_⟩
      rcases Nat.lt_or_ge j (t.join a b).2.nnode with hlt | hge
      · rw [join_nnode] at hlt
        have hjt : j = t.nnode := by omega
        subst hjt
        have hh := join_node? t a b ha hb t.nnode
        rw [if_pos rfl] at hh
        obtain ⟨nd', k1, k2, k3, k4, k5⟩ := i1 _ _ hh
        unfold TreeStore.node? at hnd
        rw [k1] at hnd; cases hnd
        simp [Node.isLeaf, k2]
      · exact i2 j nd hge hnd

/-- Frequencies of zero add nothing. -/
theorem sum_filter_freq (freq : Vector Freq 256) (l : List Byte) : ((l.filter fun s => readFreq freq s !=
    0#32).map fun s => (readFreq freq s).toNat).sum = (l.map fun s => (readFreq freq s).toNat).sum := by
  induction l with
  | nil => rfl
  | cons a l ih =>
    by_cases h : readFreq freq a = 0#32
    · simp [h, ih]
    · simp [h, ih]

/-- The leaves listed with their depths are the leaves from left to right. -/
theorem leafDepths_symbols (T : Tree) (d : Nat) : (T.leafDepths d).map (fun x => x.1) = T.symbols := by
  induction T generalizing d with
  | leaf => rfl
  | node w s l r ihl ihr => simp [Tree.leafDepths, Tree.symbols, ihl, ihr]

/-- The length of a code is the depth of its leaf (10_state.md R41). -/
theorem code_depth (T : Tree) (hn : T.symbols.Nodup) (d : Nat) : ∀ x ∈ T.leafDepths d, x.2.2 =
    d + ((T.code x.1).getD []).length := by
  induction T generalizing d with
  | leaf w s => simp [Tree.leafDepths, Tree.code]
  | node w s l r ihl ihr =>
    simp only [Tree.symbols, List.nodup_append] at hn
    obtain ⟨n1, n2, n3⟩ := hn
    intro x hx
    simp only [Tree.leafDepths, List.mem_append] at hx
    rcases hx with hx | hx
    · have h1 := ihl n1 (d+1) x hx
      have hm : x.1 ∈ l.symbols := by rw [← leafDepths_symbols l (d+1)]; exact List.mem_map.2 ⟨_, hx, rfl⟩
      obtain ⟨bs, hb⟩ := Option.isSome_iff_exists.1 ((code_isSome l x.1).2 hm)
      simp [Tree.code, hb] at h1 ⊢; omega
    · have h1 := ihr n2 (d+1) x hx
      have hm : x.1 ∈ r.symbols := by rw [← leafDepths_symbols r (d+1)]; exact List.mem_map.2 ⟨_, hx, rfl⟩
      obtain ⟨bs, hb⟩ := Option.isSome_iff_exists.1 ((code_isSome r x.1).2 hm)
      have hl : l.code x.1 = none := by
        by_contra hc
        have := (code_isSome l x.1).1 (Option.isSome_iff_ne_none.2 hc)
        exact n3 _ this _ hm rfl
      simp [Tree.code, hb, hl] at h1 ⊢; omega

/-- A code walked from the root ends at its leaf (42_decode.md R192). -/
theorem walk_code_nil {T : Tree} {s : Byte} {bs : List Bit} (h : T.code s = some bs) : T.walk bs = some (s, []) := by
  have := walk_code h []; simpa using this

/-- In a block that is not faulted the tree is well formed. -/
theorem Coherent.wf {s : State} (h : Coherent s) (he : s.err = 0#3) : s.tree.Wf := by
  rcases h.tree with h | ⟨h, -⟩
  · exact h
  · exact absurd he h

/-- Everything DEC can do over a tree (42_decode.md R192, R194). -/
theorem exec_dec {s : State} (h : s.err = 0#3) (hc : Coherent s) {T : Tree} (hv : s.tree.view = some T) : ∃ i :
    InStream, i.bytes = s.inp.bytes ∧ InOk i ∧
    ((∃ v, T.walk s.inp.restBits = some (v, i.restBits) ∧ exec .dec s =
        .next { s with inp := i, sym := v, dout := s.dout ++ [v], cp := s.cp + 1 }) ∨
     (T.walk s.inp.restBits = none ∧ i.pos = s.inp.bytes.length ∧ exec .dec s =
         .next { s with inp := i, err := 2#3 })) := by
  have hw := Coherent.wf hc h
  obtain ⟨r, hr, hT⟩ := TreeStore.view_root hv
  obtain ⟨i, h1, h2, h3⟩ := hT.decWalk hw.forest.downward s.tree.nnode (Nat.le_of_lt hT.lt) s.inp ⟨hc.pos, hc.atEnd⟩
  refine ⟨i, h1, h2, ?_⟩
  rcases h3 with ⟨v, h3, h4⟩ | ⟨h3, h4, h5⟩
  · refine .inl ⟨v, h3, ?_⟩
    rw [exec_eq_command, command_ok (u := ()) (t := emitSymbol v { s with inp := i }) h]
    · rfl
    · simp [body, decBody, hr, h4]
  · refine .inr ⟨h3, h4, ?_⟩
    rw [exec_eq_command, command_raise (k := .truncatedStream) (t := { s with inp := i }) h]
    · rfl
    · simp [body, decBody, hr, h5]

/-- How many bytes of `IN` are left. -/
theorem restBytes_length (i : InStream) : i.restBytes.length = i.bytes.length - i.pos := by simp [InStream.restBytes]

/-- A header is not empty (30_encoding.md R113). -/
theorem header_pos (T : Tree) : 0 < T.header.length := by have := header_length T; have := leaves_pos T; omega

/-- Two aligned positions on the same bytes differ in `pos` only. -/
theorem inStream_pos {i i' : InStream} (hb : i'.bytes = i.bytes) (h : i.bit = 0) (h' : i'.bit = 0) : i' =
    { i with pos := i'.pos } := by
  rcases i with ⟨a, b, c⟩; rcases i' with ⟨a', b', c'⟩; simp at *; exact ⟨hb, by rw [h, h']⟩

/-- HDES starts from an empty store on an aligned stream (43_header.md R221). -/
theorem loaderOk_start {s : State} (hb : s.inp.bit = 0) (hp : s.inp.pos ≤ s.inp.bytes.length) :
    LoaderOk { inp := s.inp, tree := TreeStore.empty } [] :=
  ⟨growing_empty, hb, hp, fun _ => hb⟩

/-- The tree that stands at the root is the tree of the store. -/
theorem view_of_stands {t : TreeStore} {e : Keyed} {T : Tree} (hs : Stands t.nodes e T) (hw :
    ({ t with root := some e.node } : TreeStore).Wf) : ({ t with root := some e.node } : TreeStore).view = some T :=
    by
  obtain ⟨T', h1, h2, -⟩ := hw.view_some (r := e.node) rfl
  rw [h1]; rw [h2.det hs.1]

/-- HDES on a stream in the middle of a byte (43_header.md R221). -/
theorem exec_hdes_misaligned {s : State} (h : s.err = 0#3) (hb : s.inp.bit ≠ 0) : exec .hdes s =
    .next { s with err := 6#3 } := by
  rw [exec_eq_command, command_raise (k := .misaligned) (t := s) h]
  · rfl
  · unfold body hdesBody; dsimp only; rw [if_neg hb]

/-- HDES raises what its recursion raises, with `ROOT` still `NULL` (43_header.md R227). -/
theorem exec_hdes_raise {s : State} (h : s.err = 0#3) (hb : s.inp.bit = 0) {k : FaultKind} {d : Loader} (hd :
    des pathMax { inp := s.inp, tree := TreeStore.empty } = .raise k d) :
    exec .hdes s = .next { s with inp := d.inp, tree := d.tree, err := k.code } ∧ d.tree.root = none := by
  obtain ⟨df, f1, f2, f3⟩ := des_frame pathMax { inp := s.inp, tree := TreeStore.empty } hb
  have hdf : df = d := by rcases f3 with ⟨e, f3⟩ | f3 | f3 <;> rw [hd] at f3 <;> cases f3 <;> rfl
  subst hdf
  refine ⟨?_, f2⟩
  rw [exec_eq_command, command_raise (k := k) (t := { s with inp := df.inp, tree := df.tree }) h]
  · rfl
  · unfold body hdesBody; dsimp only; rw [if_pos hb, hd, within_raise, bind_raise]

/-- HDES with no byte left (43_header.md R222). -/
theorem exec_hdes_beyond {s : State} (h : s.err = 0#3) (hb : s.inp.bit = 0) (hp : s.inp.restBytes = []) :
    exec .hdes s = .next { s with tree := TreeStore.empty, err := 2#3 } := by
  rw [exec_eq_command, command_raise (k := .truncatedStream) (t := { s with tree := TreeStore.empty }) h]
  · rfl
  · unfold body hdesBody pathMax; dsimp only; rw [if_pos hb]
    unfold des Loader.needByte; rw [needByte_nil hb hp]; rfl

/-- Everything HDES can do on an aligned stream (43_header.md R222 to R227). -/
theorem exec_hdes_cases {s : State} (h : s.err = 0#3) (hb : s.inp.bit = 0) :
   (∃ (T : Tree) (t : TreeStore) (i : InStream), t.Wf ∧ t.view = some T ∧ T.rebuilt = T ∧ T.symbols.Nodup ∧
       s.inp.restBytes = T.header ++ i.restBytes ∧ i = { s.inp with pos := s.inp.pos + T.header.length } ∧ InOk i ∧
      (∀ x, t.present x = true ↔ x ∈ T.symbols) ∧ exec .hdes s =
          .next { s with inp := i, tree := t, cp := s.cp + 1 }) ∨
   (∃ (k : FaultKind) (t : TreeStore) (i : InStream), (k = .truncatedStream ∨ k = .badFormat) ∧ t.root = none ∧ i =
       { s.inp with pos := i.pos } ∧ (s.inp.pos ≤ s.inp.bytes.length → InOk i ∧ t.nnode ≤ nodeMax) ∧ exec .hdes s =
       .next { s with inp := i, tree := t, err := k.code }) := by
  by_cases hp : s.inp.pos ≤ s.inp.bytes.length
  · obtain ⟨df, f1, f2, f3⟩ := des_frame pathMax { inp := s.inp, tree := TreeStore.empty } hb
    rcases des_cases pathMax (loaderOk_start hb hp) with ⟨e, d, T, h1, h2⟩ | ⟨k, d, h1, h2⟩
    · have hw := (h2.loader.growing).wf (r := some e.node)
      have hv := view_of_stands h2.stands hw
      refine .inl ⟨T, _, d.inp, hw, hv, h2.rebuilt, hw.symbols_nodup hv, h2.rest, ?_, h2.loader.inOk, fun x => ?_, ?_⟩
      · have := inStream_pos h2.bytes hb h2.loader.aligned
        rw [this, h2.pos]
      · show d.tree.present x = true ↔ _
        rw [h2.present x]; simp [TreeStore.present]
      · rw [exec_eq_command, command_ok (u := ()) (t := { s with inp := d.inp, tree := { d.tree with root := some e.node } }) h]
        · rfl
        · unfold body hdesBody; dsimp only; rw [if_pos hb, h1, within_ok, bind_ok]
    · obtain ⟨rs, hl⟩ := h2.loader
      have hdf : df = d := by
        rcases f3 with ⟨e, f3⟩ | f3 | f3 <;> rw [h1] at f3 <;> cases f3 <;> rfl
      subst hdf
      refine .inr ⟨k, df.tree, df.inp, h2.kind, f2, inStream_pos h2.bytes hb hl.aligned, fun _ => ⟨hl.inOk,
          hl.growing.nnode_le⟩, ?_⟩
      rw [exec_eq_command, command_raise (k := k) (t := { s with inp := df.inp, tree := df.tree }) h]
      · rfl
      · unfold body hdesBody; dsimp only; rw [if_pos hb, h1, within_raise, bind_raise]
  · refine .inr ⟨.truncatedStream, TreeStore.empty, s.inp, .inl rfl, rfl, rfl, fun h => absurd h hp, ?_⟩
    rw [exec_hdes_beyond h hb]
    · rfl
    · apply List.length_eq_zero_iff.1; rw [restBytes_length]; omega

/-- A due byte that is there. -/
theorem loader_needByte_cons {d : Loader} (hb : d.inp.bit = 0) {v : Byte} {vs : List Byte} (h : d.inp.restBytes =
    v :: vs) :
    d.needByte = .ok v { d with inp := { d.inp with pos := d.inp.pos + 1 } } ∧ ({ d.inp with pos := d.inp.pos + 1 } :
        InStream).restBytes = vs ∧ d.inp.pos < d.inp.bytes.length := by
  obtain ⟨h1, h2, h3⟩ := needByte_cons hb h
  exact ⟨by simp only [Loader.needByte, h1, within_ok], h2, h3⟩

/-- A due byte that is not there. -/
theorem loader_needByte_nil {d : Loader} (hb : d.inp.bit = 0) (h : d.inp.restBytes = []) : d.needByte =
    .raise .truncatedStream d := by
  simp [Loader.needByte, needByte_nil hb h]

/-- At the end of the bytes. -/
theorem pos_of_rest_nil {i : InStream} (h : i.restBytes = []) (hp : i.pos ≤ i.bytes.length) : i.pos =
    i.bytes.length := by
  have := congrArg List.length h; rw [restBytes_length] at this; simp at this; omega

/-- Reading one byte keeps the loader in order. -/
theorem LoaderOk.step {d : Loader} {rs} (h : LoaderOk d rs) (hp : d.inp.pos < d.inp.bytes.length) :
    LoaderOk { d with inp := { d.inp with pos := d.inp.pos + 1 } } rs :=
  ⟨h.growing, h.aligned, by show d.inp.pos + 1 ≤ _; exact hp, fun _ => h.aligned⟩

/-- HDES on a header cut short (43_header.md R222, R225). -/
theorem des_prefix (T : Tree) : ∀ {room : Nat} {d : Loader} {rs : List Nat} {p : List Byte}, LoaderOk d rs →
    d.inp.restBytes = p → p <+: T.header → p ≠ T.header →
    T.symbols.Nodup → (∀ x ∈ T.symbols, d.tree.leafOf x = none) → T.height ≤ room →
    ∃ d' : Loader, des room d = .raise .truncatedStream d' ∧ d'.inp.pos = d.inp.bytes.length ∧ d'.inp.bytes =
        d.inp.bytes ∧ d'.inp.bit = 0 := by
  induction T with
  | leaf w s =>
    intro room d rs p hl hr hp hne _ _ _
    rcases p with _ | ⟨a, p⟩
    · refine ⟨d, ?_, pos_of_rest_nil hr hl.inOk.1, rfl, hl.aligned⟩
      unfold des; rw [loader_needByte_nil hl.aligned hr]; rfl
    · obtain ⟨q, hq⟩ := hp
      simp [Tree.header] at hq
      obtain ⟨rfl, hq⟩ := hq
      rcases p with _ | ⟨b, p⟩
      · obtain ⟨n1, n2, n3⟩ := loader_needByte_cons hl.aligned hr
        have hl' := LoaderOk.step hl n3
        refine ⟨{ d with inp := { d.inp with pos := d.inp.pos + 1 } }, ?_, pos_of_rest_nil n2 hl'.inOk.1, rfl,
            hl.aligned⟩
        unfold des; rw [n1, bind_ok, if_pos rfl]; unfold desLeaf
        rw [loader_needByte_nil (d := { d with inp := { d.inp with pos := d.inp.pos + 1 } }) hl.aligned n2, bind_raise]
      · exfalso; apply hne
        simp at hq; obtain ⟨rfl, hq, _⟩ := hq; subst hq; rfl
  | node w s L R ihL ihR =>
    intro room d rs p hl hr hp hne hn hf hh
    rcases p with _ | ⟨a, p⟩
    · refine ⟨d, ?_, pos_of_rest_nil hr hl.inOk.1, rfl, hl.aligned⟩
      unfold des; rw [loader_needByte_nil hl.aligned hr]; rfl
    · have hh' : max L.height R.height + 1 ≤ room := hh
      obtain ⟨room, rfl⟩ : ∃ m, room = m + 1 := ⟨room - 1, by omega⟩
      obtain ⟨q, hq⟩ := hp
      simp only [Tree.header, List.cons_append, List.cons.injEq] at hq
      obtain ⟨rfl, hq⟩ := hq
      have hne' : p ≠ L.header ++ R.header := fun e => hne (by rw [e]; rfl)
      obtain ⟨n1, n2, n3⟩ := loader_needByte_cons hl.aligned hr
      have hl' := LoaderOk.step hl n3
      simp only [Tree.symbols, List.nodup_append] at hn
      have hd : ∀ X : Run Loader Keyed, des (room + 1) d = X ↔
          ((des room { d with inp := { d.inp with pos := d.inp.pos + 1 } }).bind fun l d => (des room d).bind fun r d
          => let (e, t) := d.tree.join l r; .ok e { d with tree := t }) = X := by
        intro X; conv_lhs => unfold des
        rw [n1, bind_ok, if_neg (by decide), if_pos rfl]
      by_cases hlen : p.length < L.header.length
      · have hpre : p <+: L.header := by
          have h1 : p <+: L.header ++ R.header := ⟨q, hq⟩
          exact List.prefix_of_prefix_length_le h1 (List.prefix_append ..) (by omega)
        obtain ⟨d', e1, e2, e3, e4⟩ := ihL hl' n2 hpre (by intro e; rw [e] at hlen; omega) hn.1 (fun x hx => hf x (by
            simp [Tree.symbols, hx])) (by omega : L.height ≤ room)
        refine ⟨d', ?_, e2, e3, e4⟩
        rw [hd, e1, bind_raise]
      · have hpre : L.header <+: p := List.prefix_of_prefix_length_le ⟨R.header, rfl⟩ ⟨q, hq⟩ (by omega)
        obtain ⟨p2, rfl⟩ := hpre
        rw [List.append_assoc] at hq
        have hq := List.append_cancel_left hq
        obtain ⟨e, d1, e1, e2, e3⟩ := des_header L (room :=
            room) hl' n2 hn.1 (fun x hx => hf x (by simp [Tree.symbols, hx])) (by omega)
        have hf2 : ∀ x ∈ R.symbols, d1.tree.leafOf x = none := by
          intro x hx
          apply leafOf_of_not_present
          rw [e2.present x, rebuilt_symbols]
          rintro (h | h)
          · have := hf x (by simp [Tree.symbols, hx]); simp [TreeStore.present, this] at h
          · exact hn.2.2 _ h _ hx rfl
        obtain ⟨d', g1, g2, g3, g4⟩ := ihR e2.loader e3 ⟨q, hq⟩ (by rintro rfl; exact hne' rfl) hn.2.1 hf2 (by omega :
            R.height ≤ room)
        refine ⟨d', ?_, g2.trans (congrArg List.length e2.bytes), g3.trans e2.bytes, g4⟩
        rw [hd, e1, bind_ok, g1, bind_raise]

/-- HDES on a header that names a symbol twice, or one already loaded (43_header.md R224). -/
theorem des_duplicate (T : Tree) : ∀ {room : Nat} {d : Loader} {rs : List Nat} {rest : List Byte}, LoaderOk d rs →
    d.inp.restBytes = T.header ++ rest →
    ¬ (T.symbols.Nodup ∧ (∀ x ∈ T.symbols, d.tree.leafOf x = none)) → T.height ≤ room → ∃ d' : Loader, des room d =
        .raise .badFormat d' := by
  induction T with
  | leaf w s =>
    intro room d rs rest hl hr hn _
    simp only [Tree.header, List.cons_append, List.nil_append] at hr
    obtain ⟨n1, n2, n3⟩ := loader_needByte_cons hl.aligned hr
    obtain ⟨m1, m2, m3⟩ := loader_needByte_cons (d :=
        { d with inp := { d.inp with pos := d.inp.pos + 1 } }) hl.aligned n2
    simp [Tree.symbols] at hn
    obtain ⟨i, hi⟩ := Option.ne_none_iff_exists'.1 hn
    refine ⟨{ d with inp := { d.inp with pos := d.inp.pos + 1 + 1 } }, ?_⟩
    unfold des; rw [n1, bind_ok, if_pos rfl]; unfold desLeaf; rw [m1, bind_ok]; dsimp only; rw [hi]
  | node w s L R ihL ihR =>
    intro room d rs rest hl hr hn hh
    have hh' : max L.height R.height + 1 ≤ room := hh
    obtain ⟨room, rfl⟩ : ∃ m, room = m + 1 := ⟨room - 1, by omega⟩
    simp only [Tree.header, List.cons_append, List.append_assoc] at hr
    obtain ⟨n1, n2, n3⟩ := loader_needByte_cons hl.aligned hr
    have hl' := LoaderOk.step hl n3
    have hd : ∀ X : Run Loader Keyed, des (room + 1) d = X ↔
        ((des room { d with inp := { d.inp with pos := d.inp.pos + 1 } }).bind fun l d => (des room d).bind fun r d
        => let (e, t) := d.tree.join l r; .ok e { d with tree := t }) = X := by
        intro X; conv_lhs => unfold des
        rw [n1, bind_ok, if_neg (by decide), if_pos rfl]
    by_cases hL : L.symbols.Nodup ∧ (∀ x ∈ L.symbols, d.tree.leafOf x = none)
    · obtain ⟨e, d1, e1, e2, e3⟩ := des_header L (room := room) hl' n2 hL.1 hL.2 (by omega)
      have hR : ¬ (R.symbols.Nodup ∧ (∀ x ∈ R.symbols, d1.tree.leafOf x = none)) := by
        rintro ⟨r1, r2⟩
        apply hn
        have key : ∀ x ∈ R.symbols, d.tree.leafOf x = none ∧ x ∉ L.symbols := by
          intro x hx
          have h1 := r2 x hx
          have h2 : ¬ d1.tree.present x = true := by simp [TreeStore.present, h1]
          rw [e2.present x, rebuilt_symbols, not_or] at h2
          exact ⟨leafOf_of_not_present h2.1, h2.2⟩
        constructor
        · simp only [Tree.symbols, List.nodup_append]
          refine ⟨hL.1, r1, fun a ha b hb hab => (key b hb).2 (hab ▸ ha)⟩
        · intro x hx
          simp only [Tree.symbols, List.mem_append] at hx
          rcases hx with hx | hx
          · exact hL.2 x hx
          · exact (key x hx).1
      obtain ⟨d', g⟩ := ihR e2.loader e3 hR (by omega : R.height ≤ room)
      exact ⟨d', by rw [hd, e1, bind_ok, g, bind_raise]⟩
    · obtain ⟨d', g⟩ := ihL hl' n2 hL (by omega : L.height ≤ room)
      exact ⟨d', by rw [hd, g, bind_raise]⟩

/-- HDES on internal marks, then a byte that is no mark or an internal mark too many (43_header.md R222, R226). -/
theorem des_badMark (n : Nat) : ∀ {room : Nat} {d : Loader} {m : Byte} {rest : List Byte}, d.inp.bit = 0 → n ≤ room →
    m ≠ 0#8 ∧ m ≠ 1#8 ∨ m = 0#8 ∧ n = room → d.inp.restBytes = List.replicate n 0#8 ++ m :: rest →
    des room d = .raise .badFormat { d with inp := { d.inp with pos := d.inp.pos + (n + 1) } } := by
  induction n with
  | zero =>
    intro room d m rest hb hn hm hr
    obtain ⟨n1, n2, n3⟩ := loader_needByte_cons hb hr
    rcases hm with ⟨h0, h1⟩ | ⟨rfl, rfl⟩
    · unfold des; rw [n1, bind_ok, if_neg (by exact h1), if_neg (by exact h0)]
    · unfold des; rw [n1, bind_ok, if_neg (by decide), if_pos (by decide)]
  | succ n ih =>
    intro room d m rest hb hn hm hr
    obtain ⟨room, rfl⟩ : ∃ m, room = m + 1 := ⟨room - 1, by omega⟩
    rw [List.replicate_succ, List.cons_append] at hr
    obtain ⟨n1, n2, n3⟩ := loader_needByte_cons hb hr
    have := ih (room := room) (d := { d with inp := { d.inp with pos := d.inp.pos + 1 } }) hb (by omega) (hm.imp id
        fun h => ⟨h.1, by omega⟩) n2
    conv_lhs => unfold des
    rw [n1, bind_ok, if_neg (by decide), if_pos (by rfl)]; dsimp only
    rw [this, bind_raise]; dsimp only
    rw [show d.inp.pos + 1 + (n + 1) = d.inp.pos + (n + 1 + 1) by omega]

/-- `write_bit` with fewer than seven bits gathered (20_memory.md R62). -/
theorem writeBit_of_lt (b : Bit) (o : OutStream) (h : o.nbits.val < 7) : writeBit b o =
    { bytes := o.bytes, acc := (o.acc <<< 1) ||| (BitVec.ofBool b).setWidth 8, nbits := o.nbits + 1 } := by
  unfold writeBit; dsimp only; rw [if_neg]; intro hc; rw [hc] at h; simp at h

/-- `write_bit` of the eighth bit (20_memory.md R62). -/
theorem writeBit_of_seven (b : Bit) (o : OutStream) (h : o.nbits = 7) : writeBit b o =
    { bytes := o.bytes ++ [(o.acc <<< 1) ||| (BitVec.ofBool b).setWidth 8], acc := 0#8, nbits := 0 } := by
  unfold writeBit; dsimp only; rw [if_pos h]

end Sys2Proof.Machine
end

