-- ==== Sys2Proof/Laws/Begun.lean ====
section
/-! SUPPORT. The descent of HDES over a header read in part: it raises a fault exactly where the bytes stop being the
beginning of one (43_header.md R222, R225, R226). -/

namespace Sys2Proof.Machine

/-- The descent at an internal marker with room for it (43_header.md R222). -/
theorem des_step {room : Nat} {d : Loader} {vs : List Byte} (hb : d.inp.bit = 0)
    (h : d.inp.restBytes = markInternal :: vs) :
    des (room + 1) d = (des room { d with inp := { d.inp with pos := d.inp.pos + 1 } }).bind fun l d =>
      (des room d).bind fun r d => .ok (d.tree.join l r).1 { d with tree := (d.tree.join l r).2 } := by
  obtain ⟨n1, -, -⟩ := loader_needByte_cons hb h
  conv_lhs => unfold des
  rw [n1, bind_ok, if_neg (by decide), if_pos rfl]

/-- From the beginning of a header the descent comes to the place where the next marker is due, and a fault raised there
is its fault. -/
theorem des_begun {q : List Byte} : ∀ (ps : List (Option Tree)) {room : Nat} {d : Loader} {rs : List Nat}, LoaderOk d rs →
    d.inp.restBytes = begunBytes ps ++ q → begunFits room ps → (begunSymbols ps).Nodup →
    (∀ x ∈ begunSymbols ps, d.tree.leafOf x = none) →
    ∃ (d' : Loader) (rs' : List Nat), LoaderOk d' rs' ∧ d'.inp.restBytes = q ∧ d'.inp.bytes = d.inp.bytes ∧
      d'.inp.pos = d.inp.pos + (begunBytes ps).length ∧
      (∀ x, d'.tree.present x = true ↔ d.tree.present x = true ∨ x ∈ begunSymbols ps) ∧
      ∀ k d'', des (room - ps.length) d' = .raise k d'' → des room d = .raise k d'' := by
  intro ps
  induction ps with
  | nil =>
    intro room d rs h hr _ _ _
    exact ⟨d, rs, h, hr, rfl, rfl, by simp [begunSymbols], fun k d'' hd => hd⟩
  | cons p ps ih =>
    intro room d rs h hr hfit hn hf
    cases room with
    | zero => cases p <;> exact hfit.elim
    | succ room =>
      cases p with
      | none =>
        obtain ⟨n1, n2, n3⟩ := loader_needByte_cons h.aligned hr
        obtain ⟨d', rs', h1, h2, h3, h4, h5, h6⟩ := ih (h.step n3) n2 hfit hn hf
        refine ⟨d', rs', h1, h2, h3, ?_, h5, fun k d'' hd => ?_⟩
        · rw [h4]; simp [begunBytes]; omega
        · rw [List.length_cons, Nat.add_sub_add_right] at hd
          rw [des_step h.aligned hr, h6 k d'' hd, bind_raise]
      | some l =>
        obtain ⟨hl, hfit⟩ := hfit
        obtain ⟨nl, nr, hdis⟩ := List.nodup_append.1 hn
        simp only [begunBytes, List.cons_append, List.append_assoc] at hr
        obtain ⟨n1, n2, n3⟩ := loader_needByte_cons h.aligned hr
        obtain ⟨e, d1, e1, e2, e3⟩ := des_header l (h.step n3) n2 nl (fun x hx => hf x (by simp [begunSymbols, hx])) hl
        have hf2 : ∀ x ∈ begunSymbols ps, d1.tree.leafOf x = none := by
          intro x hx
          apply leafOf_of_not_present
          rw [e2.present x, rebuilt_symbols]
          rintro (hp | hp)
          · have := hf x (by simp [begunSymbols, hx]); simp [TreeStore.present, this] at hp
          · exact hdis x hp x hx rfl
        obtain ⟨d', rs', h1, h2, h3, h4, h5, h6⟩ := ih e2.loader e3 hfit nr hf2
        refine ⟨d', rs', h1, h2, h3.trans e2.bytes, ?_, fun x => ?_, fun k d'' hd => ?_⟩
        · rw [h4, e2.pos, rebuilt_header]; simp [begunBytes]; omega
        · rw [h5 x, e2.present x, rebuilt_symbols]; simp [begunSymbols, or_assoc]
        · rw [List.length_cons, Nat.add_sub_add_right] at hd
          rw [des_step h.aligned hr, e1, bind_ok, h6 k d'' hd, bind_raise]

/-- A descent that returns has read the header of some tree. -/
theorem desOk_of_ok {room : Nat} {d d' : Loader} {rs : List Nat} {e : Keyed} (h : LoaderOk d rs) (hd : des room d = .ok e d') :
    ∃ T, DesOk d d' rs e T := by
  rcases des_cases room h with ⟨e1, d1, T, h1, o⟩ | ⟨k, d1, h1, -⟩
  · rw [hd] at h1; cases h1; exact ⟨T, o⟩
  · rw [hd] at h1; cases h1

/-- That tree is no deeper than the room allows (43_header.md R226). -/
theorem des_ok_height (room : Nat) : ∀ {d d' : Loader} {rs : List Nat} {e : Keyed} {T : Tree}, LoaderOk d rs →
    des room d = .ok e d' → DesOk d d' rs e T → T.height ≤ room := by
  induction room with
  | zero =>
    intro d d' rs e T h hd ho
    cases T with
    | leaf => exact Nat.zero_le _
    | node w s l r =>
      obtain ⟨n1, -, -⟩ := loader_needByte_cons h.aligned (show d.inp.restBytes = markInternal :: _ from ho.rest)
      unfold des at hd
      rw [n1, bind_ok, if_neg (by decide), if_pos rfl] at hd
      cases hd
  | succ room ih =>
    intro d d' rs e T h hd ho
    cases T with
    | leaf => exact Nat.zero_le _
    | node w s l r =>
      have hr : d.inp.restBytes = markInternal :: (l.header ++ (r.header ++ d'.inp.restBytes)) := by
        rw [ho.rest]; simp [Tree.header]
      obtain ⟨-, n2, n3⟩ := loader_needByte_cons h.aligned hr
      rw [des_step h.aligned hr] at hd
      obtain ⟨a, d1, ha, hd⟩ := bind_eq_ok hd
      obtain ⟨b, d2, hb, hd⟩ := bind_eq_ok hd
      cases hd
      obtain ⟨L, o1⟩ := desOk_of_ok (h.step n3) ha
      obtain ⟨R, o2⟩ := desOk_of_ok o1.loader hb
      have q1 := n2.symm.trans o1.rest
      obtain ⟨e1, e2⟩ := header_prefix q1
      have q2 := e2.trans o2.rest
      obtain ⟨e3, -⟩ := header_prefix q2
      have i1 := ih (h.step n3) ha o1
      have i2 := ih o1.loader hb o2
      have hre := ho.rebuilt
      simp only [Tree.rebuilt, Tree.node.injEq] at hre
      rw [o1.rebuilt] at e1; rw [o2.rebuilt] at e3
      rw [hre.2.2.1] at e1; rw [hre.2.2.2] at e3
      subst e1; subst e3
      simp only [Tree.height]; omega

/-- And its symbols are new and all different (43_header.md R225). -/
theorem des_ok_fits {room : Nat} {d d' : Loader} {rs : List Nat} {e : Keyed} {T : Tree} (h : LoaderOk d rs)
    (hd : des room d = .ok e d') (ho : DesOk d d' rs e T) : T.symbols.Nodup ∧ (∀ x ∈ T.symbols, d.tree.leafOf x = none) ∧ T.height ≤ room := by
  have hh := des_ok_height room h hd ho
  by_contra hc
  have : ¬ (T.symbols.Nodup ∧ ∀ x ∈ T.symbols, d.tree.leafOf x = none) := fun hx => hc ⟨hx.1, hx.2, hh⟩
  obtain ⟨d2, h2⟩ := des_duplicate T h ho.rest this hh
  rw [hd] at h2; cases h2

/-- What stands where a descent raises `k`, the place being `ps`: nothing, a leaf marker alone, no marker, a leaf with a
symbol seen before, an internal marker with no room for it (43_header.md R225). -/
inductive FaultAt (room : Nat) (ps : List (Option Tree)) (seen : Byte → Prop) : FaultKind → List Byte → Prop where
  | noMarker : FaultAt room ps seen .truncatedStream []
  | noSymbol : FaultAt room ps seen .truncatedStream [markLeaf]
  | badMarker (m : Byte) (rest : List Byte) : m ≠ markLeaf → m ≠ markInternal →
      FaultAt room ps seen .badFormat (m :: rest)
  | seenBefore (x : Byte) (rest : List Byte) : seen x ∨ x ∈ begunSymbols ps →
      FaultAt room ps seen .badFormat (markLeaf :: x :: rest)
  | noRoom (rest : List Byte) : ps.length = room → FaultAt room ps seen .badFormat (markInternal :: rest)

/-- The same fault, one open node further out. -/
theorem FaultAt.outer {room : Nat} {p : Option Tree} {ps : List (Option Tree)} {seen seen' : Byte → Prop}
    {k : FaultKind} {q : List Byte} (h : FaultAt room ps seen k q)
    (hs : ∀ x, seen x ∨ x ∈ begunSymbols ps → seen' x ∨ x ∈ begunSymbols (p :: ps)) :
    FaultAt (room + 1) (p :: ps) seen' k q := by
  cases h with
  | noMarker => exact .noMarker
  | noSymbol => exact .noSymbol
  | badMarker m rest h1 h2 => exact .badMarker m rest h1 h2
  | seenBefore x rest hx => exact .seenBefore x rest (hs x hx)
  | noRoom rest hl => exact .noRoom rest (by rw [List.length_cons, hl])

/-- A descent that raises does so on the bytes it stands on, or has gone into an internal node. -/
theorem des_raise_head {room : Nat} {d d' : Loader} {rs : List Nat} {k : FaultKind} (h : LoaderOk d rs)
    (hd : des room d = .raise k d') :
    FaultAt room [] (fun x => d.tree.present x = true) k d.inp.restBytes ∨
      ∃ room' vs, room = room' + 1 ∧ d.inp.restBytes = markInternal :: vs := by
  unfold des at hd
  rcases Loader.needByte_cases h with ⟨hr, hn⟩ | ⟨m, i, hr, -, -, hn, hl⟩
  · rw [hn, bind_raise] at hd; cases hd
    rw [hr]; exact .inl .noMarker
  · rw [hn, bind_ok] at hd
    by_cases hm : m = markLeaf
    · subst hm
      rw [if_pos rfl] at hd; unfold desLeaf at hd
      rcases Loader.needByte_cases hl with ⟨hr2, hn2⟩ | ⟨v, i2, hr2, -, -, hn2, -⟩
      · rw [hn2, bind_raise] at hd; cases hd
        simp only at hr2
        rw [hr, hr2]; exact .inl .noSymbol
      · rw [hn2, bind_ok] at hd
        simp only at hr2 hd
        split at hd
        · rename_i j hj
          cases hd
          rw [hr, hr2]; exact .inl (.seenBefore v _ (.inl (by simp [TreeStore.present, hj])))
        · cases hd
    · by_cases hi : m = markInternal
      · subst hi
        cases room with
        | zero => cases hd; rw [hr]; exact .inl (.noRoom _ rfl)
        | succ room => exact .inr ⟨room, _, rfl, hr⟩
      · rw [if_neg hm, if_neg hi] at hd; cases hd
        rw [hr]; exact .inl (.badMarker m _ hm hi)

/-- A descent that raises has read the beginning of a header up to what it raises on (43_header.md R225). -/
theorem des_raise_begun (room : Nat) : ∀ {d d' : Loader} {rs : List Nat} {k : FaultKind}, LoaderOk d rs →
    des room d = .raise k d' → ∃ ps q, d.inp.restBytes = begunBytes ps ++ q ∧ begunFits room ps ∧
      (begunSymbols ps).Nodup ∧ (∀ x ∈ begunSymbols ps, d.tree.leafOf x = none) ∧
      FaultAt room ps (fun x => d.tree.present x = true) k q := by
  induction room with
  | zero =>
    intro d d' rs k h hd
    rcases des_raise_head h hd with hf | ⟨_, _, h0, -⟩
    · exact ⟨[], _, rfl, trivial, List.nodup_nil, by simp [begunSymbols], hf⟩
    · cases h0
  | succ room ih =>
    intro d d' rs k h hd
    rcases des_raise_head h hd with hf | ⟨_, vs, -, hr⟩
    · exact ⟨[], _, rfl, trivial, List.nodup_nil, by simp [begunSymbols], hf⟩
    rw [des_step h.aligned hr] at hd
    obtain ⟨-, n2, n3⟩ := loader_needByte_cons h.aligned hr
    have hl := h.step n3
    rcases bind_eq_raise hd with hd | ⟨a, d1, ha, hd⟩
    · obtain ⟨ps, q, h1, h2, h3, h4, h5⟩ := ih hl hd
      have h1 := n2.symm.trans h1
      exact ⟨none :: ps, q, by rw [hr, h1]; rfl, h2, h3, h4, h5.outer fun x hx => hx⟩
    · obtain ⟨L, o1⟩ := desOk_of_ok hl ha
      obtain ⟨f1, f2, f3⟩ := des_ok_fits hl ha o1
      rcases bind_eq_raise hd with hd | ⟨b, d2, -, hd⟩
      · obtain ⟨ps, q, h1, h2, h3, h4, h5⟩ := ih o1.loader hd
        have e1 := n2.symm.trans o1.rest
        have old : ∀ x, d1.tree.leafOf x = none → ¬ (d.tree.present x = true ∨ x ∈ L.symbols) := by
          intro x hx hp
          have := (o1.present x).2 hp
          simp [TreeStore.present, hx] at this
        refine ⟨some L :: ps, q, by rw [hr, e1, h1]; simp [begunBytes], ⟨f3, h2⟩, ?_, ?_, h5.outer ?_⟩
        · exact List.nodup_append.2 ⟨f1, h3, fun a ha b hb hab => old b (h4 b hb) (.inr (hab ▸ ha))⟩
        · intro x hx
          rcases List.mem_append.1 hx with hx | hx
          · exact f2 x hx
          · exact leafOf_of_not_present fun hp => old x (h4 x hx) (.inl hp)
        · intro x hx
          rcases hx with hx | hx
          · exact ((o1.present x).1 hx).imp_right fun hx => List.mem_append.2 (.inl hx)
          · exact .inr (List.mem_append.2 (.inr hx))
      · cases hd

/-- What the descent does on each of those bytes where it stands on them. -/
theorem des_here_raise {room : Nat} {d : Loader} {rs : List Nat} (h : LoaderOk d rs) :
    (d.inp.restBytes = [] ∨ d.inp.restBytes = [0x01#8] →
      ∃ d', des room d = .raise .truncatedStream d' ∧ d'.inp.pos = d.inp.bytes.length) ∧
    (∀ m rest, m ≠ 0x00#8 → m ≠ 0x01#8 → d.inp.restBytes = m :: rest →
      ∃ d', des room d = .raise .badFormat d' ∧ d'.inp.pos = d.inp.pos + 1) ∧
    (∀ x rest, d.tree.present x = true → d.inp.restBytes = 0x01#8 :: x :: rest →
      ∃ d', des room d = .raise .badFormat d' ∧ d'.inp.pos = d.inp.pos + 2) ∧
    ∀ rest, room = 0 → d.inp.restBytes = 0x00#8 :: rest →
      ∃ d', des room d = .raise .badFormat d' ∧ d'.inp.pos = d.inp.pos + 1 := by
  refine ⟨?_, fun m rest h0 h1 hr => ?_, fun x rest hx hr => ?_, fun rest h0 hr => ?_⟩
  · rintro (hr | hr)
    · exact ⟨d, by unfold des; rw [loader_needByte_nil h.aligned hr, bind_raise], pos_of_rest_nil hr h.inOk.1⟩
    · obtain ⟨n1, n2, n3⟩ := loader_needByte_cons h.aligned hr
      refine ⟨{ d with inp := { d.inp with pos := d.inp.pos + 1 } }, ?_, pos_of_rest_nil n2 (h.step n3).inOk.1⟩
      unfold des; rw [n1, bind_ok, if_pos (by rfl)]; unfold desLeaf
      rw [loader_needByte_nil (d := { d with inp := { d.inp with pos := d.inp.pos + 1 } }) h.aligned n2, bind_raise]
  · obtain ⟨n1, n2, n3⟩ := loader_needByte_cons h.aligned hr
    exact ⟨_, by unfold des; rw [n1, bind_ok, if_neg (by exact h1), if_neg (by exact h0)], rfl⟩
  · obtain ⟨n1, n2, n3⟩ := loader_needByte_cons h.aligned hr
    obtain ⟨m1, m2, m3⟩ := loader_needByte_cons (d := { d with inp := { d.inp with pos := d.inp.pos + 1 } }) h.aligned n2
    obtain ⟨j, hj⟩ := Option.isSome_iff_exists.1 hx
    refine ⟨{ d with inp := { d.inp with pos := d.inp.pos + 1 + 1 } }, ?_, rfl⟩
    unfold des; rw [n1, bind_ok, if_pos (by rfl)]; unfold desLeaf; rw [m1, bind_ok]; dsimp only; rw [hj]
  · subst h0
    obtain ⟨n1, n2, n3⟩ := loader_needByte_cons h.aligned hr
    exact ⟨_, by unfold des; rw [n1, bind_ok, if_neg (by decide), if_pos (by decide)], rfl⟩

end Sys2Proof.Machine
end

