-- ==== Sys2Proof/Laws/Words.lean ====
section
/-! SUPPORT. The command word as a concatenation of its fields (30_encoding.md R101, R103). -/

namespace Sys2Proof

/-- A concatenation as a number. -/
theorem append_toNat {a b : Nat} (x : BitVec a) (y : BitVec b) : (x ++ y).toNat = x.toNat * 2 ^ b + y.toNat := by
  rw [BitVec.toNat_append, ← Nat.shiftLeft_add_eq_or_of_lt y.isLt, Nat.shiftLeft_eq]

/-- The word of a command as a number (30_encoding.md R101). -/
theorem encode_toNat (i : Instr) : (encode i).toNat =
    i.opcode.code.toNat * 2^40 + i.symField.toNat * 2^32 + i.valField.toNat := by
  unfold encode
  have h := append_toNat i.opcode.code (i.symField ++ i.valField)
  have h2 := append_toNat i.symField i.valField
  have : (encode i).toNat = (i.opcode.code ++ (i.symField ++ i.valField)).toNat := rfl
  unfold encode at this
  rw [this, h, h2]; omega

/-- Bit `j` of a word given by its fields. -/
theorem word_getLsbD (a : Byte) (b : Byte) (c : BitVec 32) (j : Nat) : BitVec.getLsbD (w := 48) (a ++ (b ++ c)) j =
    if j < 32 then c.getLsbD j else if j < 40 then b.getLsbD (j - 32) else a.getLsbD (j - 40) := by
  have h : BitVec.getLsbD (w := 48) (a ++ (b ++ c)) j = (a ++ (b ++ c)).getLsbD j := rfl
  rw [h, BitVec.getLsbD_append, BitVec.getLsbD_append]
  by_cases h1 : j < 32
  · simp [h1, show j < 40 by omega]
  · by_cases h2 : j < 40 <;> simp [h1, h2]

/-- Different opcodes have different codes (30_encoding.md R103). -/
theorem ofCode_code (o : Opcode) : Opcode.ofCode o.code = some o := by cases o <;> decide

/-- A command from its own fields. -/
theorem toInstr_fields (i : Instr) : i.opcode.toInstr i.symField i.valField = i := by cases i <;> rfl

/-- The opcode found has the code looked for. -/
theorem ofCode_some {b : Byte} {o : Opcode} (h : Opcode.ofCode b = some o) : b = o.code := by
  have := List.find?_some h
  simp at this; exact this.symm

/-- Words are equal iff their fields are. -/
theorem word_inj {a a' : Byte} {b b' : Byte} {c c' : BitVec 32} : ((a ++ (b ++ c) : BitVec 48) = a' ++ (b' ++ c')) ↔
    a = a' ∧ b = b' ∧ c = c' := by
  constructor
  · intro h
    have key : ∀ j, BitVec.getLsbD (w := 48) (a ++ (b ++ c)) j = BitVec.getLsbD (w := 48) (a' ++ (b' ++ c')) j :=
        fun j => by rw [h]
    refine ⟨?_, ?_, ?_⟩ <;> apply BitVec.eq_of_getLsbD_eq <;> intro j hj
    · have := key (j+40); rw [word_getLsbD, word_getLsbD] at this; simpa [show ¬ j + 40 < 32 by omega] using this
    · have := key (j+32); rw [word_getLsbD, word_getLsbD] at this; simpa
        [show j < 8 by omega, show j + 32 < 40 by omega] using this
    · have := key j; rw [word_getLsbD, word_getLsbD] at this; simpa [hj] using this
  · rintro ⟨rfl, rfl, rfl⟩; rfl

/-- A mask acts field by field. -/
theorem word_and (a a' : Byte) (b b' : Byte) (c c' : BitVec 32) : ((a ++ (b ++ c) :
    BitVec 48) &&& (a' ++ (b' ++ c')) : BitVec 48) = (a &&& a') ++ ((b &&& b') ++ (c &&& c')) := by
  apply BitVec.eq_of_getLsbD_eq
  intro j hj
  rw [BitVec.getLsbD_and, word_getLsbD, word_getLsbD, word_getLsbD]
  split <;> (try split) <;> simp

end Sys2Proof
end

