-- ==== Sys2Proof/Laws/PerInstr.lean ====
section
/-! SUPPORT. One statement per command: the word of every command, with every operand, satisfies the (match, mask) row
of its mnemonic in spec/opcode_table.json. -/

namespace Sys2Proof.Laws.TableRow

/-- The `match` and `mask` columns of spec/opcode_table.json, by command. -/
def row : Instr → CmdWord × CmdWord
  | .fclr => (0x010000000000#48, 0xFFFFFFFFFFFF#48)
  | .fset _ _ => (0x020000000000#48, 0xFF0000000000#48)
  | .build => (0x030000000000#48, 0xFFFFFFFFFFFF#48)
  | .tclr => (0x040000000000#48, 0xFFFFFFFFFFFF#48)
  | .enc _ => (0x100000000000#48, 0xFF00FFFFFFFF#48)
  | .dec => (0x110000000000#48, 0xFFFFFFFFFFFF#48)
  | .hser => (0x200000000000#48, 0xFFFFFFFFFFFF#48)
  | .hdes => (0x210000000000#48, 0xFFFFFFFFFFFF#48)
  | .wcnt _ => (0x300000000000#48, 0xFFFF00000000#48)
  | .rcnt => (0x310000000000#48, 0xFFFFFFFFFFFF#48)
  | .flush => (0x320000000000#48, 0xFFFFFFFFFFFF#48)

/-- The word of the command has the bits of `match` under `mask`. -/
def Statement (i : Instr) : Prop := encode i &&& (row i).2 = (row i).1

theorem fclr : Statement .fclr := by unfold Statement; decide

theorem fset (sym : Byte) (val : Freq) : Statement (.fset sym val) := by
  have h := word_and 0x02#8 0xFF#8 sym 0x00#8 val 0x00000000#32
  simp only [BitVec.and_zero] at h
  exact h

theorem build : Statement .build := by unfold Statement; decide

theorem tclr : Statement .tclr := by unfold Statement; decide

theorem enc (sym : Byte) : Statement (.enc sym) := by
  have h := word_and 0x10#8 0xFF#8 sym 0x00#8 0x00000000#32 0xFFFFFFFF#32
  simp only [BitVec.and_zero] at h
  exact h

theorem dec : Statement .dec := by unfold Statement; decide

theorem hser : Statement .hser := by unfold Statement; decide

theorem hdes : Statement .hdes := by unfold Statement; decide

theorem wcnt (val : Count) : Statement (.wcnt val) := by
  have h := word_and 0x30#8 0xFF#8 0x00#8 0xFF#8 val 0x00000000#32
  simp only [BitVec.and_zero] at h
  exact h

theorem rcnt : Statement .rcnt := by unfold Statement; decide

theorem flush : Statement .flush := by unfold Statement; decide

end Sys2Proof.Laws.TableRow
end

