-- ==== Sys2Proof/Tests/Slice0.lean ====
section
/-! SUPPORT. Tests: ill-formed fields, command words written out from the spec's encoding, one step of each command on
the spec's examples, and a witness for the hypotheses of every obligation that has some. -/

namespace Sys2Proof.Tests

open Sys2Proof.Machine

/-! ## Well-formedness (30_encoding.md R102, R104) -/

/-- Format N with a non-zero `sym`. -/
theorem test_wf_n_sym : Fields.wellFormed { op := .build, sym := 1#8, val := 0#32 } = false := by decide

/-- Format N with a non-zero `val`. -/
theorem test_wf_n_val : Fields.wellFormed { op := .dec, sym := 0#8, val := 0x100#32 } = false := by decide

/-- Format S with a non-zero `val`. -/
theorem test_wf_s_val : Fields.wellFormed { op := .enc, sym := 0x41#8, val := 1#32 } = false := by decide

/-- Format V with a non-zero `sym`. -/
theorem test_wf_v_sym : Fields.wellFormed { op := .wcnt, sym := 1#8, val := 5#32 } = false := by decide

/-- Format SV has no field that must be zero. -/
theorem test_wf_sv : Fields.wellFormed { op := .fset, sym := 0xFF#8, val := 0xFFFFFFFF#32 } = true := by decide

/-- The decoder refuses each ill-formed word by the name of its opcode (95_test_vectors.md V8 to V12). -/
theorem test_decode_ill_formed :
    decode 0x010000000001#48 = .error (.nonZeroField .fclr) ∧ decode 0x030100000000#48 = .error (.nonZeroField .build) ∧
    decode 0x104100000001#48 = .error (.nonZeroField .enc) ∧ decode 0x300100000005#48 = .error (.nonZeroField .wcnt) ∧
    decode 0x110000000100#48 = .error (.nonZeroField .dec) := by decide

/-- The decoder refuses an undefined opcode by its value (95_test_vectors.md V4 to V7). -/
theorem test_decode_undefined :
    decode 0x000000000000#48 = .error (.undefinedOpcode 0x00#8) ∧
    decode 0xFF0000000000#48 = .error (.undefinedOpcode 0xFF#8) ∧
    decode 0x050000000000#48 = .error (.undefinedOpcode 0x05#8) ∧
    decode 0x120000000000#48 = .error (.undefinedOpcode 0x12#8) := by decide

/-! ## Command words, bit by bit: `op` in 47:40, `sym` in 39:32, `val` in 31:0 (30_encoding.md R101, R103) -/

theorem test_decode_fclr :
    decode 0b00000001_00000000_00000000000000000000000000000000#48 = .ok .fclr := by decide

theorem test_decode_fset :
    decode 0b00000010_01000001_00000000000000000000000000000101#48 = .ok (.fset 0x41#8 5#32) := by decide

theorem test_decode_build :
    decode 0b00000011_00000000_00000000000000000000000000000000#48 = .ok .build := by decide

theorem test_decode_tclr :
    decode 0b00000100_00000000_00000000000000000000000000000000#48 = .ok .tclr := by decide

theorem test_decode_enc :
    decode 0b00010000_01000011_00000000000000000000000000000000#48 = .ok (.enc 0x43#8) := by decide

theorem test_decode_dec :
    decode 0b00010001_00000000_00000000000000000000000000000000#48 = .ok .dec := by decide

theorem test_decode_hser :
    decode 0b00100000_00000000_00000000000000000000000000000000#48 = .ok .hser := by decide

theorem test_decode_hdes :
    decode 0b00100001_00000000_00000000000000000000000000000000#48 = .ok .hdes := by decide

theorem test_decode_wcnt :
    decode 0b00110000_00000000_10000000000000000000000000000101#48 = .ok (.wcnt 0x80000005#32) := by decide

theorem test_decode_rcnt :
    decode 0b00110001_00000000_00000000000000000000000000000000#48 = .ok .rcnt := by decide

theorem test_decode_flush :
    decode 0b00110010_00000000_00000000000000000000000000000000#48 = .ok .flush := by decide

/-- The numbering of the opcode table, and a word with more bits than a command has. -/
theorem test_decode_table_word :
    decodeTableWord 48 0x024100000005 = some (.fset 0x41#8 5#32) ∧ decodeTableWord 56 0x01010000000000 = none ∧
    decodeTableWord 48 0x000000000000 = none := by decide

/-! ## Small states -/

/-- The frequencies of 40_build.md R161. -/
def freq161 : Vector Freq 256 :=
  writeFreq (writeFreq (writeFreq (writeFreq clearFreq 0x41#8 5#32) 0x42#8 2#32) 0x43#8 1#32) 0x44#8 1#32

/-- A leaf. -/
def leafNode (w : Weight) (s : Byte) (p : NodeRef) : Node :=
  { weight := w, symbol := s, left := none, right := none, parent := p }

/-- An internal node. -/
def innerNode (w : Weight) (s : Byte) (l r : Nat) (p : NodeRef) : Node :=
  { weight := w, symbol := s, left := some l, right := some r, parent := p }

/-- The tree of 40_build.md R161, from its table: n0 to n6. -/
def tree161 : TreeStore where
  nodes := [leafNode 5#40 0x41#8 (some 6), leafNode 2#40 0x42#8 (some 5), leafNode 1#40 0x43#8 (some 4),
    leafNode 1#40 0x44#8 (some 4), innerNode 2#40 0x43#8 2 3 (some 5), innerNode 4#40 0x42#8 1 4 (some 6),
    innerNode 9#40 0x42#8 5 0 none]
  leaf := (((TreeStore.empty.leaf.set 0x41 (some 0)).set 0x42 (some 1)).set 0x43 (some 2)).set 0x44 (some 3)
  root := some 6

/-- The same tree over subtrees. -/
def view161 : Machine.Tree :=
  .node 9#40 0x42#8
    (.node 4#40 0x42#8 (.leaf 2#40 0x42#8) (.node 2#40 0x43#8 (.leaf 1#40 0x43#8) (.leaf 1#40 0x44#8)))
    (.leaf 5#40 0x41#8)

/-- The header of 43_header.md R216. -/
def header161 : List Byte :=
  [0x00#8, 0x00#8, 0x01#8, 0x42#8, 0x00#8, 0x01#8, 0x43#8, 0x01#8, 0x44#8, 0x01#8, 0x41#8]

/-- A tree of one leaf. -/
def treeOne : TreeStore where
  nodes := [leafNode 5#40 0x41#8 none]
  leaf := TreeStore.empty.leaf.set 0x41 (some 0)
  root := some 0

/-- The block just reset, with a tree. -/
def withTree (t : TreeStore) : State := { State.reset with tree := t }

/-- The block just reset, with input bytes and a place in them. -/
def withIn (bs : List Byte) (p : Nat) (k : Fin 8) : State :=
  { State.reset with inp := { bytes := bs, pos := p, bit := k } }

/-- The block just reset, with two bits gathered in `OUT`. -/
def midOut : State := { State.reset with out := { bytes := [], acc := 0b11#8, nbits := 2 } }

/-- The block just reset, with one command. -/
def withCmd (w : CmdWord) : State := { State.reset with cmds := [w] }

/-- The block just reset, then faulted. -/
def faulted : State := { State.reset with err := 3#3 }

/-- The next state, or reset where there is none: for looking at one field. -/
def after (i : Instr) (s : State) : State :=
  match exec i s with
  | .next t => t
  | .fault _ => State.reset
  | .refused _ => State.reset

/-! ## One step of each command, on the spec's examples -/

/-- 40_build.md R161, node by node. -/
theorem test_build_r161 : buildTree freq161 = tree161 := by decide +kernel

/-- 40_build.md FCLR's example. -/
theorem test_fclr : readFreq (after .fclr { State.reset with freq := freq161 }).freq 0x41#8 = 0#32 := by decide +kernel

/-- 95_test_vectors.md V3: the last register takes the largest value. -/
theorem test_fset_top : readFreq (after (.fset 0xFF#8 0xFFFFFFFF#32) State.reset).freq 0xFF#8 = 0xFFFFFFFF#32 := by decide +kernel

/-- 40_build.md FSET's example leaves a neighbour alone. -/
theorem test_fset_frame : readFreq (after (.fset 0x41#8 5#32) { State.reset with freq := freq161 }).freq 0x42#8 =
    2#32 := by decide +kernel

/-- 40_build.md TCLR's example: ENC then raises `EmptyTree`. -/
theorem test_tclr : (after (.enc 0x41#8) (after .tclr (withTree tree161))).status = 0b00001111#8 := by decide +kernel

/-- 41_encode.md ENC's example: bits 0, 1, 0. -/
theorem test_enc_c : (after (.enc 0x43#8) (withTree tree161)).out = { bytes := [], acc := 0b010#8, nbits := 3 } := by decide +kernel

/-- 41_encode.md R171: a symbol with no leaf. -/
theorem test_enc_absent : (after (.enc 0x45#8) (withTree tree161)).err = 1#3 := by decide +kernel

/-- 42_decode.md DEC's example: 0xC4 starts with bit 1, which is 'A'. -/
theorem test_dec_a : (after .dec { withTree tree161 with inp := InStream.rewind [0xC4#8, 0xC0#8] }).sym = 0x41#8 ∧
    (after .dec { withTree tree161 with inp := InStream.rewind [0xC4#8, 0xC0#8] }).inp.bit = 1 := by decide +kernel

/-- 42_decode.md R194: the bits end on an internal node. -/
theorem test_dec_truncated : (after .dec (withTree tree161)).err = 2#3 := by decide +kernel

/-- 43_header.md R216. -/
theorem test_hser_r216 : (after .hser (withTree tree161)).out.bytes = header161 := by decide +kernel

/-- 43_header.md R211: alignment comes after the check of the tree. -/
theorem test_hser_order : (after .hser midOut).err = 3#3 ∧ (after .hser { midOut with tree := tree161 }).err = 6#3 := by decide +kernel

/-- 43_header.md R231: the header of R216 gives the tree of R161, with weights 1. -/
theorem test_hdes_r231 : (after .hdes (withIn header161 0 0)).tree.view = some view161.rebuilt ∧
    (after .hdes (withIn header161 0 0)).inp.pos = 11 := by decide +kernel

/-- 43_header.md R225: a symbol twice, also in a header that never completes (as in 95_test_vectors.md V77c), and a bad
marker after a leaf (V75). -/
theorem test_hdes_faults : (after .hdes (withIn [0x00#8, 0x01#8, 0x61#8, 0x01#8, 0x61#8] 0 0)).err = 5#3 ∧
    (after .hdes (withIn [0x00#8, 0x00#8, 0x01#8, 0x07#8, 0x01#8, 0x08#8, 0x00#8, 0x00#8, 0x01#8, 0x07#8] 0 0)).err =
      5#3 ∧
    (after .hdes (withIn [0x00#8, 0x01#8, 0x61#8, 0x02#8] 0 0)).err = 5#3 := by decide +kernel

/-- 44_stream.md WCNT's example, in both byte orders. -/
theorem test_wcnt : (after (.wcnt 5#32) State.reset).out.bytes = [0x00#8, 0x00#8, 0x00#8, 0x05#8] ∧
    (after (.wcnt 5#32) { State.reset with params := { countByteOrder := .little, countMax := 5#32 } }).out.bytes =
      [0x05#8, 0x00#8, 0x00#8, 0x00#8] := by decide +kernel

/-- 95_test_vectors.md: a count above `COUNT_MAX` is refused before the alignment is looked at (44_stream.md R241). -/
theorem test_wcnt_order : (after (.wcnt 0x80000000#32) midOut).err = 4#3 ∧ (after (.wcnt 0x7FFFFFFF#32) midOut).err = 6#3 ∧
    (after (.wcnt 0x7FFFFFFF#32) State.reset).err = 0#3 := by decide +kernel

/-- 44_stream.md RCNT's example. -/
theorem test_rcnt : (after .rcnt (withIn [0x00#8, 0x00#8, 0x00#8, 0x05#8, 0x01#8] 0 0)).cnt = 5#32 ∧
    (after .rcnt (withIn [0x00#8, 0x00#8, 0x00#8, 0x05#8, 0x01#8] 0 0)).inp.pos = 4 := by decide +kernel

/-- 44_stream.md R242: three bytes are too few, and a count above `COUNT_MAX` is consumed and refused. -/
theorem test_rcnt_faults : (after .rcnt (withIn [0x00#8, 0x00#8, 0x00#8] 0 0)).err = 2#3 ∧
    (after .rcnt (withIn [0x80#8, 0x00#8, 0x00#8, 0x00#8] 0 0)).err = 5#3 ∧
    (after .rcnt (withIn [0x80#8, 0x00#8, 0x00#8, 0x00#8] 0 0)).inp.pos = 4 := by decide +kernel

/-- 44_stream.md FLUSH's example. -/
theorem test_flush : (after .flush midOut).out = { bytes := [0xC0#8], acc := 0#8, nbits := 0 } := by decide +kernel

/-- 30_encoding.md R105: the step of an undefined word, with `CP` still on it. -/
theorem test_step_illegal : step (withCmd 0x120000000000#48) = .next { withCmd 0x120000000000#48 with err := 4#3 } :=
  rfl

/-- `withFetchWord` places a word where the step fetches, also beyond the end of the list. -/
theorem test_fetch_word : step (State.reset.withFetchWord 48 0x320000000000) =
    .next { State.reset with cmds := [0x320000000000#48], cp := 1 } := rfl

/-! ## Witnesses: the hypotheses of each obligation can be met together -/

/-- The command answers a next state with a given property. -/
def ends (i : Instr) (s : State) (p : State → Bool) : Bool :=
  match exec i s with
  | .next t => p t
  | .fault _ => false
  | .refused _ => false

theorem ends_next {i : Instr} {s : State} {p : State → Bool} (h : ends i s p = true) :
    ∃ t, exec i s = .next t ∧ p t = true := by
  unfold ends at h
  split at h
  · exact ⟨_, by assumption, h⟩
  · cases h
  · cases h

/-- The command answers a next state whose error code is `k`. -/
theorem ends_err {i : Instr} {s : State} {k : BitVec 3} (h : ends i s (fun t => t.err == k) = true) :
    ∃ t, exec i s = .next t ∧ t.err = k := by
  obtain ⟨t, h1, h2⟩ := ends_next h
  exact ⟨t, h1, by simpa using h2⟩

theorem tree161_wf : tree161.Wf := by rw [← test_build_r161]; exact (buildTree_spec freq161).1

theorem tree161_view : tree161.view = some view161 := by decide +kernel

theorem coherent_of_wf {t : TreeStore} {bs : List Byte} (h : t.Wf) :
    Coherent { withTree t with inp := InStream.rewind bs } where
  err := by show (0#3) ≠ 7#3; decide
  acc := by show (0#8).toNat < 2 ^ (0 : Fin 8).val; decide
  pos := Nat.zero_le _
  atEnd := fun _ => rfl
  nnode := h.nnode_le
  tree := .inl h

theorem test_witness_OperandsAreTakenAsTheyStand :
    (0x02FFFFFFFFFF#48).extractLsb' 40 8 = 0x02#8 ∧
    ((0x10FF00000000#48).extractLsb' 40 8 = 0x10#8 ∧ (0x10FF00000000#48).extractLsb' 0 32 = 0#32) ∧
    ((0x3000FFFFFFFF#48).extractLsb' 40 8 = 0x30#8 ∧ (0x3000FFFFFFFF#48).extractLsb' 32 8 = 0#8) := by decide

theorem test_witness_DecoderAcceptsExactlyTheTable : ∃ i, decode 0x300080000000#48 = .ok i := ⟨_, rfl⟩

/-- An undefined `op`, and a non-zero field under each format that has one; the block meets each as a command. -/
theorem test_witness_IllegalWordRaisesIllegalCommand :
    ∀ w ∈ [0x330000000000#48, 0x030100000000#48, 0x110000000001#48, 0x10FF00000001#48, 0x300180000000#48],
      IllegalWord w ∧ (withCmd w).err = 0#3 ∧ fetch (withCmd w) = some w := by
  intro w hw
  simp only [List.mem_cons, List.not_mem_nil, or_false] at hw
  unfold IllegalWord
  rcases hw with rfl | rfl | rfl | rfl | rfl <;> decide

theorem test_witness_StepRunsTheDecodedCommand : ∃ (s : State) (w : CmdWord) (i : Instr),
    s.cmds[s.cp]? = some w ∧ decode w = .ok i := ⟨withCmd 0x320000000000#48, _, _, rfl, rfl⟩

theorem test_witness_StepWithoutCommandKeepsTheState : State.reset.cmds.length ≤ State.reset.cp := Nat.le_refl 0

theorem test_witness_FaultedBlockRefusesEveryCommand : faulted.status.getLsbD 1 = true := by decide

/-- A refused command, a completed one, a faulting one. -/
theorem test_witness_CompletionAdvancesCpByOne :
    (faulted.faultFlag = true ∧ exec .flush faulted = .next faulted) ∧
    (State.reset.faultFlag = false ∧ ∃ t, exec .flush State.reset = .next t ∧ t.err = 0#3) ∧
    ∃ t, exec .dec State.reset = .next t ∧ t.err = 3#3 :=
  ⟨⟨by decide, exec_of_faulted _ (by decide)⟩, ⟨by decide, ends_err (by decide)⟩, ends_err (by decide)⟩

theorem test_witness_RunOfAListIsItsCommandsInOrder :
    ({ State.reset with cmds := [encode .dec, encode .flush, encode (.wcnt 1#32)], cp := 1 } : State).cmds.drop 1 =
      [.flush, .wcnt 1#32].map encode := rfl

/-- Each command that can fault, faulting: with and without a tree written, with and without bytes consumed. -/
theorem test_witness_FaultsArePreciseForTheHost : State.reset.err = 0#3 ∧ (withIn [0x00#8] 0 0).err = 0#3 ∧
    (∃ t, exec (.enc 0x41#8) State.reset = .next t ∧ t.err = 3#3) ∧
    (∃ t, exec .hdes (withIn [0x00#8] 0 0) = .next t ∧ t.err = 2#3) ∧
    ∃ t, exec .rcnt (withIn [0x00#8] 0 0) = .next t ∧ t.err = 2#3 :=
  ⟨rfl, rfl, ends_err (by decide), ends_err (by decide +kernel), ends_err (by decide)⟩

/-- Each code at least once. -/
theorem test_witness_CommandsRaiseOnlyTheirFaults :
    (∃ t, exec (.enc 0x45#8) (withTree tree161) = .next t ∧ t.err = 1#3) ∧
    (∃ t, exec .dec (withTree tree161) = .next t ∧ t.err = 2#3) ∧
    (∃ t, exec .hser State.reset = .next t ∧ t.err = 3#3) ∧
    (∃ t, exec (.wcnt 0x80000000#32) State.reset = .next t ∧ t.err = 4#3) ∧
    (∃ t, exec .hdes (withIn [0x02#8] 0 0) = .next t ∧ t.err = 5#3) ∧
    (∃ t, exec .rcnt (withIn [0x00#8] 0 1) = .next t ∧ t.err = 6#3) ∧
    ∃ t, exec (.fset 0xFF#8 1#32) State.reset = .next t ∧ t.err = 0#3 :=
  ⟨ends_err (by decide +kernel), ends_err (by decide +kernel), ends_err (by decide +kernel),
    ends_err (by decide +kernel), ends_err (by decide +kernel), ends_err (by decide +kernel),
    ends_err (by decide +kernel)⟩

theorem test_witness_InvalidSymbolIsRaisedOnlyByEnc :
    (withTree tree161).err = 0#3 ∧ tree161.root ≠ none ∧ tree161.leafOf 0x45#8 = none ∧
    ∃ t, exec (.enc 0x45#8) (withTree tree161) = .next t ∧ t.err = 1#3 :=
  ⟨rfl, by decide, by decide +kernel, ends_err (by decide +kernel)⟩

theorem test_witness_EmptyTreeIsRaisedOnTheEmptyTree : State.reset.err = 0#3 ∧ State.reset.tree.root = none ∧
    ∃ t, exec .dec State.reset = .next t ∧ t.err = 3#3 := ⟨rfl, rfl, ends_err (by decide)⟩

theorem test_witness_MisalignedIsRaisedByByteCommandsInMidByte :
    (∃ t, exec .hser { midOut with tree := treeOne } = .next t ∧ t.err = 6#3) ∧
    (∃ t, exec (.wcnt 0x7FFFFFFF#32) midOut = .next t ∧ t.err = 6#3) ∧
    (∃ t, exec .hdes (withIn [0x00#8] 0 7) = .next t ∧ t.err = 6#3) ∧
    ∃ t, exec .rcnt (withIn [0x00#8] 0 1) = .next t ∧ t.err = 6#3 :=
  ⟨ends_err (by decide), ends_err (by decide), ends_err (by decide), ends_err (by decide)⟩

theorem test_witness_OnlyBuildHdesTclrWriteTheTree :
    (∃ t, exec .flush State.reset = .next t) ∧ (∃ t, exec .build State.reset = .next t) ∧
    (∃ t, exec .hdes (withIn [0x01#8, 0x00#8] 0 0) = .next t ∧ t.err = 0#3) ∧
    ∃ t, exec .tclr State.reset = .next t :=
  ⟨⟨_, rfl⟩, ⟨_, rfl⟩, ends_err (by decide +kernel), ⟨_, rfl⟩⟩

theorem test_witness_OnlyTheirCommandsWriteTheStreams :
    (∃ t, exec .dec (withTree treeOne) = .next t ∧ t.err = 0#3) ∧ ∃ t, exec .flush State.reset = .next t ∧ t.err = 0#3 :=
  ⟨ends_err (by decide), ends_err (by decide)⟩

theorem test_witness_FreqIsWrittenByThreeAndReadByBuild :
    State.reset.err = 0#3 ∧ (∃ t, exec .fclr State.reset = .next t) ∧
    (∃ t, exec (.fset 0#8 1#32) State.reset = .next t) ∧ (0xFF#8 : Byte) ≠ 0#8 ∧ ∃ t, exec .dec State.reset = .next t :=
  ⟨rfl, ⟨_, rfl⟩, ⟨_, rfl⟩, by decide, ⟨_, rfl⟩⟩

/-- A count read, a count refused. -/
theorem test_witness_CntHoldsTheLastCountAndIsNeverRead :
    (∃ t, exec .rcnt (withIn [0x7F#8, 0xFF#8, 0xFF#8, 0xFF#8] 0 0) = .next t ∧ t.err = 0#3) ∧
    ∃ t, exec .rcnt (withIn [0x80#8, 0x00#8, 0x00#8, 0x00#8] 0 0) = .next t ∧ t.err = 5#3 :=
  ⟨ends_err (by decide), ends_err (by decide)⟩

theorem test_witness_FclrClearsEveryFrequency : State.reset.err = 0#3 ∧
    wordOp 0x010000000001#48 = 0x01#8 ∧ (0x010000000001#48 : CmdWord) ≠ 0x010000000000#48 := by decide

theorem test_witness_FsetWritesOneFrequency : State.reset.err = 0#3 ∧ (0x00#8 : Byte) ≠ 0xFF#8 ∧
    wordOp 0x02FFFFFFFFFF#48 = 0x02#8 := by decide

theorem test_witness_TclrDestroysTheTree : (withTree treeOne).err = 0#3 ∧
    wordOp 0x04FF00000000#48 = 0x04#8 ∧ (0x04FF00000000#48 : CmdWord) ≠ 0x040000000000#48 := by decide

theorem test_witness_BuildMakesTheHuffmanTree : ({ State.reset with freq := freq161 } : State).err = 0#3 := rfl

theorem test_witness_BuildWithNoSymbolLeavesTheEmptyTree :
    State.reset.err = 0#3 ∧ ∀ x, readFreq State.reset.freq x = 0#32 := ⟨rfl, readFreq_clearFreq⟩

theorem test_witness_BuildWithOneSymbolMakesOneLeaf :
    readFreq (writeFreq clearFreq 0x41#8 5#32) 0x41#8 ≠ 0#32 ∧
    ∀ y, y ≠ 0x41#8 → readFreq (writeFreq clearFreq 0x41#8 5#32) y = 0#32 := by
  refine ⟨by rw [readFreq_writeFreq]; decide, fun y hy => ?_⟩
  rw [readFreq_writeFreq, if_neg hy, readFreq_clearFreq]

theorem test_witness_BuildNumbersLeavesThenInternalNodes : ∃ x, readFreq freq161 x ≠ 0#32 :=
  ⟨0x41#8, by decide +kernel⟩

theorem build_step (f : Vector Freq 256) : exec .build { State.reset with freq := f } =
    .next (advance { State.reset with freq := f, tree := buildTree f }) := by
  simp only [exec, execBuild]
  exact command_ok (u := ()) rfl rfl

/-- For the three statements about a tree BUILD made. -/
theorem test_witness_BuiltTree : ∃ (s t : State) (T : Machine.Tree),
    s.err = 0#3 ∧ exec .build s = .next t ∧ t.tree.view = some T ∧ T.leaves = 4 := by
  refine ⟨{ State.reset with freq := freq161 },
    advance { State.reset with freq := freq161, tree := buildTree freq161 }, view161, rfl, ?_, ?_, rfl⟩
  · exact build_step freq161
  · show (buildTree freq161).view = _
    rw [test_build_r161, tree161_view]

/-- For the codes BuiltTreeIsOptimal compares with: the eight bits of the byte. -/
theorem test_witness_BuiltTreeIsOptimal : ∀ x y : Byte, x ≠ y → ¬ byteBits x <+: byteBits y := by
  intro x y hxy h
  apply hxy
  have h := h.eq_of_length (by simp [byteBits])
  apply BitVec.eq_of_getLsbD_eq
  intro j hj
  have := congrArg (fun l => l[7 - j]?) h
  simpa [byteBits, show 7 - j < 8 by omega, show 7 - (7 - j) = j by omega] using this

theorem test_witness_EncWritesTheCodeOfTheSymbol :
    (withTree tree161).err = 0#3 ∧ tree161.Wf ∧ tree161.present 0x43#8 = true :=
  ⟨rfl, tree161_wf, by decide +kernel⟩

theorem test_witness_EncChecksComeBeforeAnyBit : State.reset.err = 0#3 ∧ State.reset.tree.root = none ∧
    (withTree treeOne).err = 0#3 ∧ treeOne.root ≠ none ∧ treeOne.leafOf 0x42#8 = none :=
  ⟨rfl, rfl, rfl, by decide, by decide +kernel⟩

theorem test_witness_CodesArePrefixFree : tree161.Wf ∧ tree161.present 0x43#8 = true ∧
    tree161.present 0x44#8 = true ∧ (0x43#8 : Byte) ≠ 0x44#8 :=
  ⟨tree161_wf, by decide +kernel, by decide +kernel, by decide⟩

theorem test_witness_CodeLengthsStayWithinPathMax : tree161.Wf ∧ tree161.view = some view161 ∧
    view161.code 0x44#8 = some [false, true, true] := ⟨tree161_wf, tree161_view, by decide⟩

/-- 42_decode.md DEC's example: 'A', then the rest of the bits. -/
theorem test_witness_DecReturnsTheCodedSymbol :
    Coherent { withTree tree161 with inp := InStream.rewind [0xC4#8, 0xC0#8] } ∧ tree161.view = some view161 ∧
    view161.code 0x41#8 = some [true] ∧
    ∃ rest, (InStream.rewind [0xC4#8, 0xC0#8]).restBits = [true] ++ rest :=
  ⟨coherent_of_wf tree161_wf, tree161_view, by decide, _, rfl⟩

theorem test_witness_DecRaisesTruncatedStreamInMidPath :
    Coherent { withTree tree161 with inp := InStream.rewind [] } ∧ tree161.view = some view161 ∧
    ∀ x bs, view161.code x = some bs → ¬ bs <+: (InStream.rewind []).restBits := by
  refine ⟨coherent_of_wf tree161_wf, tree161_view, fun x bs h hp => ?_⟩
  rw [show (InStream.rewind []).restBits = [] from rfl, List.prefix_nil] at hp
  subst hp
  unfold view161 Machine.Tree.code at h
  split at h
  · simp at h
  · cases hr : (Machine.Tree.leaf 5#40 0x41#8).code x <;> simp [hr] at h

theorem test_witness_DecOnOneLeafReadsNoBit : ∃ nd : Node, (withTree treeOne).err = 0#3 ∧
    treeOne.root = some 0 ∧ treeOne.node? 0 = some nd ∧ nd.isLeaf = true := ⟨_, rfl, rfl, rfl, rfl⟩

/-- The tree BUILD makes and the tree HDES makes of its header have other indices and weights and one shape. -/
theorem test_witness_SameShapeTreesAreIndistinguishable :
    ∃ u : TreeStore, u ≠ tree161 ∧ Alike (withTree tree161) (withTree u) := by
  have hrest : (withIn header161 0 0).inp.restBytes = view161.header ++ [] := by decide
  have hn : view161.symbols.Nodup := by decide
  obtain ⟨e, d, _, h2, _⟩ := des_header (room := 255) view161 (loaderOk_start (s := withIn header161 0 0) rfl
    (Nat.zero_le _)) hrest hn (fun x _ => leafOf_empty x) (by decide)
  have hw := (h2.loader.growing).wf (r := some e.node)
  have hv := view_of_stands h2.stands hw
  refine ⟨{ d.tree with root := some e.node }, fun h => ?_, rfl, .inr ⟨tree161_wf, hw, ?_⟩⟩
  · rw [h, tree161_view] at hv
    exact absurd hv (by decide)
  · show sameView tree161.view ({ d.tree with root := some e.node } : TreeStore).view
    rw [tree161_view, hv]
    show view161.sameShape view161.rebuilt = true
    decide

theorem test_witness_HserAppendsTheHeader : (withTree tree161).err = 0#3 ∧ tree161.Wf ∧
    tree161.view = some view161 ∧ (withTree tree161).out.nbits = 0 := ⟨rfl, tree161_wf, tree161_view, rfl⟩

theorem test_witness_HserChecksComeBeforeAnyByte : midOut.err = 0#3 ∧ midOut.tree.root = none ∧
    ({ midOut with tree := treeOne } : State).tree.root ≠ none ∧ midOut.out.nbits ≠ 0 := by decide

theorem test_witness_HdesRebuildsTheTreeOfAHeader : (withIn (0xAA#8 :: header161 ++ [0xC4#8]) 1 0).inp.bit = 0 ∧
    (withIn (0xAA#8 :: header161 ++ [0xC4#8]) 1 0).inp.restBytes = view161.header ++ [0xC4#8] ∧
    view161.symbols.Nodup := by decide

theorem test_witness_HdesCompletesOnlyOnAHeader :
    ∃ t, exec .hdes (withIn header161 0 0) = .next t ∧ t.err = 0#3 := ends_err (by decide +kernel)

theorem begunFits_replicate (n : Nat) : begunFits n (List.replicate n none) := by
  induction n with
  | zero => trivial
  | succ n ih => exact ih

theorem begunSymbols_replicate (n : Nat) : begunSymbols (List.replicate n none) = [] := by
  induction n with
  | zero => rfl
  | succ n ih => exact ih

/-- Whole headers: no byte, all bytes but one, a symbol twice. -/
theorem test_witness_HdesFaultsByTheBytesItMeets :
    ([] <+: view161.header ∧ [] ≠ view161.header) ∧
    (header161.take 10 <+: view161.header ∧ header161.take 10 ≠ view161.header) ∧
    (Machine.Tree.node 2#40 0#8 (.leaf 1#40 0#8) (.leaf 1#40 0#8)).height ≤ 255 ∧
    ¬ (Machine.Tree.node 2#40 0#8 (.leaf 1#40 0#8) (.leaf 1#40 0#8)).symbols.Nodup := by decide

/-- 95_test_vectors.md V71, V72, V75 and V76: after 00 01 61, the end, a leaf marker alone, a bad marker, the symbol
again. -/
theorem test_witness_HdesFaultsAfterALeaf : begunFits 255 [some (.leaf 1#40 0x61#8)] ∧
    (begunSymbols [some (.leaf 1#40 0x61#8)]).Nodup ∧ 0x61#8 ∈ begunSymbols [some (.leaf 1#40 0x61#8)] ∧
    [0x00#8, 0x01#8, 0x61#8] = begunBytes [some (.leaf 1#40 0x61#8)] ∧
    [0x00#8, 0x01#8, 0x61#8, 0x01#8] = begunBytes [some (.leaf 1#40 0x61#8)] ++ [0x01#8] ∧
    [0x00#8, 0x01#8, 0x61#8, 0x02#8] = begunBytes [some (.leaf 1#40 0x61#8)] ++ 0x02#8 :: [] ∧
    [0x00#8, 0x01#8, 0x61#8, 0x01#8, 0x61#8] = begunBytes [some (.leaf 1#40 0x61#8)] ++ 0x01#8 :: 0x61#8 :: [] :=
  ⟨⟨Nat.zero_le _, trivial⟩, by decide, by decide, rfl, rfl, rfl, rfl⟩

/-- 95_test_vectors.md V77, V77a: 255 internal nodes open, no symbol yet. -/
theorem test_witness_HdesFaultsAtTheBound : begunFits 255 (List.replicate 255 none) ∧
    (begunSymbols (List.replicate 255 none)).Nodup ∧ (List.replicate 255 (none : Option Machine.Tree)).length = 255 := by
  rw [begunSymbols_replicate]
  exact ⟨begunFits_replicate 255, List.nodup_nil, List.length_replicate⟩

theorem test_witness_HdesRaisesNoOtherFaultOnItsBytes :
    (∃ t, exec .hdes (withIn [0x00#8, 0x01#8, 0x61#8] 0 0) = .next t ∧ t.err = 2#3) ∧
    ∃ t, exec .hdes (withIn [0x00#8, 0x01#8, 0x61#8, 0x02#8] 0 0) = .next t ∧ t.err = 5#3 :=
  ⟨ends_err (by decide +kernel), ends_err (by decide +kernel)⟩

theorem test_witness_HdesFaultLeavesNoTree :
    (∃ t, exec .hdes (withIn [0x00#8] 0 1) = .next t ∧ t.err = 6#3) ∧
    (∃ t, exec .hdes (withIn [] 0 0) = .next t ∧ t.err = 2#3) ∧
    ∃ t, exec .hdes (withIn [0x00#8, 0x01#8, 0x00#8, 0xFF#8] 0 0) = .next t ∧ t.err = 5#3 :=
  ⟨ends_err (by decide +kernel), ends_err (by decide +kernel), ends_err (by decide +kernel)⟩

theorem test_witness_HeaderRoundTrip : tree161.Wf ∧ tree161.view = some view161 ∧
    (∃ t, exec .hser (withTree tree161) = .next t ∧ t.err = 0#3) ∧ (withTree tree161).out.nbits = 0 ∧
    ∃ u, exec .hdes (withIn header161 0 0) = .next u ∧ u.err = 0#3 :=
  ⟨tree161_wf, tree161_view, ends_err (by decide +kernel), rfl, ends_err (by decide +kernel)⟩

/-- One above and one at `COUNT_MAX`, in mid-byte and aligned, and the words. -/
theorem test_witness_WcntWritesTheCount :
    State.reset.params.countMax < 0x80000000#32 ∧ 0x7FFFFFFF#32 ≤ State.reset.params.countMax ∧
    midOut.out.nbits ≠ 0 ∧ State.reset.out.nbits = 0 ∧ wordOp 0x300000000000#48 = 0x30#8 ∧
    wordSym 0x300000000000#48 = 0#8 ∧ wordOp 0x300180000000#48 = 0x30#8 ∧ wordSym 0x300180000000#48 ≠ 0#8 := by decide

/-- In mid-byte; no byte and three bytes; a count one above and one at `COUNT_MAX`; a word with a non-zero field. -/
theorem test_witness_RcntReadsTheCount :
    (withIn [0x00#8] 0 1).inp.bit ≠ 0 ∧ (withIn [] 0 0).inp.restBytes.length < 4 ∧
    (withIn [0x00#8, 0x00#8, 0x00#8] 0 0).inp.restBytes.length < 4 ∧
    (withIn [0x80#8, 0x00#8, 0x00#8, 0x00#8] 0 0).inp.restBytes = 0x80#8 :: 0x00#8 :: 0x00#8 :: 0x00#8 :: [] ∧
    State.reset.params.countMax < countValue .big 0x80#8 0x00#8 0x00#8 0x00#8 ∧
    countValue .big 0x7F#8 0xFF#8 0xFF#8 0xFF#8 ≤ State.reset.params.countMax ∧
    wordOp 0x310000000001#48 = 0x31#8 ∧ (0x310000000001#48 : CmdWord) ≠ 0x310000000000#48 := by decide

theorem test_witness_FlushPadsToAByteBoundary : State.reset.out.nbits = 0 ∧ midOut.out.nbits ≠ 0 ∧
    (∃ t u, exec .flush midOut = .next t ∧ exec .flush t = .next u) ∧
    wordOp 0x320000000001#48 = 0x32#8 ∧ (0x320000000001#48 : CmdWord) ≠ 0x320000000000#48 :=
  ⟨rfl, by decide, ⟨_, _, rfl, rfl⟩, by decide, by decide⟩

theorem test_witness_EightBitsAreOneByte : OutStream.reset.nbits = 0 ∧
    (InStream.rewind [0xC4#8]).bit = 0 ∧ (InStream.rewind [0xC4#8]).bytes[0]? = some 0xC4#8 := by decide

theorem inv_withCmd (w : CmdWord) : Inv (withCmd w) where
  coherent := ⟨by show (0#3) ≠ 7#3; decide, by show (0#8).toNat < 2 ^ (0 : Fin 8).val; decide, Nat.zero_le _,
    fun _ => rfl, Nat.zero_le _, .inl TreeStore.Wf.empty_wf⟩
  cp := Nat.zero_le _

theorem test_witness_StepKeepsTheInvariant : ∃ s t : State, Inv s ∧ step s = .next t ∧ s.cp < t.cp :=
  ⟨withCmd 0x320000000000#48, { withCmd 0x320000000000#48 with cp := 1 }, inv_withCmd _, rfl, Nat.one_pos⟩

theorem test_witness_EveryCommandAnswersANextState :
    Coherent { withTree tree161 with inp := InStream.rewind [0xC4#8] } ∧ Inv (withCmd 0x050000000000#48) :=
  ⟨coherent_of_wf tree161_wf, inv_withCmd _⟩

/-- "AABCD" over the tree of R161 (41_encode.md R180). -/
theorem test_witness_EngineRoundTrip : tree161.Wf ∧ tree161.view = some view161 ∧
    (∀ x ∈ [0x41#8, 0x41#8, 0x42#8, 0x43#8, 0x44#8], tree161.present x = true) ∧
    Coherent { withTree tree161 with inp := InStream.rewind [0xC4#8, 0xC0#8] } ∧
    view161.sameShape view161 = true ∧
    view161.payload [0x41#8, 0x41#8, 0x42#8, 0x43#8, 0x44#8] =
      some [true, true, false, false, false, true, false, false, true, true] ∧
    (InStream.rewind [0xC4#8, 0xC0#8]).restBits =
      [true, true, false, false, false, true, false, false, true, true] ++ List.replicate 6 false :=
  ⟨tree161_wf, tree161_view, by decide +kernel, coherent_of_wf tree161_wf, by decide, by decide, by decide⟩

theorem test_witness_CompressWritesOneContainer : State.reset.err = 0#3 ∧ State.reset.out.nbits = 0 ∧
    State.reset.out.acc = 0#8 ∧ [0x41#8, 0x41#8] ≠ [] ∧
    [0x41#8, 0x41#8].length ≤ State.reset.params.countMax.toNat := by decide

/-- Every sequence within `COUNT_MAX` has a second block whose input is what the first one wrote. -/
theorem test_witness_CompressThenDecompressIsTheData (t : State) :
    [0x41#8, 0x41#8].length ≤ State.reset.params.countMax.toNat ∧
    ∃ r : State, r.params = State.reset.params ∧ r.inp.bytes = t.out.bytes :=
  ⟨by decide, { State.reset with inp := InStream.rewind t.out.bytes }, rfl, rfl⟩

end Sys2Proof.Tests
end

section
/-! The family of the stored registers and `STATUS` (10_state.md): who writes the tree, `FREQ` and `CNT`, and that no
command but BUILD reads `FREQ` and none reads `CNT`. -/

namespace Sys2Proof.Machine

/-! ## Who writes the tree, `FREQ` and `CNT` -/

/-- Only BUILD, HDES and TCLR write the tree (10_state.md R44). -/
theorem Effect.tree_eq {i : Instr} {s t : State} (h : Effect s i t) (hbuild : i ≠ .build) (hhdes : i ≠ .hdes)
    (htclr : i ≠ .tclr) : t.tree = s.tree := by
  cases h with
  | build => exact absurd rfl hbuild
  | tclr => exact absurd rfl htclr
  | hdesMisaligned | hdesOk | hdesTruncated | hdesBad => exact absurd rfl hhdes
  | _ => rfl

/-- An HDES that completes leaves a non-empty tree (43_header.md R222). -/
theorem Effect.root_of_hdes {s t : State} (h : Effect s .hdes t) (ht : t.err = 0#3) :
    t.tree.root ≠ none := by
  cases h with
  | hdesOk p u _ hroot => exact hroot
  | hdesMisaligned | hdesTruncated | hdesBad => exact absurd ht (show _ ≠ 0#3 by simp)

/-- Only FCLR and FSET write `FREQ` (10_state.md R21). -/
theorem Effect.freq_eq {i : Instr} {s t : State} (h : Effect s i t) (hfclr : i ≠ .fclr)
    (hfset : ∀ x v, i ≠ .fset x v) : t.freq = s.freq := by
  cases h with
  | fclr => exact absurd rfl hfclr
  | fset x v => exact absurd rfl (hfset x v)
  | _ => rfl

/-- Only a completing RCNT writes `CNT` (10_state.md R23). -/
theorem Effect.cnt_eq {i : Instr} {s t : State} (h : Effect s i t) (hi : i ≠ .rcnt ∨ t.err ≠ 0#3)
    (hs : s.err = 0#3) : t.cnt = s.cnt := by
  cases h with
  | rcntOk => exact hi.elim (absurd rfl) (absurd hs)
  | _ => rfl

/-- A completing RCNT consumes four bytes and leaves their value in `CNT` (44_stream.md R242, R243). -/
theorem Effect.cnt_of_rcnt {s t : State} (h : Effect s .rcnt t) (ht : t.err = 0#3) :
    ∃ b0 b1 b2 b3, s.inp.restBytes = b0 :: b1 :: b2 :: b3 :: t.inp.restBytes ∧
      t.cnt = countValue s.params.countByteOrder b0 b1 b2 b3 := by
  cases h with
  | rcntOk b0 b1 b2 b3 _ _ hrest _ => exact ⟨b0, b1, b2, b3, hrest, rfl⟩
  | rcntMisaligned | rcntTruncated | rcntBad => exact absurd ht (show _ ≠ 0#3 by simp)

/-! ## No command but BUILD reads `FREQ`, and none reads `CNT`

A command that neither names nor reads either register runs the same from a state with other values there: its
pseudocode commutes with any update of the two. -/

/-- `FREQ` and `CNT` mapped, every other piece of state kept. -/
def mapFreqCnt (φ : Vector Freq 256 → Vector Freq 256) (κ : Count → Count) (s : State) : State :=
  { s with freq := φ s.freq, cnt := κ s.cnt }

section
variable (φ : Vector Freq 256 → Vector Freq 256) (κ : Count → Count) (s : State)

/-! ENC, DEC, HSER, HDES and WCNT read the tree, the streams and the parameters, never the two registers. -/

theorem encBody_mapFreqCnt (x : Byte) :
    encBody x (mapFreqCnt φ κ s) = (encBody x s).within (mapFreqCnt φ κ) := by
  unfold encBody mapFreqCnt
  cases s.tree.root with
  | none => rfl
  | some r =>
    cases s.tree.leafOf x with
    | none => rfl
    | some i =>
      dsimp only
      cases pathUp s.tree.nodes s.tree.nnode i [] <;> rfl

theorem decBody_mapFreqCnt : decBody (mapFreqCnt φ κ s) = (decBody s).within (mapFreqCnt φ κ) := by
  unfold decBody mapFreqCnt
  cases s.tree.root with
  | none => rfl
  | some r =>
    dsimp only
    cases decWalk s.tree.nodes s.tree.nnode (some r) s.inp <;> rfl

theorem hserBody_mapFreqCnt : hserBody (mapFreqCnt φ κ s) = (hserBody s).within (mapFreqCnt φ κ) := by
  unfold hserBody mapFreqCnt
  cases s.tree.root with
  | none => rfl
  | some r =>
    dsimp only
    split
    · cases serialize s.tree.nodes s.tree.nnode (some r) s.out <;> rfl
    · rfl

theorem hdesBody_mapFreqCnt : hdesBody (mapFreqCnt φ κ s) = (hdesBody s).within (mapFreqCnt φ κ) := by
  unfold hdesBody mapFreqCnt
  dsimp only
  split
  · cases des pathMax { inp := s.inp, tree := TreeStore.empty } <;> rfl
  · rfl

theorem wcntBody_mapFreqCnt (v : Count) :
    wcntBody v (mapFreqCnt φ κ s) = (wcntBody v s).within (mapFreqCnt φ κ) := by
  unfold wcntBody mapFreqCnt
  dsimp only
  split
  · rfl
  · split
    · cases writeBytes (countBytes s.params.countByteOrder v) s.out <;> rfl
    · rfl

/-- The commands other than the writers of `FREQ` and `CNT` and the reader BUILD see neither register. -/
theorem body_mapFreqCnt {i : Instr} (hfclr : i ≠ .fclr) (hfset : ∀ x v, i ≠ .fset x v) (hbuild : i ≠ .build)
    (hrcnt : i ≠ .rcnt) : body i (mapFreqCnt φ κ s) = (body i s).within (mapFreqCnt φ κ) := by
  cases i with
  | fclr => exact absurd rfl hfclr
  | fset x v => exact absurd rfl (hfset x v)
  | build => exact absurd rfl hbuild
  | rcnt => exact absurd rfl hrcnt
  | tclr | flush => rfl
  | enc x => exact encBody_mapFreqCnt φ κ s x
  | dec => exact decBody_mapFreqCnt φ κ s
  | hser => exact hserBody_mapFreqCnt φ κ s
  | hdes => exact hdesBody_mapFreqCnt φ κ s
  | wcnt v => exact wcntBody_mapFreqCnt φ κ s v

end

/-- `FREQ` set to `f`. -/
def setFreq (f : Vector Freq 256) (s : State) : State := { s with freq := f }

/-- `CNT` set to `c`. -/
def setCnt (c : Count) (s : State) : State := { s with cnt := c }

/-- RCNT writes `CNT` or raises, whatever `FREQ` holds. -/
theorem rcntBody_setFreq (f : Vector Freq 256) (s : State) :
    rcntBody (setFreq f s) = (rcntBody s).within (setFreq f) := by
  unfold rcntBody setFreq
  dsimp only
  split
  · cases readCount s.params.countByteOrder s.inp with
    | ok n i => simp only [within_ok, bind_ok]; split <;> rfl
    | raise k i => rfl
    | stuck x => rfl
  · rfl

/-- RCNT either writes the count it read over what `CNT` held, or raises with `CNT` as it was. -/
theorem rcntBody_setCnt (c : Count) (s : State) :
    ∃ d, rcntBody (setCnt c s) = (rcntBody s).within (setCnt d) := by
  unfold rcntBody setCnt
  dsimp only
  split
  · cases readCount s.params.countByteOrder s.inp with
    | ok n i =>
      simp only [within_ok, bind_ok]
      split
      · exact ⟨c, rfl⟩
      · exact ⟨n, rfl⟩
    | raise k i => exact ⟨c, rfl⟩
    | stuck x => exact ⟨c, rfl⟩
  · exact ⟨c, rfl⟩

/-- The pseudocode of no command but BUILD reads `FREQ`. Its run leaves a `FREQ` of its own: FSET keeps what stood at
the other symbols. -/
theorem body_setFreq {i : Instr} (hbuild : i ≠ .build) (f : Vector Freq 256) (s : State) :
    ∃ g, body i (setFreq f s) = (body i s).within (setFreq g) := by
  cases i with
  | fclr => exact ⟨clearFreq, rfl⟩
  | fset x v => exact ⟨writeFreq f x v, rfl⟩
  | build => exact absurd rfl hbuild
  | rcnt => exact ⟨f, rcntBody_setFreq f s⟩
  | _ => exact ⟨f, body_mapFreqCnt (fun _ => f) id s (by simp) (by simp) (by simp) (by simp)⟩

/-- The pseudocode of no command reads `CNT`. RCNT writes it only when it completes. -/
theorem body_setCnt (i : Instr) (c : Count) (s : State) :
    ∃ d, body i (setCnt c s) = (body i s).within (setCnt d) := by
  cases i with
  | fclr | fset | build => exact ⟨c, rfl⟩
  | rcnt => exact rcntBody_setCnt c s
  | _ => exact ⟨c, body_mapFreqCnt id (fun _ => c) s (by simp) (by simp) (by simp) (by simp)⟩

/-- From pseudocode to commands: `put a` sets a register other than `STATUS.ERR` and `CP`, so the rules for faults
(60_exceptions.md R300, R302) carry the two runs to next states that differ in that register alone. -/
theorem exec_next_beside {α : Type} {put : α → State → State} (herr : ∀ a s, (put a s).err = s.err)
    (hadvance : ∀ a s, advance (put a s) = put a (advance s))
    (hraise : ∀ a k s, raiseFault k (put a s) = put a (raiseFault k s)) {i : Instr} {s t : State} {a : α}
    (hbody : ∃ b, body i (put a s) = (body i s).within (put b)) (h : exec i s = .next t) :
    ∃ b, exec i (put a s) = .next (put b t) := by
  rw [exec_eq_command] at h ⊢
  obtain ⟨b, hb⟩ := hbody
  rcases command_next h with ⟨hs, rfl⟩ | ⟨hs, u, t', hrun, rfl⟩ | ⟨hs, k, t', hrun, rfl⟩
  · exact ⟨a, command_faulted (by rwa [herr])⟩
  · rw [hrun, within_ok] at hb
    exact ⟨b, by rw [command_ok (by rwa [herr]) hb, hadvance]⟩
  · rw [hrun, within_raise] at hb
    exact ⟨b, by rw [command_raise (by rwa [herr]) hb, hraise]⟩

/-- A command other than BUILD answers the same next state, but for `FREQ`, whatever `FREQ` held (10_state.md R21). -/
theorem exec_setFreq {i : Instr} {s t : State} (f : Vector Freq 256) (h : exec i s = .next t) (hbuild : i ≠ .build) :
    ∃ g, exec i (setFreq f s) = .next (setFreq g t) :=
  exec_next_beside (put := setFreq) (fun _ _ => rfl) (fun _ _ => rfl) (fun _ _ _ => rfl) (body_setFreq hbuild f s) h

/-- Every command answers the same next state, but for `CNT`, whatever `CNT` held (10_state.md R23). -/
theorem exec_setCnt {i : Instr} {s t : State} (c : Count) (h : exec i s = .next t) :
    ∃ d, exec i (setCnt c s) = .next (setCnt d t) :=
  exec_next_beside (put := setCnt) (fun _ _ => rfl) (fun _ _ => rfl) (fun _ _ _ => rfl) (body_setCnt i c s) h

/-! ## The obligations -/

/-- Settles O17, by the ways each command can end. -/
theorem onlyBuildHdesTclrWriteTheTree : Obligations.OnlyBuildHdesTclrWriteTheTree := by
  refine ⟨fun i s t h hbuild hhdes htclr => ?_, fun s t hs h => ?_, fun s t hs h ht => ?_, fun s t hs h => ?_,
    hostReset_tree⟩
  · rcases next_cases h with ⟨-, rfl⟩ | ⟨-, he⟩
    · rfl
    · exact he.tree_eq hbuild hhdes htclr
  · cases effect_of_next hs h; rfl
  · exact (effect_of_next hs h).root_of_hdes ht
  · cases effect_of_next hs h; rfl

/-- Settles O19: the writers by the ways each command can end, the readers by each command's pseudocode. -/
theorem freqIsWrittenByThreeAndReadByBuild : Obligations.FreqIsWrittenByThreeAndReadByBuild := by
  refine ⟨fun i s t h hfclr hfset => ?_, fun s t x hs h => ?_, fun s t x y v h hy => ?_, fun _ => readFreq_clearFreq,
    fun i s t f h hbuild => exec_setFreq f h hbuild, fun _ _ => rfl⟩
  · rcases next_cases h with ⟨-, rfl⟩ | ⟨-, he⟩
    · rfl
    · exact he.freq_eq hfclr hfset
  · cases effect_of_next hs h
    exact readFreq_clearFreq x
  · rcases next_cases h with ⟨-, rfl⟩ | ⟨-, he⟩
    · rfl
    · cases he
      exact (readFreq_writeFreq s.freq x y v).trans (if_neg hy)

/-- Settles O20: RCNT's four ways to end, and each command's pseudocode beside another `CNT`. -/
theorem cntHoldsTheLastCountAndIsNeverRead : Obligations.CntHoldsTheLastCountAndIsNeverRead := by
  refine ⟨fun i s t h hi => ?_, fun s t hs h ht => (effect_of_next hs h).cnt_of_rcnt ht, fun _ => ⟨rfl, rfl⟩,
    fun i s t c h => exec_setCnt c h⟩
  rcases next_cases h with ⟨-, rfl⟩ | ⟨hs, he⟩
  · rfl
  · exact he.cnt_eq hi hs

/-- Settles O22, by the bits of the concatenation. -/
theorem statusShowsEmptyFaultAndCode : Obligations.StatusShowsEmptyFaultAndCode := by
  intro s
  obtain ⟨hempty, hfault, herr, hzero⟩ := status_bits s
  refine ⟨?_, ?_, herr, hzero, (by decide : State.reset.status = 0b00000001#8), rfl⟩
  · rw [hempty, State.emptyFlag, beq_iff_eq]
  · rw [hfault, State.faultFlag, bne_iff_ne]

end Sys2Proof.Machine
end

section
/-! The family of the command word (30_encoding.md): its three fields, the words the decoder takes, and the step on an
illegal word. -/

namespace Sys2Proof

/-! ## The fields of a word -/

/-- The fields of a word make the word up, in the order `op`, `sym`, `val` (30_encoding.md R101). -/
theorem fields_append (w : CmdWord) : wordOp w ++ (wordSym w ++ wordVal w : BitVec 40) = w := by
  unfold wordOp wordSym wordVal
  rw [BitVec.extractLsb'_append_extractLsb'_eq_extractLsb' (start₁ := 0) (len₁ := 32) rfl,
    BitVec.extractLsb'_append_extractLsb'_eq_extractLsb' (start₁ := 0) (len₁ := 32 + 8) rfl]
  exact BitVec.extractLsb'_eq_self

/-- A word given by its fields is their shifts put together (30_encoding.md R101). -/
theorem word_eq_shifts_or (a b : Byte) (c : BitVec 32) : (a ++ (b ++ c : BitVec 40) : CmdWord) =
    a.setWidth 48 <<< 40 ||| b.setWidth 48 <<< 32 ||| c.setWidth 48 := by
  calc (a ++ (b ++ c : BitVec 40) : CmdWord)
      = (a ++ (b ++ c)).setWidth 48 := (BitVec.setWidth_eq _).symm
    _ = a.setWidth 48 <<< 40 ||| (b.setWidth 48 <<< 32 ||| c.setWidth 48) := by
      rw [BitVec.setWidth_append_eq_shiftLeft_setWidth_or, BitVec.setWidth_append_eq_shiftLeft_setWidth_or]
    _ = _ := (BitVec.or_assoc ..).symm

theorem wordOp_toNat (w : CmdWord) : (wordOp w).toNat = w.toNat / 2 ^ 40 := by
  rw [wordOp, BitVec.extractLsb'_toNat, Nat.shiftRight_eq_div_pow]
  exact Nat.mod_eq_of_lt (Nat.div_lt_of_lt_mul w.isLt)

theorem wordSym_toNat (w : CmdWord) : (wordSym w).toNat = w.toNat / 2 ^ 32 % 2 ^ 8 := by
  rw [wordSym, BitVec.extractLsb'_toNat, Nat.shiftRight_eq_div_pow]

theorem wordVal_toNat (w : CmdWord) : (wordVal w).toNat = w.toNat % 2 ^ 32 := by
  rw [wordVal, BitVec.extractLsb'_toNat, Nat.shiftRight_zero]

/-! ## What the decoder answers -/

/-- A byte is a defined `op` iff it is the code of an opcode (30_encoding.md R103). -/
theorem mem_codes_iff (b : Byte) :
    b ∈ [0x01#8, 0x02#8, 0x03#8, 0x04#8, 0x10#8, 0x11#8, 0x20#8, 0x21#8, 0x30#8, 0x31#8, 0x32#8] ↔
      ∃ o : Opcode, b = o.code := by
  constructor
  · intro h
    obtain ⟨o, -, ho⟩ := List.mem_map.mp (show b ∈ Opcode.all.map Opcode.code from h)
    exact ⟨o, ho.symm⟩
  · rintro ⟨o, rfl⟩
    cases o <;> decide

/-! When a format refuses its operand fields: one of those it does not use is not zero (30_encoding.md R102). -/

@[simp] theorem admits_n_eq_false (x : Byte) (v : BitVec 32) :
    Format.n.admits x v = false ↔ x ≠ 0#8 ∨ v ≠ 0#32 := by
  rw [Format.admits, Bool.and_eq_false_iff, beq_eq_false_iff_ne, beq_eq_false_iff_ne]

@[simp] theorem admits_s_eq_false (x : Byte) (v : BitVec 32) : Format.s.admits x v = false ↔ v ≠ 0#32 :=
  beq_eq_false_iff_ne

@[simp] theorem admits_v_eq_false (x : Byte) (v : BitVec 32) : Format.v.admits x v = false ↔ x ≠ 0#8 :=
  beq_eq_false_iff_ne

@[simp] theorem admits_sv (x : Byte) (v : BitVec 32) : Format.sv.admits x v = true := rfl

/-- The decoder on a word whose `op` is defined: the row's format decides (30_encoding.md R104). -/
theorem decode_of_opcode {w : CmdWord} {o : Opcode} (hop : wordOp w = o.code) : decode w =
    if o.format.admits (wordSym w) (wordVal w) then .ok (o.toInstr (wordSym w) (wordVal w))
    else .error (.nonZeroField o) := by
  unfold decode
  rw [hop, ofCode_code]
  rfl

/-- The decoder on a word whose `op` is none of the eleven (30_encoding.md R105). -/
theorem decode_of_undefined {w : CmdWord} (hop : ∀ o : Opcode, wordOp w ≠ o.code) :
    decode w = .error (.undefinedOpcode (wordOp w)) := by
  have hnone : Opcode.ofCode (wordOp w) = none :=
    Option.eq_none_iff_forall_ne_some.mpr fun o h => hop o (ofCode_some h)
  simp only [decode, hnone]

/-- A word whose `op` is defined and whose unused fields are zero decodes to its row's command (30_encoding.md R107). -/
theorem decode_of_admits {w : CmdWord} {o : Opcode} (hop : wordOp w = o.code)
    (hf : o.format.admits (wordSym w) (wordVal w) = true) : decode w = .ok (o.toInstr (wordSym w) (wordVal w)) := by
  rw [decode_of_opcode hop, if_pos hf]

end Sys2Proof

namespace Sys2Proof.Machine

/-- A word whose `op` is none of the eleven is illegal (30_encoding.md R105). -/
theorem illegalWord_of_undefined {w : CmdWord} (hop : ∀ o : Opcode, wordOp w ≠ o.code) : IllegalWord w :=
  .inl fun h => ((mem_codes_iff _).mp h).elim hop

/-- A word whose `op` is defined is illegal iff its row's format does not admit its operand fields
(30_encoding.md R102, R104). -/
theorem illegalWord_of_opcode {w : CmdWord} {o : Opcode} (hop : wordOp w = o.code) :
    IllegalWord w ↔ o.format.admits (wordSym w) (wordVal w) = false := by
  unfold IllegalWord
  rw [hop]
  cases o <;> simp [Opcode.code, Opcode.format]

/-- The illegal words are those the decoder refuses (30_encoding.md R104, R105). -/
theorem illegalWord_iff (w : CmdWord) : IllegalWord w ↔ ¬ ∃ i, decode w = .ok i := by
  by_cases hop : ∃ o : Opcode, wordOp w = o.code
  · obtain ⟨o, hop⟩ := hop
    rw [illegalWord_of_opcode hop, decode_of_opcode hop]
    cases o.format.admits (wordSym w) (wordVal w) <;> simp
  · have hop : ∀ o : Opcode, wordOp w ≠ o.code := not_exists.mp hop
    simp [illegalWord_of_undefined hop, decode_of_undefined hop]

/-- A block that meets a word the decoder refuses presents it to the rules for faults (30_encoding.md R104). -/
theorem step_of_decode_error {s : State} {w : CmdWord} {e : DecodeError} (hw : fetch s = some w)
    (hd : decode w = .error e) : step s = illegalCommand s := by
  simp only [step, hw, hd]

/-- `IllegalCommand` is raised at once and `STATUS.ERR` alone changes (60_exceptions.md R300). -/
theorem illegalCommand_of_unfaulted {s : State} (hs : s.err = 0#3) :
    illegalCommand s = .next { s with err := 4#3 } :=
  command_raise hs rfl

theorem refuses_of_illegalWord {w : CmdWord} (h : IllegalWord w) : Refuses w := by
  intro s hs hw
  cases hd : decode w with
  | ok i => exact absurd ⟨i, hd⟩ ((illegalWord_iff w).mp h)
  | error e => exact (step_of_decode_error hw hd).trans (illegalCommand_of_unfaulted hs)

/-! ## The obligations -/

/-- Settles O2, by the format of each row: FSET's admits any operands, ENC's any `sym`, WCNT's any `val`. -/
theorem operandsAreTakenAsTheyStand : Obligations.OperandsAreTakenAsTheyStand := by
  refine fun w => ⟨fun hop => ?_, fun hop hval => ?_, fun hop hsym => ?_⟩
  · exact decode_of_admits (o := .fset) hop rfl
  · exact decode_of_admits (o := .enc) hop (beq_iff_eq.mpr hval)
  · exact decode_of_admits (o := .wcnt) hop (beq_iff_eq.mpr hsym)

/-- Settles O4: a word is the concatenation of its fields, and `encode` concatenates a command's. -/
theorem commandWordIsItsThreeFields : Obligations.CommandWordIsItsThreeFields :=
  ⟨fun w => ⟨wordOp_toNat w, wordSym_toNat w, wordVal_toNat w, (fields_append w).symm.trans (word_eq_shifts_or ..)⟩,
    fun _ => word_eq_shifts_or ..⟩

/-- Settles O6, by the opcode of the word, if it has one. -/
theorem illegalWordRaisesIllegalCommand : Obligations.IllegalWordRaisesIllegalCommand :=
  ⟨illegalWord_iff, fun _ => refuses_of_illegalWord⟩

end Sys2Proof.Machine
end

section
/-! The family of the tree construction (40_build.md): the commands that always complete, the words of the commands
without operands, and BUILD on a vector with at most one positive frequency. -/

namespace Sys2Proof.Machine

/-! ## Commands and words -/

/-- A command whose pseudocode returns completes and advances `CP` (10_state.md R37). -/
theorem exec_of_body_ok {i : Instr} {s t : State} {u : Unit} (hs : s.err = 0#3) (hb : body i s = .ok u t) :
    exec i s = .next (advance t) := by
  rw [exec_eq_command, command_ok hs hb]

/-- FCLR on a block that is not faulted (40_build.md R141). -/
theorem exec_fclr {s : State} (hs : s.err = 0#3) : exec .fclr s = .next { s with freq := clearFreq, cp := s.cp + 1 } :=
  exec_of_body_ok (t := { s with freq := clearFreq }) (u := ()) hs rfl

/-- FSET on a block that is not faulted (40_build.md R142). -/
theorem exec_fset {s : State} (x : Byte) (v : Freq) (hs : s.err = 0#3) :
    exec (.fset x v) s = .next { s with freq := writeFreq s.freq x v, cp := s.cp + 1 } :=
  exec_of_body_ok (t := { s with freq := writeFreq s.freq x v }) (u := ()) hs rfl

/-- BUILD on a block that is not faulted (40_build.md R143, R151). -/
theorem exec_build {s : State} (hs : s.err = 0#3) :
    exec .build s = .next { s with tree := buildTree s.freq, cp := s.cp + 1 } :=
  exec_of_body_ok (t := { s with tree := buildTree s.freq }) (u := ()) hs rfl

/-- TCLR on a block that is not faulted (40_build.md R160). -/
theorem exec_tclr {s : State} (hs : s.err = 0#3) :
    exec .tclr s = .next { s with tree := TreeStore.empty, cp := s.cp + 1 } :=
  exec_of_body_ok (t := { s with tree := TreeStore.empty }) (u := ()) hs rfl

/-- ENC, DEC and HSER check for the empty tree before they do anything (60_exceptions.md R294). -/
theorem exec_of_root_none {i : Instr} {s : State} (hi : (∃ x, i = .enc x) ∨ i = .dec ∨ i = .hser)
    (hs : s.err = 0#3) (hroot : s.tree.root = none) : exec i s = .next { s with err := 3#3 } := by
  rw [exec_eq_command]
  refine command_raise (k := .emptyTree) hs ?_
  obtain ⟨x, rfl⟩ | rfl | rfl := hi
  · simp only [body, encBody, hroot]
  · simp only [body, decBody, hroot]
  · simp only [body, hserBody, hroot]

/-- A command without operands has one word: every other word with its `op` has a non-zero field
(30_encoding.md R102, R104). -/
theorem refuses_of_ne_bare {w : CmdWord} {o : Opcode} (hf : o.format = .n) (hop : wordOp w = o.code)
    (hw : w ≠ o.code ++ (0#8 ++ 0#32 : BitVec 40)) : Refuses w := by
  apply refuses_of_illegalWord
  rw [illegalWord_of_opcode hop, hf, admits_n_eq_false, ← not_and_or]
  rintro ⟨hsym, hval⟩
  exact hw (by rw [← hop, ← hsym, ← hval, fields_append])

/-- `STATUS.EMPTY` shows a tree without a root (10_state.md R25). -/
theorem status_empty_iff (s : State) : s.status.getLsbD 0 = true ↔ s.tree.root = none :=
  (statusShowsEmptyFaultAndCode s).1

/-! ## BUILD on a vector with at most one positive frequency -/

/-- Step 1 of BUILD passes over the symbols of frequency 0 (40_build.md R145). -/
theorem buildLeaves_eq_foldl_positives (freq : Vector Freq 256) :
    buildLeaves freq = (positives freq).foldl (buildLeaf freq) (TreeStore.empty, []) := by
  have hstep : buildLeaf freq = fun acc s => if readFreq freq s != 0#32 then buildLeaf freq acc s else acc := by
    funext acc s
    by_cases h : readFreq freq s = 0#32 <;> simp [buildLeaf, h]
  rw [positives, List.foldl_filter, ← hstep, buildLeaves]

theorem positives_eq_nil {freq : Vector Freq 256} (h : ∀ x, readFreq freq x = 0#32) : positives freq = [] :=
  List.filter_eq_nil_iff.mpr fun x _ => by simp [h x]

theorem positives_eq_singleton {freq : Vector Freq 256} {x : Byte} (hx : readFreq freq x ≠ 0#32)
    (h : ∀ y, y ≠ x → readFreq freq y = 0#32) : positives freq = [x] := by
  have hp : ∀ y, (readFreq freq y != 0#32) = (y == x) := fun y => by
    by_cases hy : y = x
    · simp [hy, hx]
    · simp [hy, h y hy]
  rw [positives, List.filter_congr fun y _ => hp y, List.filter_beq,
    List.count_eq_one_of_mem allSymbols_nodup (mem_allSymbols x), List.replicate_one]

/-- A new leaf is the next entry, and the lookup table leads to it (40_build.md R145). -/
theorem addLeaf_leafOf_same (t : TreeStore) (w : Weight) (s : Byte) : (t.addLeaf w s).2.leafOf s = some t.nnode :=
  (leafOf_setLeaf _ s s _).trans (if_pos rfl)

/-- With no positive frequency BUILD makes no node (40_build.md R153). -/
theorem buildTree_of_positives_nil {freq : Vector Freq 256} (h : positives freq = []) :
    buildTree freq = TreeStore.empty := by
  rw [buildTree, buildLeaves_eq_foldl_positives, h]
  rfl

/-- With one positive frequency BUILD makes that symbol's leaf, merges nothing, and takes the leaf as the root
(40_build.md R154). -/
theorem buildTree_of_positives_singleton {freq : Vector Freq 256} {x : Byte} (h : positives freq = [x])
    (hx : readFreq freq x ≠ 0#32) :
    buildTree freq = { (TreeStore.empty.addLeaf (freqWeight (readFreq freq x)) x).2 with root := some 0 } := by
  have hleaf : buildLeaf freq (TreeStore.empty, []) x =
      ((TreeStore.empty.addLeaf (freqWeight (readFreq freq x)) x).2, [⟨0, freqWeight (readFreq freq x), x⟩]) :=
    if_neg hx
  rw [buildTree, buildLeaves_eq_foldl_positives, h, List.foldl_cons, List.foldl_nil, hleaf]
  rfl

/-! ## The obligations -/

/-- Settles O27: BUILD leaves the empty tree, and on it the first check of ENC, DEC and HSER raises. -/
theorem buildWithNoSymbolLeavesTheEmptyTree : Obligations.BuildWithNoSymbolLeavesTheEmptyTree := by
  intro s hs hzero
  have hbuild := exec_build hs
  rw [buildTree_of_positives_nil (positives_eq_nil hzero)] at hbuild
  exact ⟨_, hbuild, rfl, rfl, leafOf_empty, rfl, (status_empty_iff _).mpr rfl,
    fun x => exec_of_root_none (.inl ⟨x, rfl⟩) hs rfl, exec_of_root_none (.inr (.inl rfl)) hs rfl,
    exec_of_root_none (.inr (.inr rfl)) hs rfl⟩

/-- Settles O28: the one leaf is entry 0 of the store and the root. -/
theorem buildWithOneSymbolMakesOneLeaf : Obligations.BuildWithOneSymbolMakesOneLeaf := by
  intro s x hs hx hzero
  refine ⟨buildTree s.freq, 0, leafNode s.freq x, exec_build hs, ?_⟩
  rw [buildTree_of_positives_singleton (positives_eq_singleton hx hzero) hx]
  exact ⟨rfl, rfl, addLeaf_leafOf_same .., rfl, rfl, rfl, rfl, rfl,
    Bool.eq_false_iff.mpr (mt (status_empty_iff _).mp (Option.some_ne_none 0))⟩

/-- Settles O23: FCLR clears every entry, and of the words with its `op` only the one with zero operands is legal. -/
theorem fclrClearsEveryFrequency : Obligations.FclrClearsEveryFrequency :=
  ⟨fun _ hs => ⟨clearFreq, exec_fclr hs, readFreq_clearFreq⟩, rfl,
    fun _ hop hw => refuses_of_ne_bare (o := .fclr) rfl hop hw⟩

/-- Settles O24, by a read of `FREQ` after a write, and the words of FSET. -/
theorem fsetWritesOneFrequency : Obligations.FsetWritesOneFrequency := by
  refine ⟨fun s x v hs => ⟨writeFreq s.freq x v, exec_fset x v hs, ?_, fun y hy => ?_⟩,
    fun w => (operandsAreTakenAsTheyStand w).1⟩
  · rw [readFreq_writeFreq, if_pos rfl]
  · rw [readFreq_writeFreq, if_neg hy]

/-- Settles O25: TCLR leaves the empty store, and of the words with its `op` only the one with zero operands is
legal. -/
theorem tclrDestroysTheTree : Obligations.TclrDestroysTheTree :=
  ⟨fun _ hs => ⟨TreeStore.empty, exec_tclr hs, rfl, rfl, leafOf_empty, (status_empty_iff _).mpr rfl⟩, rfl,
    fun _ hop hw => refuses_of_ne_bare (o := .tclr) rfl hop hw⟩

end Sys2Proof.Machine
end

section
/-! The family of the encoder (41_encode.md): ENC's two checks, and codes that are no prefix of one another. -/

namespace Sys2Proof.Machine

/-- On a non-empty tree ENC raises on a symbol without a leaf before it writes a bit (41_encode.md R171). -/
theorem exec_enc_of_leafOf_none {s : State} {x : Byte} (hs : s.err = 0#3) (hroot : s.tree.root ≠ none)
    (hleaf : s.tree.leafOf x = none) : exec (.enc x) s = .next { s with err := 1#3 } := by
  obtain ⟨r, hr⟩ := Option.ne_none_iff_exists'.mp hroot
  rw [exec_eq_command]
  exact command_raise (k := .invalidSymbol) hs (by simp only [body, encBody, hr, hleaf])

/-- A well-formed store with a present symbol holds a tree. -/
theorem TreeStore.Wf.view_of_present {t : TreeStore} (h : t.Wf) {x : Byte} (hx : t.present x = true) :
    ∃ T, t.view = some T := by
  obtain ⟨r, hr⟩ := h.root_of_present hx
  obtain ⟨T, hT, -⟩ := h.view_some hr
  exact ⟨T, hT⟩

/-- A present symbol has a code (10_state.md R41). -/
theorem TreeStore.Wf.code_of_present {t : TreeStore} (h : t.Wf) {T : Tree} (hv : t.view = some T) {x : Byte}
    (hx : t.present x = true) : ∃ bs, T.code x = some bs :=
  Option.isSome_iff_exists.mp ((code_isSome T x).mpr ((h.present_iff hv x).mp hx))

/-- A code that begins another is the code of the same symbol: the walk along the longer one stops at the leaf of the
shorter one. -/
theorem eq_of_code_prefix {T : Tree} {x y : Byte} {a b : List Bit} (ha : T.code x = some a) (hb : T.code y = some b)
    (hab : a <+: b) : x = y := by
  obtain ⟨rest, rfl⟩ := hab
  have hx : T.walk (a ++ rest) = some (x, rest) := walk_code ha rest
  have hy : T.walk (a ++ rest) = some (y, []) := by simpa using walk_code hb []
  rw [hx] at hy
  exact congrArg Prod.fst (Option.some.inj hy)

/-! ## The obligations -/

/-- Settles O35: both symbols are leaves of the one tree, and the walk tells their codes apart. -/
theorem codesArePrefixFree : Obligations.CodesArePrefixFree := by
  intro t x y hwf hx hy hne
  obtain ⟨T, hT⟩ := hwf.view_of_present hx
  obtain ⟨a, ha⟩ := hwf.code_of_present hT hx
  obtain ⟨b, hb⟩ := hwf.code_of_present hT hy
  exact ⟨T, a, b, hT, ha, hb, fun hab => hne (eq_of_code_prefix ha hb hab)⟩

/-- Settles O34: the check of `ROOT`, then the check of `LEAF[s]`. -/
theorem encChecksComeBeforeAnyBit : Obligations.EncChecksComeBeforeAnyBit :=
  fun _ x hs => ⟨exec_of_root_none (.inl ⟨x, rfl⟩) hs, exec_enc_of_leafOf_none hs⟩

end Sys2Proof.Machine
end

section
/-! The family of the decoder (42_decode.md): DEC where the stream ends before a leaf, and DEC on a root that is a
leaf. -/

namespace Sys2Proof.Machine

/-! ## The stream ends before a leaf -/

/-- A walk that no code of the tree begins does not end (42_decode.md R194). -/
theorem walk_eq_none {T : Tree} (hn : T.symbols.Nodup) {bits : List Bit}
    (h : ∀ x bs, T.code x = some bs → ¬ bs <+: bits) : T.walk bits = none := by
  rw [Option.eq_none_iff_forall_ne_some]
  rintro ⟨x, rest⟩ hw
  obtain ⟨bs, hcode, hbits⟩ := walk_some hn hw
  exact h x bs hcode ⟨rest, hbits.symm⟩

/-- The place of a stream at its end is fixed by its bytes: it is aligned there (20_memory.md R68). -/
theorem InOk.eq_of_atEnd {i j : InStream} (hok : InOk i) (hbytes : i.bytes = j.bytes)
    (hpos : i.pos = j.bytes.length) : i = { j with pos := j.bytes.length, bit := 0 } := by
  obtain ⟨bytes, pos, bit⟩ := i
  obtain rfl : bytes = j.bytes := hbytes
  obtain rfl : pos = j.bytes.length := hpos
  obtain rfl : bit = 0 := hok.2 rfl
  rfl

/-! ## The root is a leaf -/

/-- DEC's loop at a leaf reads no bit (42_decode.md R192, R193). -/
theorem decWalk_of_isLeaf {nodes : List Node} {c : Nat} {nd : Node} (hnd : nodes[c]? = some nd)
    (hleaf : nd.isLeaf = true) (n : Nat) (i : InStream) : decWalk nodes n (some c) i = .ok nd.symbol i := by
  rw [decWalk.eq_def]
  simp [hnd, hleaf]

/-- DEC on a root that is a leaf completes with the root's symbol (42_decode.md R193). -/
theorem exec_dec_of_root_isLeaf {s : State} {r : Nat} {nd : Node} (hs : s.err = 0#3) (hr : s.tree.root = some r)
    (hnd : s.tree.node? r = some nd) (hleaf : nd.isLeaf = true) :
    exec .dec s = .next { s with sym := nd.symbol, dout := s.dout ++ [nd.symbol], cp := s.cp + 1 } := by
  have hwalk := decWalk_of_isLeaf hnd hleaf s.tree.nnode s.inp
  exact exec_of_body_ok (t := emitSymbol nd.symbol s) (u := ()) hs (by simp [body, decBody, hr, hwalk])

/-- DEC on a root that is a leaf leaves the tree and IN as they were, so it can be repeated (42_decode.md R193). -/
theorem execAll_dec_of_root_isLeaf {s : State} {r : Nat} {nd : Node} (hs : s.err = 0#3) (hr : s.tree.root = some r)
    (hnd : s.tree.node? r = some nd) (hleaf : nd.isLeaf = true) (n : Nat) :
    execAll (List.replicate (n + 1) .dec) s =
      .next { s with sym := nd.symbol, dout := s.dout ++ List.replicate (n + 1) nd.symbol, cp := s.cp + (n + 1) } := by
  induction n generalizing s with
  | zero => exact execAll_cons (exec_dec_of_root_isLeaf hs hr hnd hleaf)
  | succ n ih =>
    have htail := ih (s := advance (emitSymbol nd.symbol s)) hs hr hnd
    refine (execAll_cons (exec_dec_of_root_isLeaf hs hr hnd hleaf)).trans (htail.trans ?_)
    simp [List.replicate_succ, Nat.add_comm, Nat.add_left_comm]

/-! ## The obligations -/

/-- Settles O38: no code begins the bits left, so the walk does not end, and the stream stands aligned at its end. -/
theorem decRaisesTruncatedStreamInMidPath : Obligations.DecRaisesTruncatedStreamInMidPath := by
  intro s T hs hc hv hcodes
  have hwalk := walk_eq_none ((hc.wf hs).symbols_nodup hv) hcodes
  obtain ⟨i, hbytes, hok, ⟨v, hsome, -⟩ | ⟨-, hpos, hexec⟩⟩ := exec_dec hs hc hv
  · rw [hwalk] at hsome
    cases hsome
  · rw [hexec, hok.eq_of_atEnd hbytes hpos]

/-- Settles O39: one DEC at a leaf, and the induction on their number. -/
theorem decOnOneLeafReadsNoBit : Obligations.DecOnOneLeafReadsNoBit :=
  fun _ _ _ hs hr hnd hleaf =>
    ⟨exec_dec_of_root_isLeaf hs hr hnd hleaf, execAll_dec_of_root_isLeaf hs hr hnd hleaf⟩

end Sys2Proof.Machine
end

section
/-! The family of the header (43_header.md): HSER's two checks, what HSER and HDES do on a tree and on its header, and
the round trip between them. -/

namespace Sys2Proof.Machine

/-! ## HSER -/

/-- On a non-empty tree HSER raises in the middle of a byte before it writes one (43_header.md R211). -/
theorem exec_hser_misaligned {s : State} (hs : s.err = 0#3) (hroot : s.tree.root ≠ none) (hn : s.out.nbits ≠ 0) :
    exec .hser s = .next { s with err := 6#3 } := by
  obtain ⟨r, hr⟩ := Option.ne_none_iff_exists'.mp hroot
  rw [exec_eq_command]
  exact command_raise (k := .misaligned) hs (by simp only [body, hserBody, hr, if_neg hn])

/-- HSER of a well-formed tree on an aligned stream appends the tree's header (43_header.md R212). -/
theorem exec_hser_aligned {s : State} {T : Tree} (hs : s.err = 0#3) (hwf : s.tree.Wf) (hv : s.tree.view = some T)
    (hn : s.out.nbits = 0) :
    exec .hser s = .next { s with out := { s.out with bytes := s.out.bytes ++ T.header }, cp := s.cp + 1 } := by
  obtain ⟨r, hr, hT⟩ := TreeStore.view_root hv
  have hser := hT.serialize hwf.forest.downward s.tree.nnode hT.lt.le s.out hn
  exact exec_of_body_ok (t := { s with out := { s.out with bytes := s.out.bytes ++ T.header } }) (u := ()) hs
    (by simp only [body, hserBody, hr, if_pos hn, hser, within_ok])

/-- An HSER that completes on a non-empty tree stood on an aligned stream. -/
theorem aligned_of_hser {s t : State} (hs : s.err = 0#3) (hroot : s.tree.root ≠ none) (h : exec .hser s = .next t)
    (ht : t.err = 0#3) : s.out.nbits = 0 := by
  by_contra hn
  rw [exec_hser_misaligned hs hroot hn] at h
  cases h
  exact absurd ht (code_ne_zero .misaligned)

/-! ## HDES -/

/-- The bytes left after the first of them are skipped. -/
theorem restBytes_skip {i : InStream} {front rest : List Byte} (h : i.restBytes = front ++ rest) :
    ({ i with pos := i.pos + front.length } : InStream).restBytes = rest := by
  have hdrop : i.restBytes.drop front.length = rest := by rw [h, List.drop_left]
  rwa [InStream.restBytes, List.drop_drop] at hdrop

/-- HDES completes when its descent returns, and takes the node returned as the root (43_header.md R222). -/
theorem exec_hdes_of_des_ok {s : State} (hs : s.err = 0#3) (hb : s.inp.bit = 0) {e : Keyed} {d : Loader}
    (hd : des pathMax { inp := s.inp, tree := TreeStore.empty } = .ok e d) :
    exec .hdes s =
      .next { s with inp := d.inp, tree := { d.tree with root := some e.node }, cp := s.cp + 1 } :=
  exec_of_body_ok (t := { s with inp := d.inp, tree := { d.tree with root := some e.node } }) (u := ()) hs
    (by simp only [body, hdesBody, if_pos hb, hd, within_ok, bind_ok])

/-- HDES over the header of a tree with different symbols makes the tree of that header (43_header.md R222 to R226):
the descent returns, because such a tree is never too deep, and the header fixes the tree it returns. -/
theorem exec_hdes_of_header {s : State} {T : Tree} {rest : List Byte} (hs : s.err = 0#3) (hb : s.inp.bit = 0)
    (hr : s.inp.restBytes = T.header ++ rest) (hn : T.symbols.Nodup) : ∃ t : TreeStore,
    exec .hdes s =
      .next { s with inp := { s.inp with pos := s.inp.pos + T.header.length }, tree := t, cp := s.cp + 1 } ∧
    t.Wf ∧ t.view = some T.rebuilt ∧ ∀ x, t.present x = true ↔ x ∈ T.symbols := by
  have hpos : s.inp.pos ≤ s.inp.bytes.length := by
    have hlen := congrArg List.length hr
    have := header_pos T
    rw [restBytes_length, List.length_append] at hlen
    omega
  have hheight : T.height ≤ pathMax := by
    have := height_lt_leaves T
    have := leaves_le_of_nodup hn
    show T.height ≤ 255
    omega
  obtain ⟨e, d, hd, hok, -⟩ := des_header T (loaderOk_start hb hpos) hr hn (fun x _ => leafOf_empty x) hheight
  have hwf := hok.loader.growing.wf (r := some e.node)
  have hinp : d.inp = { s.inp with pos := s.inp.pos + T.header.length } := by
    rw [inStream_pos hok.bytes hb hok.loader.aligned, hok.pos, rebuilt_header]
  refine ⟨_, hinp ▸ exec_hdes_of_des_ok hs hb hd, hwf, view_of_stands hok.stands hwf, fun x => ?_⟩
  have hempty : ¬ TreeStore.empty.present x = true := by simp [TreeStore.present]
  rw [← rebuilt_symbols]
  exact (hok.present x).trans (or_iff_right hempty)

/-- An HDES that completes has read the header of the well-formed tree it leaves, and no byte more. -/
theorem header_of_hdes {r u : State} (hr : r.err = 0#3) (h : exec .hdes r = .next u) (hu : u.err = 0#3) :
    ∃ T : Tree, u.tree.Wf ∧ u.tree.view = some T ∧ r.inp.restBytes = T.header ++ u.inp.restBytes ∧
      u.inp.pos = r.inp.pos + T.header.length := by
  by_cases hb : r.inp.bit = 0
  · obtain ⟨T, t, i, hwf, hv, -, -, hrest, hi, -, -, hexec⟩ | ⟨k, t, i, -, -, -, -, hexec⟩ := exec_hdes_cases hr hb
    · rw [hexec] at h
      cases h
      exact ⟨T, hwf, hv, hrest, by rw [hi]⟩
    · rw [hexec] at h
      cases h
      exact absurd hu (code_ne_zero k)
  · rw [exec_hdes_misaligned hr hb] at h
    cases h
    exact absurd hu (code_ne_zero .misaligned)

/-! ## The obligations -/

/-- Settles O42: the check of `ROOT`, then the check of the alignment. -/
theorem hserChecksComeBeforeAnyByte : Obligations.HserChecksComeBeforeAnyByte :=
  fun _ hs => ⟨exec_of_root_none (.inr (.inr rfl)) hs, exec_hser_misaligned hs⟩

/-- Settles O47: HSER writes the header of the tree, and HDES makes of that header the rebuilt tree, which has the same
codes, symbols and header; conversely HDES consumes the header of the tree it leaves. -/
theorem headerRoundTrip : Obligations.HeaderRoundTrip := by
  refine ⟨fun s t T hs hwf hv hser ht => ?_, fun r u hr hdes hu => ?_⟩
  · obtain ⟨root, hroot, -⟩ := TreeStore.view_root hv
    have hn := aligned_of_hser hs (Option.ne_none_iff_exists'.mpr ⟨root, hroot⟩) hser ht
    rw [exec_hser_aligned hs hwf hv hn] at hser
    cases hser
    refine ⟨T.header, rfl, fun r rest hr hb hrest => ?_⟩
    obtain ⟨tree, hexec, hwf', hv', hpresent⟩ := exec_hdes_of_header hr hb hrest (hwf.symbols_nodup hv)
    refine ⟨_, T.rebuilt, hexec, hr, hv', restBytes_skip hrest, rebuilt_code T, fun x => ?_, fun hn' => ?_⟩
    · exact Bool.eq_iff_iff.mpr ((hpresent x).trans (hwf.present_iff hv x).symm)
    · exact ⟨_, exec_hser_aligned hr hwf' hv' hn', hr, by rw [rebuilt_header]⟩
  · obtain ⟨T, hwf, hv, hrest, hpos⟩ := header_of_hdes hr hdes hu
    exact ⟨T.header, hrest, hpos, fun hn => ⟨_, exec_hser_aligned hu hwf hv hn, hu, rfl⟩⟩

end Sys2Proof.Machine
end

section
/-! The family of the stream framing (44_stream.md): the count as four bytes and back, WCNT, RCNT and FLUSH. -/

namespace Sys2Proof.Machine

/-! ## The count and its bytes -/

theorem countByte_toNat (v : Count) (k : Nat) : (countByte v k).toNat = v.toNat / 2 ^ (8 * k) % 2 ^ 8 := by
  rw [countByte, BitVec.extractLsb'_toNat, Nat.shiftRight_eq_div_pow]

/-- Four bytes put together, the most significant first, as a number (44_stream.md R243). -/
theorem append_bytes_toNat (b3 b2 b1 b0 : Byte) : (b3 ++ b2 ++ b1 ++ b0 : Count).toNat =
    b3.toNat * 2 ^ 24 + b2.toNat * 2 ^ 16 + b1.toNat * 2 ^ 8 + b0.toNat := by
  rw [append_toNat, append_toNat, append_toNat]
  omega

/-- Four bytes put together make a count iff they are its bytes (44_stream.md R243). -/
theorem append_bytes_eq_iff (b3 b2 b1 b0 : Byte) (v : Count) : (b3 ++ b2 ++ b1 ++ b0 : Count) = v ↔
    countByte v 3 = b3 ∧ countByte v 2 = b2 ∧ countByte v 1 = b1 ∧ countByte v 0 = b0 := by
  simp only [← BitVec.toNat_inj, append_bytes_toNat, countByte_toNat]
  have := v.isLt
  have := b3.isLt
  have := b2.isLt
  have := b1.isLt
  have := b0.isLt
  omega

/-- The bytes of a count are four given ones iff those assemble to it, in both orders (44_stream.md R243). -/
theorem countBytes_eq_iff (order : ByteOrder) (v : Count) (b0 b1 b2 b3 : Byte) :
    countBytes order v = [b0, b1, b2, b3] ↔ countValue order b0 b1 b2 b3 = v := by
  cases order with
  | big => simp [countBytes, countValue, append_bytes_eq_iff]
  | little =>
    simp only [countBytes, countValue, append_bytes_eq_iff, List.cons.injEq, and_true]
    tauto

/-! ## WCNT -/

/-- WCNT of a count above `COUNT_MAX` writes nothing (44_stream.md R241). -/
theorem exec_wcnt_above {s : State} {v : Count} (hs : s.err = 0#3) (hv : s.params.countMax < v) :
    exec (.wcnt v) s = .next { s with err := 4#3 } :=
  command_raise (k := .illegalCommand) hs (if_pos hv)

/-- WCNT of a count in range in the middle of a byte writes nothing (44_stream.md R241). -/
theorem exec_wcnt_misaligned {s : State} {v : Count} (hs : s.err = 0#3) (hv : v ≤ s.params.countMax)
    (hn : s.out.nbits ≠ 0) : exec (.wcnt v) s = .next { s with err := 6#3 } :=
  command_raise (k := .misaligned) hs (by rw [wcntBody, if_neg (BitVec.not_lt.mpr hv), if_neg hn])

/-- WCNT of a count in range on an aligned stream (44_stream.md R241). -/
theorem exec_wcnt_aligned {s : State} {v : Count} (hs : s.err = 0#3) (hv : v ≤ s.params.countMax)
    (hn : s.out.nbits = 0) : exec (.wcnt v) s =
      .next { s with
        out := { s.out with bytes := s.out.bytes ++ countBytes s.params.countByteOrder v }, cp := s.cp + 1 } := by
  have hbody : body (.wcnt v) s =
      .ok () { s with out := { s.out with bytes := s.out.bytes ++ countBytes s.params.countByteOrder v } } := by
    rw [body, wcntBody, if_neg (BitVec.not_lt.mpr hv), if_pos hn, writeBytes_aligned _ hn, within_ok]
  exact exec_of_body_ok hs hbody

/-! ## RCNT -/

/-- Where fewer than four bytes are left, the count's read consumes them all (44_stream.md R242). -/
theorem readCount_of_short (order : ByteOrder) {i : InStream} (hb : i.bit = 0) (hpos : i.pos ≤ i.bytes.length)
    (hlen : i.restBytes.length < 4) :
    readCount order i = .raise .truncatedStream { i with pos := i.bytes.length } := by
  obtain ⟨p, -, hread, hp⟩ | ⟨b0, b1, b2, b3, rest, hrest, -⟩ := readCount_frame order i hb
  · rw [hread, hp hpos]
  · rw [hrest] at hlen
    exact absurd hlen (Nat.not_lt.mpr (Nat.le_add_left 4 rest.length))

/-- Where four bytes are left, the count's read consumes and assembles them (44_stream.md R242). -/
theorem readCount_of_cons (order : ByteOrder) {i : InStream} {b0 b1 b2 b3 : Byte} {rest : List Byte} (hb : i.bit = 0)
    (hrest : i.restBytes = b0 :: b1 :: b2 :: b3 :: rest) :
    readCount order i = .ok (countValue order b0 b1 b2 b3) { i with pos := i.pos + 4 } := by
  obtain ⟨p, hlen, -⟩ | ⟨c0, c1, c2, c3, rest', hrest', -, -, hread⟩ := readCount_frame order i hb
  · rw [hrest] at hlen
    exact absurd hlen (Nat.not_lt.mpr (Nat.le_add_left 4 rest.length))
  · cases hrest.symm.trans hrest'
    exact hread

/-- RCNT in the middle of a byte reads nothing (44_stream.md R242). -/
theorem exec_rcnt_misaligned {s : State} (hs : s.err = 0#3) (hb : s.inp.bit ≠ 0) :
    exec .rcnt s = .next { s with err := 6#3 } :=
  command_raise (k := .misaligned) hs (if_neg hb)

/-- RCNT faults as the read of the count does (44_stream.md R242). -/
theorem exec_rcnt_of_readCount_raise {s : State} {k : FaultKind} {i : InStream} (hs : s.err = 0#3) (hb : s.inp.bit = 0)
    (hread : readCount s.params.countByteOrder s.inp = .raise k i) :
    exec .rcnt s = .next { s with inp := i, err := k.code } :=
  command_raise (t := { s with inp := i }) hs (by rw [rcntBody, if_pos hb, hread, within_raise, bind_raise])

/-- RCNT checks the range of the count it has read (44_stream.md R242). -/
theorem rcntBody_of_readCount_ok {s : State} {n : Count} {i : InStream} (hb : s.inp.bit = 0)
    (hread : readCount s.params.countByteOrder s.inp = .ok n i) : rcntBody s =
      if s.params.countMax < n then .raise .badFormat { s with inp := i } else .ok () { s with inp := i, cnt := n } := by
  rw [rcntBody, if_pos hb, hread, within_ok, bind_ok]

/-- RCNT of a count above `COUNT_MAX` (44_stream.md R242). -/
theorem exec_rcnt_above {s : State} {n : Count} {i : InStream} (hs : s.err = 0#3) (hb : s.inp.bit = 0)
    (hread : readCount s.params.countByteOrder s.inp = .ok n i) (hn : s.params.countMax < n) :
    exec .rcnt s = .next { s with inp := i, err := 5#3 } :=
  (command_raise hs ((rcntBody_of_readCount_ok hb hread).trans (if_pos hn)) :)

/-- RCNT of a count in range takes it into `CNT` (44_stream.md R242). -/
theorem exec_rcnt_inRange {s : State} {n : Count} {i : InStream} (hs : s.err = 0#3) (hb : s.inp.bit = 0)
    (hread : readCount s.params.countByteOrder s.inp = .ok n i) (hn : n ≤ s.params.countMax) :
    exec .rcnt s = .next { s with inp := i, cnt := n, cp := s.cp + 1 } :=
  (command_ok hs ((rcntBody_of_readCount_ok hb hread).trans (if_neg (BitVec.not_lt.mpr hn))) :)

/-! ## FLUSH -/

/-- FLUSH on a block that is not faulted (44_stream.md R244). -/
theorem exec_flush {s : State} (hs : s.err = 0#3) :
    exec .flush s = .next { s with out := flushBitwise s.out, cp := s.cp + 1 } :=
  exec_of_body_ok (t := { s with out := flushBitwise s.out }) (u := ()) hs rfl

theorem flushBitwise_idempotent (o : OutStream) : flushBitwise (flushBitwise o) = flushBitwise o :=
  flushBitwise_of_aligned (flushBitwise_aligned o)

/-- In the middle of a byte the padding is one byte: the gathered bits, then zeros (20_memory.md R66, R67). -/
theorem flushBitwise_of_misaligned {o : OutStream} (hn : o.nbits ≠ 0) :
    ∃ v : Byte, flushBitwise o = { bytes := o.bytes ++ [v], acc := 0#8, nbits := 0 } ∧
      byteBits v = o.partialBits ++ List.replicate (8 - o.nbits.val) false := by
  have hflush : flushBitwise o = { bytes := o.bytes ++ [o.acc <<< (8 - o.nbits.val)], acc := 0#8, nbits := 0 } :=
    if_neg hn
  refine ⟨_, hflush, List.append_cancel_left (as := bytesBits o.bytes) ?_⟩
  have hbits := flushBitwise_bits o
  rw [bits_of_aligned (flushBitwise_aligned o), hflush, Nat.mod_eq_of_lt (by omega)] at hbits
  simpa [OutStream.bits] using hbits

/-! ## The obligations -/

/-- Settles O48, by the two checks in order, then the four bytes on the aligned stream. -/
theorem wcntWritesTheCount : Obligations.WcntWritesTheCount := by
  refine ⟨fun s v hs => ⟨exec_wcnt_above hs, exec_wcnt_misaligned hs, exec_wcnt_aligned hs⟩,
    fun w hop => ⟨(operandsAreTakenAsTheyStand w).2.2 hop, fun hsym => refuses_of_illegalWord ?_⟩, rfl⟩
  exact (illegalWord_of_opcode (o := .wcnt) hop).mpr ((admits_v_eq_false _ _).mpr hsym)

/-- Settles O49: both orders put the same four bytes together, from opposite ends. -/
theorem countBytesAndValueAgree : Obligations.CountBytesAndValueAgree :=
  ⟨fun _ => ⟨rfl, rfl⟩, fun b0 b1 b2 b3 => ⟨append_bytes_toNat b0 b1 b2 b3, append_bytes_toNat b3 b2 b1 b0⟩,
    countBytes_eq_iff, rfl⟩

/-- Settles O50, by the alignment check, then the read of the count, then its range check. -/
theorem rcntReadsTheCount : Obligations.RcntReadsTheCount := by
  refine ⟨fun s hs hpos => ⟨exec_rcnt_misaligned hs, fun hb hlen => ?_, fun b0 b1 b2 b3 rest hb hrest => ?_⟩, rfl,
    fun _ hop hw => refuses_of_ne_bare (o := .rcnt) rfl hop hw⟩
  · exact exec_rcnt_of_readCount_raise hs hb (readCount_of_short _ hb hpos hlen)
  · have hread := readCount_of_cons s.params.countByteOrder hb hrest
    exact ⟨exec_rcnt_above hs hb hread, exec_rcnt_inRange hs hb hread⟩

/-- Settles O51, by the padding of `OUT`, which leaves it aligned. -/
theorem flushPadsToAByteBoundary : Obligations.FlushPadsToAByteBoundary := by
  refine ⟨fun s hs => ⟨fun hn => ?_, fun hn => ?_, fun t u ht hu => ?_⟩, rfl,
    fun _ hop hw => refuses_of_ne_bare (o := .flush) rfl hop hw⟩
  · rw [exec_flush hs, flushBitwise_of_aligned hn]
  · obtain ⟨v, hflush, hbits⟩ := flushBitwise_of_misaligned hn
    exact ⟨v, by rw [exec_flush hs, hflush], hbits⟩
  · cases (exec_flush hs).symm.trans ht
    cases (exec_flush (s := { s with out := flushBitwise s.out, cp := s.cp + 1 }) hs).symm.trans hu
    exact flushBitwise_idempotent s.out

end Sys2Proof.Machine
end

section
/-! The family of the sequences (45_sequences.md): the run of COMPRESS command by command, the run of DECOMPRESS over
the container that it leaves, and the data that comes back. -/

namespace Sys2Proof.Machine

/-! ## The tallies in `FREQ` -/

/-- `FREQ` after COMPRESS's FCLR and FSETs: the tally of each symbol that occurs (45_sequences.md R261). -/
def talliedFreq (data : List Byte) : Vector Freq 256 :=
  (allSymbols.filter fun x => tally data x != 0).foldl (fun f x => writeFreq f x (BitVec.ofNat 32 (tally data x)))
    clearFreq

/-- A read of `FREQ` after writes of `v x` at the listed symbols `x`. -/
theorem readFreq_foldl_writeFreq (v : Byte → Freq) (xs : List Byte) (f : Vector Freq 256) (y : Byte) :
    readFreq (xs.foldl (fun f x => writeFreq f x (v x)) f) y = if y ∈ xs then v y else readFreq f y := by
  induction xs generalizing f with
  | nil => rfl
  | cons x xs ih =>
    rw [List.foldl_cons, ih, readFreq_writeFreq]
    by_cases hy : y = x <;> simp [hy]

/-- `FREQ` holds the tally of every symbol, also of those that do not occur. -/
theorem readFreq_talliedFreq (data : List Byte) (x : Byte) :
    readFreq (talliedFreq data) x = BitVec.ofNat 32 (tally data x) := by
  rw [talliedFreq, readFreq_foldl_writeFreq, readFreq_clearFreq]
  by_cases hx : tally data x = 0 <;> simp [hx, mem_allSymbols]

/-- No tally of fewer than 2^32 symbols wraps, so the symbols that occur have a positive frequency. -/
theorem readFreq_talliedFreq_ne_zero {data : List Byte} (hlen : data.length < 2 ^ 32) {x : Byte} (hx : x ∈ data) :
    readFreq (talliedFreq data) x ≠ 0#32 := by
  have hpos : 0 < tally data x := List.count_pos_iff.mpr hx
  have hle : tally data x ≤ data.length := List.count_le_length
  rw [readFreq_talliedFreq, ne_eq, ← BitVec.toNat_inj, BitVec.toNat_ofNat, Nat.mod_eq_of_lt (hle.trans_lt hlen)]
  exact hpos.ne'

/-- The tree of the tallies has a leaf for every symbol that occurs (40_build.md R145). -/
theorem present_talliedTree {data : List Byte} (hlen : data.length < 2 ^ 32) {x : Byte} (hx : x ∈ data) :
    (buildTree (talliedFreq data)).present x = true := by
  obtain ⟨-, -, hpresent⟩ := buildTree_spec (talliedFreq data)
  exact (hpresent x).mpr (readFreq_talliedFreq_ne_zero hlen hx)

/-! ## The payload -/

/-- The payload begins with the code of the first symbol (30_encoding.md R124). -/
theorem payload_cons_eq_some {T : Tree} {x : Byte} {xs : List Byte} {bs : List Bit} :
    T.payload (x :: xs) = some bs ↔ ∃ c cs, T.code x = some c ∧ T.payload xs = some cs ∧ bs = c ++ cs := by
  rw [Tree.payload]
  cases T.code x <;> cases T.payload xs <;> simp [eq_comm]

/-- Symbols that are present in the tree have a payload (30_encoding.md R124). -/
theorem TreeStore.Wf.payload_of_present {t : TreeStore} (h : t.Wf) {T : Tree} (hv : t.view = some T)
    {data : List Byte} (hdata : ∀ x ∈ data, t.present x = true) : ∃ bs, T.payload data = some bs := by
  induction data with
  | nil => exact ⟨[], rfl⟩
  | cons x xs ih =>
    obtain ⟨hx, hxs⟩ := List.forall_mem_cons.mp hdata
    obtain ⟨c, hc⟩ := h.code_of_present hv hx
    obtain ⟨cs, hcs⟩ := ih hxs
    exact ⟨c ++ cs, payload_cons_eq_some.mpr ⟨c, cs, hc, hcs, rfl⟩⟩

/-- The tree HDES makes of a header codes every sequence as the tree of the header does (43_header.md R229). -/
theorem rebuilt_payload (T : Tree) (data : List Byte) : T.rebuilt.payload data = T.payload data := by
  induction data with
  | nil => rfl
  | cons x xs ih => simp only [Tree.payload, rebuilt_code, ih]

/-- The tree of the tallies of a non-empty sequence holds a code for each of its symbols. -/
theorem exists_payload_talliedTree {data : List Byte} (hne : data ≠ []) (hlen : data.length < 2 ^ 32) :
    ∃ T bs, (buildTree (talliedFreq data)).view = some T ∧ T.payload data = some bs := by
  obtain ⟨hwf, -, -⟩ := buildTree_spec (talliedFreq data)
  obtain ⟨x, hx⟩ := List.exists_mem_of_ne_nil data hne
  obtain ⟨T, hv⟩ := hwf.view_of_present (present_talliedTree hlen hx)
  obtain ⟨bs, hp⟩ := hwf.payload_of_present hv fun y hy => present_talliedTree hlen hy
  exact ⟨T, bs, hv, hp⟩

/-- Bits written on an aligned stream and flushed are packed behind its bytes (30_encoding.md R124, R125). -/
theorem flushBitwise_writeBits_bytes (bs : List Bit) {o : OutStream} (hn : o.nbits = 0) (ha : o.acc = 0#8) :
    (flushBitwise (writeBits bs o)).bytes = o.bytes ++ packBits bs := by
  have ho : o = { OutStream.reset with bytes := o.bytes ++ OutStream.reset.bytes } := by
    obtain ⟨bytes, acc, nbits⟩ := o
    obtain rfl : nbits = 0 := hn
    obtain rfl : acc = 0#8 := ha
    exact congrArg (OutStream.mk · 0#8 0) (List.append_nil bytes).symm
  conv_lhs => rw [ho, writeBits_bytes, flushBitwise_bytes]
  rfl

/-! ## COMPRESS -/

theorem ofNat_le_of_le_toNat {n : Nat} {m : Count} (h : n ≤ m.toNat) : BitVec.ofNat 32 n ≤ m := by
  rw [BitVec.le_def, BitVec.toNat_ofNat]
  exact (Nat.mod_le _ _).trans h

/-- FSETs write their frequencies one after another (45_sequences.md R261). -/
theorem execAll_map_fset (v : Byte → Freq) (xs : List Byte) {s : State} (hs : s.err = 0#3) :
    execAll (xs.map fun x => .fset x (v x)) s =
      .next { s with freq := xs.foldl (fun f x => writeFreq f x (v x)) s.freq, cp := s.cp + xs.length } := by
  induction xs generalizing s with
  | nil => rfl
  | cons x xs ih =>
    have htail := ih (s := { s with freq := writeFreq s.freq x (v x), cp := s.cp + 1 }) hs
    rw [List.map_cons, execAll_cons (exec_fset x (v x) hs), htail, List.foldl_cons, List.length_cons, Nat.add_assoc,
      Nat.add_comm 1]

/-- COMPRESS begins with the tallies (45_sequences.md R261). -/
theorem execAll_fclr_compressFsets (data : List Byte) {s : State} (hs : s.err = 0#3) :
    execAll (.fclr :: compressFsets data) s =
      .next { s with freq := talliedFreq data, cp := s.cp + (1 + (compressFsets data).length) } := by
  have hfsets := execAll_map_fset (fun x => BitVec.ofNat 32 (tally data x))
    (allSymbols.filter fun x => tally data x != 0) (s := { s with freq := clearFreq, cp := s.cp + 1 }) hs
  rw [execAll_cons (exec_fclr hs), compressFsets, hfsets, List.length_map, Nat.add_assoc]
  rfl

/-- ENC of a symbol with a code writes the code (41_encode.md R172, R173). -/
theorem exec_enc_of_code {s : State} {T : Tree} {x : Byte} {bs : List Bit} (hs : s.err = 0#3) (hwf : s.tree.Wf)
    (hv : s.tree.view = some T) (hc : T.code x = some bs) :
    exec (.enc x) s = .next { s with out := writeBits bs s.out, cp := s.cp + 1 } := by
  obtain ⟨r, hr, -⟩ := TreeStore.view_root hv
  have hx : s.tree.present x = true :=
    (hwf.present_iff hv x).mpr ((code_isSome T x).mp (Option.isSome_of_mem hc))
  obtain ⟨i, hi⟩ := Option.isSome_iff_exists.mp hx
  obtain ⟨bs', hc', hup⟩ := hwf.pathUp_code hv hi
  cases hc.symm.trans hc'
  exact exec_of_body_ok (t := { s with out := writeBits bs s.out }) (u := ()) hs
    (by simp only [body, encBody, hr, hi, hup])

/-- The ENCs of a sequence write its payload (45_sequences.md R261, 30_encoding.md R124). -/
theorem execAll_map_enc {s : State} {T : Tree} {data : List Byte} {bs : List Bit} (hs : s.err = 0#3)
    (hwf : s.tree.Wf) (hv : s.tree.view = some T) (hp : T.payload data = some bs) :
    execAll (data.map .enc) s = .next { s with out := writeBits bs s.out, cp := s.cp + data.length } := by
  induction data generalizing s bs with
  | nil =>
    cases hp
    rfl
  | cons x xs ih =>
    obtain ⟨c, cs, hc, hcs, rfl⟩ := payload_cons_eq_some.mp hp
    have htail := ih (s := { s with out := writeBits c s.out, cp := s.cp + 1 }) hs hwf hv hcs
    rw [List.map_cons, execAll_cons (exec_enc_of_code hs hwf hv hc), htail, writeBits_append, List.length_cons,
      Nat.add_assoc, Nat.add_comm 1]

/-- The commands of COMPRESS of a non-empty sequence, in order (45_sequences.md R261). -/
theorem compress_of_ne_nil {data : List Byte} (hne : data ≠ []) : compress data =
    (.fclr :: compressFsets data) ++
      .build :: .wcnt (BitVec.ofNat 32 data.length) :: .hser :: (data.map .enc ++ [.flush]) := by
  obtain ⟨x, xs, rfl⟩ := List.exists_cons_of_ne_nil hne
  simp [compress]

/-- COMPRESS of a non-empty sequence on an aligned `OUT`: the tallies, their tree, then the count, the header and the
padded payload behind the bytes of `OUT` (45_sequences.md R261). -/
theorem execAll_compress {s : State} {data : List Byte} {T : Tree} {bs : List Bit} (hs : s.err = 0#3)
    (hn : s.out.nbits = 0) (hne : data ≠ []) (hlen : data.length ≤ s.params.countMax.toNat)
    (hv : (buildTree (talliedFreq data)).view = some T) (hp : T.payload data = some bs) :
    execAll (compress data) s = .next { s with
      freq := talliedFreq data
      tree := buildTree (talliedFreq data)
      out := flushBitwise (writeBits bs { s.out with
        bytes := s.out.bytes ++ countBytes s.params.countByteOrder (BitVec.ofNat 32 data.length) ++ T.header })
      cp := s.cp + (compress data).length } := by
  have hwf := (buildTree_spec (talliedFreq data)).1
  have hcount := ofNat_le_of_le_toNat hlen
  have hcp : s.cp + (1 + (compressFsets data).length) + 1 + 1 + 1 + data.length + 1 =
      s.cp + (compress data).length := by
    simp only [compress_of_ne_nil hne, List.length_append, List.length_cons, List.length_map, List.length_nil]
    omega
  rw [← hcp, compress_of_ne_nil hne]
  refine Eq.trans (execAll_append _ _ (execAll_fclr_compressFsets data hs)) ?_
  refine Eq.trans (execAll_cons (exec_build hs)) ?_
  refine Eq.trans (execAll_cons (exec_wcnt_aligned hs hcount hn)) ?_
  refine Eq.trans (execAll_cons (exec_hser_aligned hs hwf hv hn)) ?_
  refine Eq.trans (execAll_append _ _ (execAll_map_enc hs hwf hv hp)) ?_
  exact execAll_cons (exec_flush hs)

/-! ## The commands that read a container -/

/-- A block that is not faulted, about to read the given bytes, the rest of an aligned `IN`. -/
structure Ready (s : State) (bytes : List Byte) : Prop where
  err      : s.err = 0#3
  coherent : Coherent s
  aligned  : s.inp.bit = 0
  rest     : s.inp.restBytes = bytes

/-- After reset the block is about to read its whole input (10_state.md R42). -/
theorem ready_hostReset (s : State) : Ready (hostReset s) s.inp.bytes where
  err := rfl
  coherent :=
    ⟨(by decide : 0#3 ≠ 7#3), Nat.one_pos, Nat.zero_le _, fun _ => rfl, Nat.zero_le _, .inl .empty_wf⟩
  aligned := rfl
  rest := rfl

/-- Bytes that are left end within the stream. -/
theorem pos_add_length_le {i : InStream} {front rest : List Byte} (hpos : i.pos ≤ i.bytes.length)
    (h : i.restBytes = front ++ rest) : i.pos + front.length ≤ i.bytes.length := by
  have hlen := congrArg List.length h
  rw [restBytes_length, List.length_append] at hlen
  omega

theorem countBytes_length (order : ByteOrder) (n : Count) : (countBytes order n).length = 4 := by
  cases order <;> rfl

/-- The bytes of a count are read back as the count (44_stream.md R242, R243). -/
theorem readCount_of_countBytes {order : ByteOrder} {n : Count} {i : InStream} {rest : List Byte} (hb : i.bit = 0)
    (hrest : i.restBytes = countBytes order n ++ rest) : readCount order i = .ok n { i with pos := i.pos + 4 } := by
  obtain ⟨b0, b1, b2, b3, hbytes⟩ : ∃ b0 b1 b2 b3, countBytes order n = [b0, b1, b2, b3] := by
    cases order <;> exact ⟨_, _, _, _, rfl⟩
  have hread := readCount_of_cons order hb (hrest.trans (by rw [hbytes]; rfl))
  rwa [(countBytes_eq_iff ..).mp hbytes] at hread

/-- RCNT reads the count of a container and stands at its header (44_stream.md R242). -/
theorem Ready.rcnt {s : State} {n : Count} {rest : List Byte}
    (h : Ready s (countBytes s.params.countByteOrder n ++ rest)) (hn : n ≤ s.params.countMax) :
    ∃ t, exec .rcnt s = .next t ∧ Ready t rest ∧ t.cnt = n ∧ t.dout = s.dout := by
  obtain ⟨hs, hc, hb, hrest⟩ := h
  have hpos := pos_add_length_le hc.pos hrest
  have hskip := restBytes_skip hrest
  rw [countBytes_length] at hpos hskip
  exact ⟨_, exec_rcnt_inRange hs hb (readCount_of_countBytes hb hrest) hn,
    ⟨hs, ⟨hc.err, hc.acc, hpos, fun _ => hb, hc.nnode, hc.tree⟩, hb, hskip⟩, rfl, rfl⟩

/-- HDES makes the tree of the header of a container and stands at its payload (43_header.md R222). -/
theorem Ready.hdes {s : State} {T : Tree} {rest : List Byte} (h : Ready s (T.header ++ rest))
    (hn : T.symbols.Nodup) : ∃ t, exec .hdes s = .next t ∧ Ready t rest ∧ t.tree.view = some T.rebuilt ∧
      t.cnt = s.cnt ∧ t.dout = s.dout := by
  obtain ⟨hs, hc, hb, hrest⟩ := h
  obtain ⟨tree, hexec, hwf, hv, -⟩ := exec_hdes_of_header hs hb hrest hn
  have hpos := pos_add_length_le hc.pos hrest
  exact ⟨_, hexec, ⟨hs, ⟨hc.err, hc.acc, hpos, fun _ => hb, hwf.nnode_le, .inl hwf⟩, hb, restBytes_skip hrest⟩, hv,
    rfl, rfl⟩

/-- DEC repeated over a payload emits the sequence it codes and reads no bit more (42_decode.md R196). -/
theorem execAll_dec_of_payload {r : State} {U : Tree} {data : List Byte} {bs rest : List Bit} (hr : r.err = 0#3)
    (hc : Coherent r) (hv : r.tree.view = some U) (hp : U.payload data = some bs)
    (hrest : r.inp.restBits = bs ++ rest) : ∃ u : State,
      execAll (List.replicate data.length .dec) r = .next u ∧ u.err = 0#3 ∧ u.dout = r.dout ++ data ∧
      u.inp.restBits = rest := by
  induction data generalizing r bs with
  | nil =>
    cases hp
    exact ⟨r, rfl, hr, (List.append_nil _).symm, hrest⟩
  | cons x xs ih =>
    obtain ⟨c, cs, hcode, hcs, rfl⟩ := payload_cons_eq_some.mp hp
    have hwalk : U.walk r.inp.restBits = some (x, cs ++ rest) := by
      rw [hrest, List.append_assoc]
      exact walk_code hcode (cs ++ rest)
    obtain ⟨i, -, ⟨hpos, hend⟩, ⟨v, hsome, hexec⟩ | ⟨hnone, -, -⟩⟩ := exec_dec hr hc hv
    · rw [hwalk] at hsome
      obtain ⟨rfl, hi⟩ := Prod.mk.inj (Option.some.inj hsome)
      obtain ⟨u, hrun, hu, hdout, hleft⟩ :=
        ih (r := { r with inp := i, sym := x, dout := r.dout ++ [x], cp := r.cp + 1 }) hr
          ⟨hc.err, hc.acc, hpos, hend, hc.nnode, hc.tree⟩ hv hcs hi.symm
      exact ⟨u, (execAll_cons hexec).trans hrun, hu, hdout.trans (List.append_assoc ..), hleft⟩
    · rw [hwalk] at hnone
      cases hnone

/-! ## DECOMPRESS -/

/-- DECOMPRESS of no input issues no command (45_sequences.md R264). -/
theorem execDecompress_of_nil {s : State} (hnil : s.inp.bytes = []) : execDecompress s = .next s := by
  simp only [execDecompress, hnil, decompressHead, execAll]

/-- The run of DECOMPRESS on some input is that of its DECs when RCNT and HDES answer next states
(45_sequences.md R263). -/
theorem execDecompress_of_next {s t u : State} (hne : s.inp.bytes ≠ []) (hrcnt : exec .rcnt s = .next t)
    (hhdes : exec .hdes t = .next u) : execDecompress s = execAll (decompressTail u.cnt) u := by
  obtain ⟨b, bs, hbytes⟩ := List.exists_cons_of_ne_nil hne
  have hhead : execAll (decompressHead (b :: bs)) s = .next u := by
    rw [decompressHead, execAll_cons hrcnt, execAll_cons hhdes, execAll]
  simp only [execDecompress, hbytes, hhead]

/-- A container begins with its count (30_encoding.md R120). -/
theorem container_ne_nil (order : ByteOrder) (n : Count) (T : Tree) (bs : List Bit) : container order n T bs ≠ [] := by
  cases order <;> exact List.cons_ne_nil _ _

/-- DECOMPRESS of a container emits the data of its payload (45_sequences.md R263). -/
theorem Ready.decompress {s : State} {data : List Byte} {T : Tree} {bs : List Bit}
    (h : Ready s (container s.params.countByteOrder (BitVec.ofNat 32 data.length) T bs))
    (hlen : data.length ≤ s.params.countMax.toNat) (hn : T.symbols.Nodup) (hp : T.payload data = some bs) :
    ∃ u, execDecompress s = .next u ∧ u.err = 0#3 ∧ u.dout = s.dout ++ data := by
  have hne : s.inp.bytes ≠ [] := fun hnil => container_ne_nil _ _ T bs (by
    rw [← h.rest, InStream.restBytes, hnil, List.drop_nil])
  rw [container, List.append_assoc] at h
  obtain ⟨t, hrcnt, ht, hcnt, hdout⟩ := h.rcnt (ofNat_le_of_le_toNat hlen)
  obtain ⟨u, hhdes, hu, hv, hcnt', hdout'⟩ := ht.hdes hn
  obtain ⟨pad, -, hbits⟩ := packBits_bits bs
  have hrest : u.inp.restBits = bs ++ List.replicate pad false := by
    rw [restBits_of_aligned hu.aligned, hu.rest, hbits]
  obtain ⟨v, hrun, herr, hdout'', -⟩ :=
    execAll_dec_of_payload hu.err hu.coherent hv ((rebuilt_payload T data).trans hp) hrest
  have htail : decompressTail u.cnt = List.replicate data.length .dec := by
    have := s.params.countMax.isLt
    rw [decompressTail, hcnt', hcnt, BitVec.toNat_ofNat, Nat.mod_eq_of_lt (by omega)]
  exact ⟨v, by rw [execDecompress_of_next hne hrcnt hhdes, htail, hrun], herr, by rw [hdout'', hdout', hdout]⟩

/-! ## The obligation -/

/-- Settles O58: COMPRESS leaves a container, the container's header rebuilds the codes, and the walks undo them. -/
theorem compressThenDecompressIsTheData : Obligations.CompressThenDecompressIsTheData := by
  intro s r data hlen hparams
  by_cases hne : data = []
  · subst hne
    exact ⟨hostReset s, rfl, rfl, fun hbytes => ⟨hostReset r, execDecompress_of_nil hbytes, rfl, rfl⟩⟩
  · have hlt : data.length < 2 ^ 32 := hlen.trans_lt s.params.countMax.isLt
    obtain ⟨T, bs, hv, hp⟩ := exists_payload_talliedTree hne hlt
    have hn := (buildTree_spec (talliedFreq data)).1.symbols_nodup hv
    refine ⟨_, execAll_compress rfl rfl hne hlen hv hp, rfl, fun hbytes => ?_⟩
    rw [flushBitwise_writeBits_bytes bs rfl rfl] at hbytes
    have hready : Ready (hostReset r) (container r.params.countByteOrder (BitVec.ofNat 32 data.length) T bs) := by
      rw [container, hparams]
      exact hbytes ▸ ready_hostReset r
    exact hready.decompress (by rwa [hostReset_params, hparams]) hn hp

end Sys2Proof.Machine
end

section
/-! The family of the exceptions (60_exceptions.md): the faulted block, and which ends of a command leave the codes of
InvalidSymbol and EmptyTree. -/

namespace Sys2Proof.Machine

/-! ## The faulted block -/

/-- `STATUS.FAULT` shows a stored code other than 0 (10_state.md R25). -/
theorem status_fault_iff (s : State) : s.status.getLsbD 1 = true ↔ s.err ≠ 0#3 :=
  (statusShowsEmptyFaultAndCode s).2.1

/-- A faulted block keeps its state whether the list has no word left, a command's word or an illegal one
(60_exceptions.md R302). -/
theorem step_of_faulted {s : State} (h : s.err ≠ 0#3) : step s = .next s := by
  cases hw : fetch s with
  | none => simp only [step, hw, idle]
  | some w =>
    cases hd : decode w with
    | ok i => simp only [step, hw, hd, exec_of_faulted i h]
    | error e => exact (step_of_decode_error hw hd).trans (command_faulted h)

/-! ## The ends that leave a given code -/

/-- ENC's second check is the one end with code 1 (60_exceptions.md R292): a completing command keeps code 0, and every
other fault has another code. -/
theorem Effect.enc_of_err_one {i : Instr} {s t : State} (h : Effect s i t) (hs : s.err = 0#3) (ht : t.err = 1#3) :
    (∃ x, i = .enc x ∧ s.tree.root ≠ none ∧ s.tree.leafOf x = none) ∧ t.out = s.out := by
  cases h with
  | encInvalid x hroot hleaf => exact ⟨⟨x, rfl, hroot, hleaf⟩, rfl⟩
  | _ => simp [hs] at ht

/-- The first checks of ENC, DEC and HSER are the ends with code 3 (60_exceptions.md R294). -/
theorem Effect.root_none_of_err_three {i : Instr} {s t : State} (h : Effect s i t) (hs : s.err = 0#3)
    (ht : t.err = 3#3) : ((∃ x, i = .enc x) ∨ i = .dec ∨ i = .hser) ∧ s.tree.root = none := by
  cases h with
  | encEmpty x hroot => exact ⟨.inl ⟨x, rfl⟩, hroot⟩
  | decEmpty hroot => exact ⟨.inr (.inl rfl), hroot⟩
  | hserEmpty hroot => exact ⟨.inr (.inr rfl), hroot⟩
  | _ => simp [hs] at ht

/-! ## The obligations -/

/-- Settles O9: `STATUS.FAULT` shows a code other than 0, and a block with such a code changes nothing. -/
theorem faultedBlockRefusesEveryCommand : Obligations.FaultedBlockRefusesEveryCommand := by
  intro s hfault
  have herr : s.err ≠ 0#3 := (status_fault_iff s).mp hfault
  exact ⟨fun i => exec_of_faulted i herr, step_of_faulted herr⟩

/-- Settles O14, by the ways each command can end, and ENC's check of `LEAF[x]`. -/
theorem invalidSymbolIsRaisedOnlyByEnc : Obligations.InvalidSymbolIsRaisedOnlyByEnc := by
  intro i s t hs h
  have hraised := (effect_of_next hs h).enc_of_err_one hs
  refine ⟨⟨fun ht => (hraised ht).1, ?_⟩, fun ht => (hraised ht).2⟩
  rintro ⟨x, rfl, hroot, hleaf⟩
  cases (exec_enc_of_leafOf_none hs hroot hleaf).symm.trans h
  rfl

/-- Settles O15, by the ways each command can end, and the check of `ROOT` that ENC, DEC and HSER begin with. -/
theorem emptyTreeIsRaisedOnTheEmptyTree : Obligations.EmptyTreeIsRaisedOnTheEmptyTree := by
  refine ⟨fun i s t hs h => ⟨(effect_of_next hs h).root_none_of_err_three hs, fun ⟨hi, hroot⟩ => ?_⟩,
    fun s hs hroot => ⟨fun x => exec_of_root_none (.inl ⟨x, rfl⟩) hs hroot, exec_of_root_none (.inr (.inl rfl)) hs hroot,
      exec_of_root_none (.inr (.inr rfl)) hs hroot⟩⟩
  cases (exec_of_root_none hi hs hroot).symm.trans h
  rfl

end Sys2Proof.Machine
end

section
/-! The family of reset and of what the host keeps to (70_reset_and_hazards.md). -/

namespace Sys2Proof.Machine

/-- After reset `STATUS` shows the empty tree and no fault (10_state.md R24, R42). -/
theorem status_hostReset (s : State) : (hostReset s).status = 0x01#8 := by
  obtain ⟨-, -, -, -, hreset, -⟩ := statusShowsEmptyFaultAndCode s
  exact hreset

/-! ## The obligations -/

/-- Settles O21: what the readers of `FREQ` and `LEAF` return on the cleared tables, and `STATUS` as R24 gives it; every
other value is the one `hostReset` writes. -/
theorem resetLeavesTheListedValues : Obligations.ResetLeavesTheListedValues := by
  intro s
  refine ⟨readFreq_clearFreq, ?_, ?_, ?_, status_hostReset s, hostReset_err s, hostReset_sym s, hostReset_cnt s,
    hostReset_cp s, hostReset_out s, hostReset_inp s, hostReset_dout s⟩
  · rw [hostReset_tree, empty_nnode]
  · rw [hostReset_tree, empty_root]
  · rw [hostReset_tree]
    exact leafOf_empty

end Sys2Proof.Machine
end

section
/-! Decode and encode (30_encoding.md Part A): each is the inverse of the other on the words of the opcode table. -/

namespace Sys2Proof

/-! ## A word that decodes is the word of its command -/

/-- The fields of a command's word are the command's opcode and operands (30_encoding.md R101). -/
theorem fields_encode (i : Instr) :
    wordOp (encode i) = i.opcode.code ∧ wordSym (encode i) = i.symField ∧ wordVal (encode i) = i.valField :=
  word_inj.mp (fields_append (encode i))

/-- Every operand lies in a field that the command's format uses (30_encoding.md R102). -/
theorem wellFormed_eq_true (i : Instr) : i.wellFormed = true := by cases i <;> rfl

theorem decode_encode (i : Instr) : decode (encode i) = .ok i := by
  obtain ⟨hop, hsym, hval⟩ := fields_encode i
  have hf : i.opcode.format.admits i.symField i.valField = true := wellFormed_eq_true i
  rw [decode_of_admits hop (by rwa [hsym, hval]), hsym, hval, toInstr_fields]

/-- The decoder accepts a word iff its `op` is defined and the row's format admits the operand fields
(30_encoding.md R103, R104). -/
theorem decode_eq_ok_iff {w : CmdWord} {i : Instr} : decode w = .ok i ↔ ∃ o : Opcode, wordOp w = o.code ∧
    o.format.admits (wordSym w) (wordVal w) = true ∧ o.toInstr (wordSym w) (wordVal w) = i := by
  constructor
  · intro h
    by_cases hop : ∃ o : Opcode, wordOp w = o.code
    · obtain ⟨o, hop⟩ := hop
      rw [decode_of_opcode hop] at h
      split at h
      · exact ⟨o, hop, ‹_›, Except.ok.inj h⟩
      · cases h
    · rw [decode_of_undefined (not_exists.mp hop)] at h
      cases h
  · rintro ⟨o, hop, hf, rfl⟩
    exact decode_of_admits hop hf

/-- A command made of admitted operand fields has the word with those fields (30_encoding.md R101, R107). -/
theorem encode_toInstr {o : Opcode} {x : Byte} {v : BitVec 32} (hf : o.format.admits x v = true) :
    encode (o.toInstr x v) = o.code ++ (x ++ v : BitVec 40) := by
  cases o with
  | fset => rfl
  | enc =>
    obtain rfl : v = 0#32 := beq_iff_eq.mp hf
    rfl
  | wcnt =>
    obtain rfl : x = 0#8 := beq_iff_eq.mp hf
    rfl
  | _ =>
    obtain ⟨rfl, rfl⟩ : x = 0#8 ∧ v = 0#32 := by simpa [Opcode.format, Format.admits] using hf
    rfl

theorem encode_of_decode {w : CmdWord} {i : Instr} (h : decode w = .ok i) : encode i = w := by
  obtain ⟨o, hop, hf, rfl⟩ := decode_eq_ok_iff.mp h
  rw [encode_toInstr hf, ← hop, fields_append]

/-! ## The rows of the opcode table -/

/-- The fixed bits of `sym` in a format: all of them where the field must be zero (30_encoding.md R102). -/
def Format.symMask : Format → Byte
  | .n | .v => 0xFF#8
  | .s | .sv => 0x00#8

/-- The fixed bits of `val` in a format (30_encoding.md R102). -/
def Format.valMask : Format → BitVec 32
  | .n | .s => 0xFFFFFFFF#32
  | .v | .sv => 0x00000000#32

/-- A format admits operand fields whose fixed bits are all zero (30_encoding.md R102). -/
theorem admits_iff_mask (f : Format) (x : Byte) (v : BitVec 32) :
    f.admits x v = true ↔ x &&& f.symMask = 0#8 ∧ v &&& f.valMask = 0#32 := by
  have hx : x &&& 0xFF#8 = x := BitVec.and_allOnes
  have hv : v &&& 0xFFFFFFFF#32 = v := BitVec.and_allOnes
  cases f <;> simp [Format.admits, Format.symMask, Format.valMask, hx, hv]

/-- The `match` column of an opcode's row (30_encoding.md R103). -/
def Opcode.matchWord (o : Opcode) : CmdWord := o.code ++ (0#8 ++ 0#32 : BitVec 40)

/-- The `mask` column of an opcode's row: `op` is fixed, and so are the fields that must be zero (30_encoding.md
R102). -/
def Opcode.maskWord (o : Opcode) : CmdWord := 0xFF#8 ++ (o.format.symMask ++ o.format.valMask : BitVec 40)

/-- A word matches an opcode's row iff it has that `op` and admitted operand fields. -/
theorem and_maskWord_eq_iff (w : CmdWord) (o : Opcode) : w &&& o.maskWord = o.matchWord ↔
    wordOp w = o.code ∧ o.format.admits (wordSym w) (wordVal w) = true := by
  have hop : wordOp w &&& 0xFF#8 = wordOp w := BitVec.and_allOnes
  conv_lhs => rw [← fields_append w, Opcode.maskWord, Opcode.matchWord, word_and, word_inj, hop]
  rw [admits_iff_mask]

/-- The decoder accepts exactly the words that match a row (30_encoding.md R103 to R105). -/
theorem decodes_iff_matches (w : CmdWord) :
    (∃ i, decode w = .ok i) ↔ ∃ o ∈ Opcode.all, w &&& o.maskWord = o.matchWord := by
  simp only [decode_eq_ok_iff, and_maskWord_eq_iff]
  constructor
  · rintro ⟨_, o, hop, hf, -⟩
    exact ⟨o, by cases o <;> decide, hop, hf⟩
  · rintro ⟨o, -, hop, hf⟩
    exact ⟨_, o, hop, hf, rfl⟩

/-! ## The obligations -/

/-- Settles O3: the fields of a command's word are its own, and its format admits them. -/
theorem decodeOfEncodeIsTheCommand : Obligations.DecodeOfEncodeIsTheCommand :=
  fun i => ⟨wellFormed_eq_true i, decode_encode i⟩

/-- Settles O5: the table's (match, mask) pairs are the rows of the eleven opcodes, and a word that decodes is made of
its fields. -/
theorem decoderAcceptsExactlyTheTable : Obligations.DecoderAcceptsExactlyTheTable := by
  refine ⟨fun w => (decodes_iff_matches w).trans ?_, fun w i => encode_of_decode⟩
  show _ ↔ ∃ row ∈ Opcode.all.map fun o => (o.matchWord, o.maskWord), w &&& row.2 = row.1
  simp only [List.mem_map, exists_exists_and_eq_and]

/-- Settles O1: each word of the assembler table is the word of its command. -/
theorem opcodeMapWordsDecode : Obligations.OpcodeMapWordsDecode :=
  ⟨decode_encode .fclr, decode_encode (.fset 0x41#8 5#32), decode_encode .build, decode_encode .tclr,
    decode_encode (.enc 0x43#8), decode_encode .dec, decode_encode .hser, decode_encode .hdes,
    decode_encode (.wcnt 5#32), decode_encode .rcnt, decode_encode .flush⟩

end Sys2Proof
end

section
/-! What BUILD leaves (40_build.md): the tree of the construction, its weights and symbols, the numbers of its nodes,
and its cost, which no other code of its symbols beats. -/

namespace Sys2Proof.Machine

/-! ## The tree -/

/-- What the construction gives for a vector with a positive frequency (40_build.md R145 to R157): `huffman_spec`, by
name. -/
structure HuffmanOf (freq : Vector Freq 256) (T : Tree) : Prop where
  exact    : T.exact
  leftmost : T.leftmost
  symbols  : T.symbols.Perm (positives freq)
  leafSum  : T.leafSum = ((positives freq).map fun s => (readFreq freq s).toNat).sum
  weights  : ∀ d, ∀ x ∈ T.leafDepths d, x.2.1 = freqWeight (readFreq freq x.1)
  optimal  : ∀ (len : Byte → Nat) (L : Nat), Fits L ((positives freq).map len) →
    T.costFrom 0 ≤ ((positives freq).map fun s => (readFreq freq s).toNat * len s).sum

/-- The tree that BUILD's store holds is the construction's. -/
theorem huffmanOf_of_view {freq : Vector Freq 256} {T : Tree} (hv : (buildTree freq).view = some T) :
    HuffmanOf freq T := by
  obtain ⟨-, hview, -⟩ := buildTree_spec freq
  rw [hview] at hv
  have hne : positives freq ≠ [] := fun hnil => by
    rw [huffman_none freq hnil] at hv
    cases hv
  obtain ⟨U, hU, hexact, hleft, hsym, hsum, hweights, hopt⟩ := huffman_spec freq hne
  cases hU.symm.trans hv
  exact ⟨hexact, hleft, hsym, hsum, hweights, hopt⟩

theorem mem_positives {freq : Vector Freq 256} {x : Byte} : x ∈ positives freq ↔ readFreq freq x ≠ 0#32 := by
  simp [positives, mem_allSymbols]

theorem freqWeight_eq_zero_iff (f : Freq) : freqWeight f = 0#40 ↔ f = 0#32 := by
  rw [← BitVec.toNat_inj, ← BitVec.toNat_inj, freqWeight_toNat]
  rfl

/-- A leaf of the construction stands for a positive frequency (40_build.md R145). -/
theorem HuffmanOf.readFreq_ne_zero {freq : Vector Freq 256} {T : Tree} (h : HuffmanOf freq T) {x : Byte} {w : Weight}
    {d e : Nat} (hx : (x, w, e) ∈ T.leafDepths d) : readFreq freq x ≠ 0#32 := by
  have hmem : x ∈ T.symbols := by
    rw [← leafDepths_symbols T d]
    exact List.mem_map.mpr ⟨_, hx, rfl⟩
  exact mem_positives.mp (h.symbols.mem_iff.mp hmem)

theorem HuffmanOf.leaves_eq {freq : Vector Freq 256} {T : Tree} (h : HuffmanOf freq T) :
    T.leaves = (positives freq).length := by
  rw [← symbols_length, h.symbols.length_eq]

theorem positives_nodup (freq : Vector Freq 256) : (positives freq).Nodup := allSymbols_nodup.filter _

/-! ## The cost -/

/-- The cost of the tree is the sum of frequency times code length (40_build.md R157). -/
theorem HuffmanOf.costFrom_eq {freq : Vector Freq 256} {T : Tree} (h : HuffmanOf freq T) : T.costFrom 0 =
    ((positives freq).map fun x => (readFreq freq x).toNat * ((T.code x).getD []).length).sum := by
  have hn : T.symbols.Nodup := h.symbols.nodup_iff.mpr (positives_nodup freq)
  calc T.costFrom 0
      = ((T.leafDepths 0).map fun x => (readFreq freq x.1).toNat * ((T.code x.1).getD []).length).sum := by
        refine congrArg List.sum (List.map_congr_left fun x hx => ?_)
        rw [h.weights 0 x hx, freqWeight_toNat, code_depth T hn 0 x hx, Nat.zero_add]
    _ = (T.symbols.map fun x => (readFreq freq x).toNat * ((T.code x).getD []).length).sum := by
        rw [← leafDepths_symbols T 0, List.map_map]
        rfl
    _ = _ := (h.symbols.map _).sum_eq

/-- The lengths of a code of distinct symbols, no word of which begins another, fit into a binary tree (Kraft's
inequality). -/
theorem fits_of_prefixFree {xs : List Byte} (hn : xs.Nodup) {c : Byte → List Bit}
    (hc : ∀ x ∈ xs, ∀ y ∈ xs, x ≠ y → ¬ c x <+: c y) : ∃ L, Fits L (xs.map fun x => (c x).length) := by
  refine ⟨(xs.map fun x => (c x).length).sum, ?_⟩
  have hpair : xs.Pairwise fun x y => ¬ c x <+: c y ∧ ¬ c y <+: c x :=
    hn.pairwise_of_forall_ne fun x hx y hy hne => ⟨hc x hx y hy hne, hc y hy x hx hne.symm⟩
  have hfits := prefixFree_fits (xs.map fun x => (c x).length).sum (xs.map c)
    (List.forall_mem_map.mpr fun x hx => List.le_sum_of_mem (List.mem_map.mpr ⟨x, hx, rfl⟩))
    (List.pairwise_map.mpr hpair)
  rwa [List.map_map] at hfits

/-! ## The nodes -/

/-- BUILD's entries are the leaves of the positive symbols in ascending order, then internal nodes (40_build.md R145,
R149, R159). -/
theorem buildTree_nodes (freq : Vector Freq 256) :
    SameDown ((positives freq).map (leafNode freq)) (buildTree freq).nodes ∧
      ∀ j nd, (positives freq).length ≤ j → (buildTree freq).node? j = some nd → nd.isLeaf = false := by
  obtain ⟨t, q, hfold, hgrow, -, -, hnodes, -⟩ := buildLeaf_foldl freq allSymbols allSymbols_nodup TreeStore.empty [] []
    growing_empty .nil (fun x _ => leafOf_empty x)
  have hbuild : (buildTree freq).nodes = (mergeAll q.length t q).1.nodes := by
    simp only [buildTree, buildLeaves, hfold]
  have hnode : (buildTree freq).node? = (mergeAll q.length t q).1.node? := by
    funext j
    simp only [TreeStore.node?, hbuild]
  have hleaves : t.nodes = (positives freq).map (leafNode freq) := hnodes.trans (List.nil_append _)
  have hlen : t.nnode = (positives freq).length := by rw [TreeStore.nnode, hleaves, List.length_map]
  rw [hbuild, hnode, ← hleaves, ← hlen]
  exact mergeAll_nodes q.length t q fun e he => hgrow.forest.root_lt (List.mem_map.mpr ⟨e, he, rfl⟩)

/-- Entry `j` is the leaf of the `j`-th positive symbol (40_build.md R159). -/
theorem buildTree_leaf {freq : Vector Freq 256} {j : Nat} {x : Byte} (hj : (positives freq)[j]? = some x) :
    ∃ nd : Node, (buildTree freq).node? j = some nd ∧ nd.isLeaf = true ∧ nd.symbol = x ∧
      nd.weight = freqWeight (readFreq freq x) := by
  have hleaf : ((positives freq).map (leafNode freq))[j]? = some (leafNode freq x) := by
    rw [List.getElem?_map, hj]
    rfl
  obtain ⟨nd, hnd, hl, hr, hw, hs⟩ := (buildTree_nodes freq).1 j _ hleaf
  exact ⟨nd, hnd, by rw [Node.isLeaf, hl, hr]; rfl, hs, hw⟩

/-! ## The obligations -/

/-- Settles O26, by the refinement of the store to the construction over trees. -/
theorem buildMakesTheHuffmanTree : Obligations.BuildMakesTheHuffmanTree :=
  fun s hs => ⟨buildTree s.freq, exec_build hs, buildTree_spec s.freq⟩

/-- Settles O32: the lengths of the other code fit into a tree, the construction is optimal among such lengths, and each
merge adds its weight to the cost once. -/
theorem builtTreeIsOptimal : Obligations.BuiltTreeIsOptimal := by
  intro s t T hs ht hv
  cases (exec_build hs).symm.trans ht
  have hT : HuffmanOf s.freq T := huffmanOf_of_view hv
  obtain ⟨-, -, hpresent⟩ := buildTree_spec s.freq
  dsimp only
  rw [presentSymbols_buildTree, ← hT.costFrom_eq]
  refine ⟨fun c hc => ?_, cost_eq_internal hT.exact⟩
  obtain ⟨L, hfits⟩ := fits_of_prefixFree (positives_nodup s.freq) (c := c) fun x hx y hy =>
    hc x y ((hpresent x).mpr (mem_positives.mp hx)) ((hpresent y).mpr (mem_positives.mp hy))
  exact hT.optimal _ L hfits

/-- Settles O29: the leaves take the first entries, each merge the next one, and the root is the last. -/
theorem buildNumbersLeavesThenInternalNodes : Obligations.BuildNumbersLeavesThenInternalNodes := by
  rintro s hs ⟨x, hx⟩
  obtain ⟨hwf, -, hpresent⟩ := buildTree_spec s.freq
  obtain ⟨r, hr⟩ := hwf.root_of_present ((hpresent x).mpr hx)
  have hsize := hwf.size (Option.ne_none_iff_exists'.mpr ⟨r, hr⟩)
  rw [presentSymbols_buildTree] at hsize
  refine ⟨buildTree s.freq, exec_build hs, hsize, ?_, fun j x => buildTree_leaf, (buildTree_nodes s.freq).2⟩
  rw [hr, ← hwf.root_last hr, Nat.add_sub_cancel]

/-- Settles O30: the weights of the construction are sums of at most 256 frequencies, and frequencies of zero add
nothing. -/
theorem buildWeightsAreExactSums : Obligations.BuildWeightsAreExactSums := by
  intro s t T hs ht hv
  cases (exec_build hs).symm.trans ht
  have hT : HuffmanOf s.freq T := huffmanOf_of_view hv
  refine ⟨fun x w d hx => ?_, hT.exact, ?_, hT.leaves_eq⟩
  · have hw : w = freqWeight (readFreq s.freq x) := hT.weights 0 _ hx
    exact ⟨hw, hw ▸ mt (freqWeight_eq_zero_iff _).mp (hT.readFreq_ne_zero hx)⟩
  · rw [exact_weight hT.exact, hT.leafSum]
    exact sum_filter_freq s.freq allSymbols

/-- Settles O31: a merge copies the symbol of its left child. -/
theorem buildKeepsLeftmostSymbols : Obligations.BuildKeepsLeftmostSymbols := by
  intro s t T hs ht hv
  cases (exec_build hs).symm.trans ht
  exact (huffmanOf_of_view hv).leftmost

end Sys2Proof.Machine
end

section
/-! How a command ends (60_exceptions.md): completion or fault, the codes each command can leave, and what it leaves
unchanged (10_state.md, 20_memory.md). Each fact is read off the ways a command can end. -/

namespace Sys2Proof.Machine

variable {i : Instr} {s t : State}

/-- A command on a block that is not faulted completes and advances `CP`, or raises one of the six faults and does not
(10_state.md R37, 60_exceptions.md R300). -/
theorem Effect.completes_or_raises (h : Effect s i t) (hs : s.err = 0#3) :
    (t.err = 0#3 ∧ t.cp = s.cp + 1) ∨ ∃ k : FaultKind, t.err = k.code ∧ t.cp = s.cp := by
  cases h with
  | encInvalid => exact .inr ⟨.invalidSymbol, rfl, rfl⟩
  | decTruncated | hdesTruncated | rcntTruncated => exact .inr ⟨.truncatedStream, rfl, rfl⟩
  | encEmpty | decEmpty | hserEmpty => exact .inr ⟨.emptyTree, rfl, rfl⟩
  | wcntIllegal => exact .inr ⟨.illegalCommand, rfl, rfl⟩
  | hdesBad | rcntBad => exact .inr ⟨.badFormat, rfl, rfl⟩
  | hserMisaligned | hdesMisaligned | wcntMisaligned | rcntMisaligned => exact .inr ⟨.misaligned, rfl, rfl⟩
  | _ => exact .inl ⟨hs, rfl⟩

theorem faultFlag_eq_false : s.faultFlag = false ↔ s.err = 0#3 := bne_eq_false_iff_eq

theorem faultFlag_eq_true : s.faultFlag = true ↔ s.err ≠ 0#3 := bne_iff_ne

/-! ## Who writes the streams and the result registers -/

/-- Only DEC writes `SYM` and `DOUT` (10_state.md R22, 20_memory.md R75). -/
theorem Effect.sym_dout_eq (h : Effect s i t) (hdec : i ≠ .dec) : t.sym = s.sym ∧ t.dout = s.dout := by
  cases h with
  | decEmpty | decOk | decTruncated => exact absurd rfl hdec
  | _ => exact ⟨rfl, rfl⟩

/-- Only ENC, HSER, WCNT and FLUSH write `OUT` (20_memory.md R60). -/
theorem Effect.out_eq (h : Effect s i t) (henc : ∀ x, i ≠ .enc x) (hhser : i ≠ .hser) (hwcnt : ∀ v, i ≠ .wcnt v)
    (hflush : i ≠ .flush) : t.out = s.out := by
  cases h with
  | encEmpty x | encInvalid x | encOk x => exact absurd rfl (henc x)
  | hserEmpty | hserMisaligned | hserOk => exact absurd rfl hhser
  | wcntIllegal v | wcntMisaligned v | wcntOk v => exact absurd rfl (hwcnt v)
  | flush => exact absurd rfl hflush
  | _ => rfl

/-- Only DEC, HDES and RCNT move the position in `IN` (20_memory.md R69). -/
theorem Effect.inp_eq (h : Effect s i t) (hdec : i ≠ .dec) (hhdes : i ≠ .hdes) (hrcnt : i ≠ .rcnt) :
    t.inp = s.inp := by
  cases h with
  | decEmpty | decOk | decTruncated => exact absurd rfl hdec
  | hdesMisaligned | hdesOk | hdesTruncated | hdesBad => exact absurd rfl hhdes
  | rcntMisaligned | rcntTruncated | rcntBad | rcntOk => exact absurd rfl hrcnt
  | _ => rfl

/-- No command writes the inputs of a run: `IN.bytes`, the host's list and the parameters (10_state.md R43). -/
theorem Effect.inputs_eq (h : Effect s i t) :
    t.inp.bytes = s.inp.bytes ∧ t.cmds = s.cmds ∧ t.params = s.params := by
  cases h with
  | decOk j v hroot hbytes => exact ⟨hbytes, rfl, rfl⟩
  | decTruncated j hroot hbytes => exact ⟨hbytes, rfl, rfl⟩
  | _ => exact ⟨rfl, rfl, rfl⟩

/-! ## What a fault changes -/

/-- A command that raises a fault changes `STATUS.ERR`, what HDES made of the tree, and where DEC, HDES or RCNT stand in
`IN` (60_exceptions.md section 3). -/
theorem Effect.fault_frame (h : Effect s i t) (hs : s.err = 0#3) (ht : t.err ≠ 0#3) :
    t = { s with err := t.err, tree := t.tree, inp := { s.inp with pos := t.inp.pos, bit := t.inp.bit } } ∧
      (i ≠ .hdes → t.tree = s.tree) := by
  cases h with
  | hdesMisaligned | hdesTruncated | hdesBad => exact ⟨rfl, absurd rfl⟩
  | decTruncated j hroot hbytes => exact ⟨by dsimp only; rw [← hbytes], fun _ => rfl⟩
  | encEmpty | encInvalid | decEmpty | hserEmpty | hserMisaligned | wcntIllegal | wcntMisaligned | rcntMisaligned
  | rcntTruncated | rcntBad => exact ⟨rfl, fun _ => rfl⟩
  | _ => exact absurd hs ht

/-- The ends that leave the code of Misaligned are the alignment checks of HSER, WCNT, HDES and RCNT
(60_exceptions.md R297). -/
theorem Effect.misaligned_of_err_six (h : Effect s i t) (hs : s.err = 0#3) (ht : t.err = 6#3) :
    ((i = .hser ∧ s.tree.root ≠ none ∧ s.out.nbits ≠ 0) ∨
      (∃ v, i = .wcnt v ∧ v ≤ s.params.countMax ∧ s.out.nbits ≠ 0) ∨
      ((i = .hdes ∨ i = .rcnt) ∧ s.inp.bit ≠ 0)) ∧ t = { s with err := 6#3 } := by
  cases h with
  | hserMisaligned hroot hn => exact ⟨.inl ⟨rfl, hroot, hn⟩, rfl⟩
  | wcntMisaligned v hv hn => exact ⟨.inr (.inl ⟨v, rfl, hv, hn⟩), rfl⟩
  | hdesMisaligned hb => exact ⟨.inr (.inr ⟨.inl rfl, hb⟩), rfl⟩
  | rcntMisaligned hb => exact ⟨.inr (.inr ⟨.inr rfl, hb⟩), rfl⟩
  | _ => simp [hs] at ht

end Sys2Proof.Machine

namespace Sys2Proof.Machine

/-! ## The obligations -/

/-- Settles O10: a faulted block keeps its state, and every other end completes or raises. -/
theorem completionAdvancesCpByOne : Obligations.CompletionAdvancesCpByOne := by
  intro i s t h
  rcases next_cases h with ⟨hs, rfl⟩ | ⟨hs, he⟩
  · exact ⟨fun _ => rfl, fun hf => absurd (faultFlag_eq_false.mp hf) hs⟩
  · refine ⟨fun hf => absurd hs (faultFlag_eq_true.mp hf), fun _ => ?_⟩
    rw [faultFlag_eq_false]
    exact he.completes_or_raises hs

/-- Settles O12, by the ends that raise a fault. -/
theorem faultsArePreciseForTheHost : Obligations.FaultsArePreciseForTheHost := by
  intro i s t hs h ht
  have he := effect_of_next hs h
  obtain ⟨hframe, htree⟩ := he.fault_frame hs ht
  exact ⟨hframe, htree, he.inp_eq⟩

/-- Settles O13: the code of each end stands in the row of its command. -/
theorem commandsRaiseOnlyTheirFaults : Obligations.CommandsRaiseOnlyTheirFaults := by
  intro i s t hs h
  cases effect_of_next hs h <;> simp [hs]

/-- Settles O16: the ends with code 6 are the alignment checks, and each check is met after those before it. -/
theorem misalignedIsRaisedByByteCommandsInMidByte : Obligations.MisalignedIsRaisedByByteCommandsInMidByte := by
  intro i s t hs h
  have hraised := (effect_of_next hs h).misaligned_of_err_six hs
  refine ⟨⟨fun ht => (hraised ht).1, fun hi => ?_⟩, fun ht => (hraised ht).2⟩
  have hexec : exec i s = .next { s with err := 6#3 } := by
    rcases hi with ⟨rfl, hroot, hn⟩ | ⟨v, rfl, hv, hn⟩ | ⟨rfl | rfl, hb⟩
    · exact exec_hser_misaligned hs hroot hn
    · exact exec_wcnt_misaligned hs hv hn
    · exact exec_hdes_misaligned hs hb
    · exact exec_rcnt_misaligned hs hb
  cases hexec.symm.trans h
  rfl

/-- Settles O18, by the writers of each register and stream. -/
theorem onlyTheirCommandsWriteTheStreams : Obligations.OnlyTheirCommandsWriteTheStreams := by
  intro i s t h
  rcases next_cases h with ⟨-, rfl⟩ | ⟨-, he⟩
  · exact ⟨fun _ => ⟨rfl, rfl⟩, fun _ _ _ _ => rfl, fun _ _ _ => rfl, rfl, rfl, rfl⟩
  · exact ⟨he.sym_dout_eq, he.out_eq, he.inp_eq, he.inputs_eq⟩

end Sys2Proof.Machine
end

section
/-! Steps and runs (10_state.md R37): a step is the command its word decodes to, in every coherent state a command
answers a coherent one, and the machine's invariant holds from reset on. -/

namespace Sys2Proof.Machine

/-! ## One step -/

/-- A step on a word that decodes is the command (10_state.md R37). -/
theorem step_of_decode_ok {s : State} {w : CmdWord} {i : Instr} (hw : fetch s = some w) (hd : decode w = .ok i) :
    step s = exec i s := by
  simp only [step, hw, hd]

/-- With no word left the block is idle (60_exceptions.md R311; log 9). -/
theorem step_of_fetch_none {s : State} (hw : fetch s = none) : step s = .next s := by
  simp only [step, hw, idle]

/-! ## A list of commands -/

theorem execAll_of_faulted (is : List Instr) {s : State} (hs : s.err ≠ 0#3) : execAll is s = .next s := by
  induction is with
  | nil => rfl
  | cons i is ih => rw [execAll_cons (exec_of_faulted i hs), ih]

theorem run_of_faulted (n : Nat) {s : State} (hs : s.err ≠ 0#3) : core.run n s = .next s := by
  induction n with
  | zero => rfl
  | succ n ih => exact (run_succ_next core (step_of_faulted hs)).trans ih

/-- A command that completes leaves the host's list in place and moves to its next word (10_state.md R37). -/
theorem cmds_drop_of_completes {i : Instr} {s t : State} (hs : s.err = 0#3) (h : exec i s = .next t)
    (ht : t.err = 0#3) : t.cmds.drop t.cp = (s.cmds.drop s.cp).tail := by
  have he := effect_of_next hs h
  obtain ⟨-, hcmds, -⟩ := he.inputs_eq
  obtain ⟨-, hcp⟩ | ⟨k, hk, -⟩ := he.completes_or_raises hs
  · rw [hcmds, hcp, List.tail_drop]
  · exact absurd (hk.symm.trans ht) (code_ne_zero k)

/-- Steps over the words of a list of commands run the commands in order, and stay where one faults (20_memory.md
section 8, 70_reset_and_hazards.md section 3). -/
theorem run_eq_execAll (is : List Instr) {s : State} (h : s.cmds.drop s.cp = is.map encode) :
    core.run is.length s = execAll is s := by
  induction is generalizing s with
  | nil => rfl
  | cons i is ih =>
    have hfetch : fetch s = some (encode i) := by
      rw [fetch, ← List.head?_drop, h]
      rfl
    have hstep : core.step s = exec i s := step_of_decode_ok hfetch (decode_encode i)
    cases hx : exec i s with
    | fault f => exact (run_succ_fault core (hstep.trans hx)).trans (by simp only [execAll, hx]; rfl)
    | refused r => exact (run_succ_refused core (hstep.trans hx)).trans (by simp only [execAll, hx]; rfl)
    | next t =>
      rw [execAll_cons hx]
      refine (run_succ_next core (hstep.trans hx)).trans ?_
      by_cases ht : t.err = 0#3
      · by_cases hs : s.err = 0#3
        · exact ih (by rw [cmds_drop_of_completes hs hx ht, h]; rfl)
        · rw [exec_of_faulted i hs] at hx
          cases hx
          exact absurd ht hs
      · exact (run_of_faulted is.length ht).trans (execAll_of_faulted is ht).symm

/-! ## Every command answers a coherent state -/

section
variable {s : State}

/-- A fault that changes `STATUS.ERR` alone keeps a state coherent (60_exceptions.md R300). -/
theorem Coherent.raiseFault (h : Coherent s) (k : FaultKind) : Coherent (raiseFault k s) :=
  ⟨code_ne_seven k, h.acc, h.pos, h.atEnd, h.nnode, h.tree.imp_right fun ⟨_, hroot⟩ => ⟨code_ne_zero k, hroot⟩⟩

/-- ENC's walk ends at the root of a well-formed tree (41_encode.md R172). -/
theorem Coherent.exec_enc (h : Coherent s) (hs : s.err = 0#3) (x : Byte) :
    ∃ t, exec (.enc x) s = .next t ∧ Coherent t := by
  by_cases hroot : s.tree.root = none
  · exact ⟨_, exec_of_root_none (.inl ⟨x, rfl⟩) hs hroot, h.raiseFault .emptyTree⟩
  by_cases hx : s.tree.present x = true
  · obtain ⟨T, hv⟩ := (h.wf hs).view_of_present hx
    obtain ⟨bs, hcode⟩ := (h.wf hs).code_of_present hv hx
    exact ⟨_, exec_enc_of_code hs (h.wf hs) hv hcode, h.err, writeBits_accOk bs h.acc, h.pos, h.atEnd, h.nnode, h.tree⟩
  · exact ⟨_, exec_enc_of_leafOf_none hs hroot (leafOf_of_not_present hx), h.raiseFault .invalidSymbol⟩

/-- DEC's walk ends at a leaf or at the end of `IN` (42_decode.md R192, R194). -/
theorem Coherent.exec_dec (h : Coherent s) (hs : s.err = 0#3) : ∃ t, exec .dec s = .next t ∧ Coherent t := by
  cases hroot : s.tree.root with
  | none => exact ⟨_, exec_of_root_none (.inr (.inl rfl)) hs hroot, h.raiseFault .emptyTree⟩
  | some r =>
    obtain ⟨T, hv, -⟩ := (h.wf hs).view_some hroot
    obtain ⟨i, -, ⟨hpos, hend⟩, ⟨v, -, hexec⟩ | ⟨-, -, hexec⟩⟩ := Machine.exec_dec hs h hv
    · exact ⟨_, hexec, h.err, h.acc, hpos, hend, h.nnode, h.tree⟩
    · exact ⟨_, hexec, code_ne_seven .truncatedStream, h.acc, hpos, hend, h.nnode, .inl (h.wf hs)⟩

/-- HSER's traversal ends after the last node (43_header.md R212). -/
theorem Coherent.exec_hser (h : Coherent s) (hs : s.err = 0#3) : ∃ t, exec .hser s = .next t ∧ Coherent t := by
  cases hroot : s.tree.root with
  | none => exact ⟨_, exec_of_root_none (.inr (.inr rfl)) hs hroot, h.raiseFault .emptyTree⟩
  | some r =>
    obtain ⟨T, hv, -⟩ := (h.wf hs).view_some hroot
    by_cases hn : s.out.nbits = 0
    · exact ⟨_, exec_hser_aligned hs (h.wf hs) hv hn, h.err, h.acc, h.pos, h.atEnd, h.nnode, h.tree⟩
    · exact ⟨_, exec_hser_misaligned hs (hroot ▸ Option.some_ne_none r) hn, h.raiseFault .misaligned⟩

/-- HDES leaves a well-formed tree, or part of one behind `ROOT = NULL` (43_header.md R227). -/
theorem Coherent.exec_hdes (h : Coherent s) (hs : s.err = 0#3) : ∃ t, exec .hdes s = .next t ∧ Coherent t := by
  by_cases hb : s.inp.bit = 0
  · obtain ⟨T, t, i, hwf, -, -, -, -, -, ⟨hpos, hend⟩, -, hexec⟩ | ⟨k, t, i, -, hroot, -, hok, hexec⟩ :=
      exec_hdes_cases hs hb
    · exact ⟨_, hexec, h.err, h.acc, hpos, hend, hwf.nnode_le, .inl hwf⟩
    · obtain ⟨⟨hpos, hend⟩, hnnode⟩ := hok h.pos
      exact ⟨_, hexec, code_ne_seven k, h.acc, hpos, hend, hnnode, .inr ⟨code_ne_zero k, hroot⟩⟩
  · exact ⟨_, exec_hdes_misaligned hs hb, h.raiseFault .misaligned⟩

theorem Coherent.exec_wcnt (h : Coherent s) (hs : s.err = 0#3) (v : Count) :
    ∃ t, exec (.wcnt v) s = .next t ∧ Coherent t := by
  by_cases hv : s.params.countMax < v
  · exact ⟨_, exec_wcnt_above hs hv, h.raiseFault .illegalCommand⟩
  rw [BitVec.not_lt] at hv
  by_cases hn : s.out.nbits = 0
  · exact ⟨_, exec_wcnt_aligned hs hv hn, h.err, h.acc, h.pos, h.atEnd, h.nnode, h.tree⟩
  · exact ⟨_, exec_wcnt_misaligned hs hv hn, h.raiseFault .misaligned⟩

/-- RCNT reads at most four of the bytes that are there (44_stream.md R242). -/
theorem Coherent.exec_rcnt (h : Coherent s) (hs : s.err = 0#3) : ∃ t, exec .rcnt s = .next t ∧ Coherent t := by
  by_cases hb : s.inp.bit = 0
  · obtain ⟨p, -, hread, hp⟩ | ⟨b0, b1, b2, b3, rest, -, -, hpos, hread⟩ :=
      readCount_frame s.params.countByteOrder s.inp hb
    · exact ⟨_, exec_rcnt_of_readCount_raise hs hb hread, code_ne_seven .truncatedStream, h.acc, (hp h.pos).le,
        fun _ => hb, h.nnode, .inl (h.wf hs)⟩
    · by_cases hv : s.params.countMax < countValue s.params.countByteOrder b0 b1 b2 b3
      · exact ⟨_, exec_rcnt_above hs hb hread hv, code_ne_seven .badFormat, h.acc, hpos, fun _ => hb, h.nnode,
          .inl (h.wf hs)⟩
      · exact ⟨_, exec_rcnt_inRange hs hb hread (BitVec.not_lt.mp hv), h.err, h.acc, hpos, fun _ => hb, h.nnode, h.tree⟩
  · exact ⟨_, exec_rcnt_misaligned hs hb, h.raiseFault .misaligned⟩

/-- Every command answers a coherent state in every coherent state: the model's own stops (log 8) are not met. -/
theorem Coherent.exec (h : Coherent s) (i : Instr) : ∃ t, exec i s = .next t ∧ Coherent t := by
  by_cases hs : s.err = 0#3
  · cases i with
    | fclr => exact ⟨_, exec_fclr hs, h.err, h.acc, h.pos, h.atEnd, h.nnode, h.tree⟩
    | fset x v => exact ⟨_, exec_fset x v hs, h.err, h.acc, h.pos, h.atEnd, h.nnode, h.tree⟩
    | build =>
      have hwf := (buildTree_spec s.freq).1
      exact ⟨_, exec_build hs, h.err, h.acc, h.pos, h.atEnd, hwf.nnode_le, .inl hwf⟩
    | tclr => exact ⟨_, exec_tclr hs, h.err, h.acc, h.pos, h.atEnd, Nat.zero_le _, .inl .empty_wf⟩
    | enc x => exact h.exec_enc hs x
    | dec => exact h.exec_dec hs
    | hser => exact h.exec_hser hs
    | hdes => exact h.exec_hdes hs
    | wcnt v => exact h.exec_wcnt hs v
    | rcnt => exact h.exec_rcnt hs
    | flush => exact ⟨_, exec_flush hs, h.err, flushBitwise_accOk h.acc, h.pos, h.atEnd, h.nnode, h.tree⟩
  · exact ⟨s, exec_of_faulted i hs, h⟩

end

/-! ## The invariant -/

/-- A command fetched from the list leaves `CP` at a command of the list or just past its end (10_state.md R37). -/
theorem cp_le_of_exec {i : Instr} {s t : State} (h : exec i s = .next t) (hlt : s.cp < s.cmds.length) :
    t.cp ≤ t.cmds.length := by
  obtain ⟨-, -, -, -, hcmds, -⟩ := onlyTheirCommandsWriteTheStreams i s t h
  have hcp : t.cp ≤ s.cp + 1 := by
    obtain ⟨hfaulted, hrun⟩ := completionAdvancesCpByOne i s t h
    cases hf : s.faultFlag with
    | true => exact (hfaulted hf).le.trans (Nat.le_succ _)
    | false =>
      obtain ⟨-, hcp⟩ | ⟨k, -, hcp⟩ := hrun hf
      · exact hcp.le
      · exact hcp.le.trans (Nat.le_succ _)
  rw [hcmds]
  exact hcp.trans hlt

/-- Every step from a state that satisfies the invariant answers one. -/
theorem Inv.step {s : State} (h : Inv s) : ∃ t, step s = .next t ∧ Inv t := by
  cases hw : fetch s with
  | none => exact ⟨s, step_of_fetch_none hw, h⟩
  | some w =>
    have hlt : s.cp < s.cmds.length := (List.getElem?_eq_some_iff.mp hw).1
    cases hd : decode w with
    | ok i =>
      obtain ⟨t, ht, hc⟩ := h.coherent.exec i
      exact ⟨t, (step_of_decode_ok hw hd).trans ht, hc, cp_le_of_exec ht hlt⟩
    | error e =>
      by_cases hs : s.err = 0#3
      · exact ⟨_, (step_of_decode_error hw hd).trans (illegalCommand_of_unfaulted hs),
          h.coherent.raiseFault .illegalCommand, h.cp⟩
      · exact ⟨s, step_of_faulted hs, h⟩

theorem inv_hostReset (s : State) : Inv (hostReset s) := ⟨(ready_hostReset s).coherent, Nat.zero_le _⟩

/-! ## The obligations -/

/-- Settles O55: each command's walk ends over a well-formed tree, and a step is a command, an illegal word or idle. -/
theorem everyCommandAnswersANextState : Obligations.EveryCommandAnswersANextState :=
  ⟨fun i _ h => h.exec i, fun _ h => h.step.imp fun _ ht => ht.1⟩

/-- Settles O53: the step answers some state that satisfies the invariant, and it answers only one. -/
theorem stepKeepsTheInvariant : Obligations.StepKeepsTheInvariant := by
  intro s t h ht
  obtain ⟨u, hu, hinv⟩ := h.step
  cases hu.symm.trans ht
  exact hinv

/-- Settles O54: the values of reset satisfy the invariant, and loading a run is a reset over other inputs. -/
theorem resetHasTheInvariant : Obligations.ResetHasTheInvariant :=
  ⟨inv_hostReset .reset, fun s => ⟨inv_hostReset s, fun ws bs =>
    inv_hostReset { s with inp := .rewind bs, cmds := ws }⟩⟩

/-- Settles O11, by induction on the list. -/
theorem runOfAListIsItsCommandsInOrder : Obligations.RunOfAListIsItsCommandsInOrder := fun is _ => run_eq_execAll is

/-- Settles O7: `step` fetches the word at `CP` and decodes it. -/
theorem stepRunsTheDecodedCommand : Obligations.StepRunsTheDecodedCommand := fun _ _ _ => step_of_decode_ok

/-- Settles O8: no word stands at an index past the end of the list. -/
theorem stepWithoutCommandKeepsTheState : Obligations.StepWithoutCommandKeepsTheState :=
  fun _ h => step_of_fetch_none (List.getElem?_eq_none h)

end Sys2Proof.Machine
end

section
/-! Trees of one shape and the same leaf symbols are alike to every command and to the host (10_state.md R40,
42_decode.md R199, 43_header.md R229). -/

namespace Sys2Proof.Machine

/-! ## Two stores of one shape -/

/-- Two well-formed stores that hold no tree, or trees of one shape with the same leaf symbols. -/
structure SameTree (t u : TreeStore) : Prop where
  left  : t.Wf
  right : u.Wf
  view  : sameView t.view u.view

theorem SameTree.cases {t u : TreeStore} (h : SameTree t u) : (t.root = none ∧ u.root = none) ∨
    ∃ T U, t.view = some T ∧ u.view = some U ∧ T.sameShape U = true := by
  obtain ⟨ht, hu, hview⟩ := h
  cases hT : t.view with
  | none =>
    cases hU : u.view with
    | none => exact .inl ⟨ht.view_none.mp hT, hu.view_none.mp hU⟩
    | some U => rw [hT, hU] at hview; exact hview.elim
  | some T =>
    cases hU : u.view with
    | none => rw [hT, hU] at hview; exact hview.elim
    | some U => rw [hT, hU] at hview; exact .inr ⟨T, U, rfl, rfl, hview⟩

theorem root_ne_none_of_view {t : TreeStore} {T : Tree} (hv : t.view = some T) : t.root ≠ none := by
  obtain ⟨r, hr, -⟩ := TreeStore.view_root hv
  exact Option.ne_none_iff_exists'.mpr ⟨r, hr⟩

/-- A symbol without a code has no leaf (10_state.md R33, R41). -/
theorem TreeStore.Wf.leafOf_of_code_none {t : TreeStore} (h : t.Wf) {T : Tree} (hv : t.view = some T) {x : Byte}
    (hc : T.code x = none) : t.leafOf x = none := by
  refine leafOf_of_not_present fun hx => ?_
  obtain ⟨bs, hbs⟩ := h.code_of_present hv hx
  cases hc.symm.trans hbs

theorem sameShape_header {T U : Tree} (h : T.sameShape U = true) : T.header = U.header := by
  rw [← rebuilt_header T, (sameShape_iff_rebuilt T U).mp h, rebuilt_header]

/-! ## The walk of DEC in stores of one shape -/

section
variable {nodes nodes' : List Node}

/-- DEC's loop at an internal node goes to the child its bit names (42_decode.md R192). -/
theorem decWalk_of_bit {c : Nat} {nd : Node} (hnd : nodes[c]? = some nd) (hleaf : nd.isLeaf = false) {b : Bit}
    {i j : InStream} (hread : readBit i = (some b, j)) (n : Nat) :
    decWalk nodes (n + 1) (some c) i = decWalk nodes n (if b then nd.right else nd.left) j := by
  rw [decWalk.eq_def]
  cases b <;> simp [hnd, hleaf, hread]

/-- DEC's loop at an internal node with no bit left (42_decode.md R194). -/
theorem decWalk_of_eos {c : Nat} {nd : Node} (hnd : nodes[c]? = some nd) (hleaf : nd.isLeaf = false)
    {i j : InStream} (hread : readBit i = (none, j)) (n : Nat) :
    decWalk nodes (n + 1) (some c) i = .raise .truncatedStream j := by
  rw [decWalk.eq_def]
  simp [hnd, hleaf, hread]

/-- DEC's walk is the same in trees of one shape with the same leaf symbols, wherever `IN` stands (42_decode.md
R199). -/
theorem Holds.decWalk_sameShape (hd : Downward nodes) (hd' : Downward nodes') {c : Nat} {T : Tree}
    (h : Holds nodes c T) {c' : Nat} {U : Tree} (h' : Holds nodes' c' U) (hs : T.sameShape U = true) {n n' : Nat}
    (hn : c ≤ n) (hn' : c' ≤ n') (i : InStream) :
    Machine.decWalk nodes n (some c) i = Machine.decWalk nodes' n' (some c') i := by
  induction h generalizing c' U n n' i with
  | @leaf c nd hnd hl hr =>
    cases h' with
    | @leaf _ nd' hnd' hl' hr' =>
      have hsym : nd.symbol = nd'.symbol := beq_iff_eq.mp hs
      have hleaf : nd.isLeaf = true := by simp [Node.isLeaf, hl, hr]
      have hleaf' : nd'.isLeaf = true := by simp [Node.isLeaf, hl', hr']
      rw [decWalk_of_isLeaf hnd hleaf, decWalk_of_isLeaf hnd' hleaf', hsym]
    | node => cases hs
  | @node c l r nd L R hnd hl hr hL hR ihL ihR =>
    cases h' with
    | leaf => cases hs
    | @node _ l' r' nd' L' R' hnd' hl' hr' hL' hR' =>
      obtain ⟨hsL, hsR⟩ : L.sameShape L' = true ∧ R.sameShape R' = true := by
        rw [← Bool.and_eq_true]
        exact hs
      have hlc := hd c nd l hnd (.inl hl)
      have hrc := hd c nd r hnd (.inr hr)
      have hlc' := hd' c' nd' l' hnd' (.inl hl')
      have hrc' := hd' c' nd' r' hnd' (.inr hr')
      obtain ⟨m, rfl⟩ : ∃ m, n = m + 1 := ⟨n - 1, by omega⟩
      obtain ⟨m', rfl⟩ : ∃ m', n' = m' + 1 := ⟨n' - 1, by omega⟩
      have hnl : nd.isLeaf = false := by simp [Node.isLeaf, hl]
      have hnl' : nd'.isLeaf = false := by simp [Node.isLeaf, hl']
      rcases hread : readBit i with ⟨_ | b, j⟩
      · rw [decWalk_of_eos hnd hnl hread, decWalk_of_eos hnd' hnl' hread]
      · rw [decWalk_of_bit hnd hnl hread, decWalk_of_bit hnd' hnl' hread, hl, hr, hl', hr']
        cases b with
        | false => exact ihL hL' hsL (by omega) (by omega) j
        | true => exact ihR hR' hsR (by omega) (by omega) j

end

/-! ## A command beside another tree -/

/-- The tree replaced by `u`. -/
def setTree (u : TreeStore) (s : State) : State := { s with tree := u }

section
variable {u : TreeStore} {s t : State}

/-- A command whose pseudocode runs the same beside another tree answers the same next state beside it. -/
theorem exec_setTree_of_body {i : Instr} (hbody : body i (setTree u s) = (body i s).within (setTree u))
    (h : exec i s = .next t) : exec i (setTree u s) = .next (setTree u t) := by
  obtain ⟨-, hexec⟩ := exec_next_beside (put := fun _ : Unit => setTree u) (a := ()) (fun _ _ => rfl) (fun _ _ => rfl)
    (fun _ _ _ => rfl) ⟨(), hbody⟩ h
  exact hexec

/-- WCNT does not read the tree (44_stream.md R241). -/
theorem wcntBody_setTree (v : Count) : wcntBody v (setTree u s) = (wcntBody v s).within (setTree u) := by
  unfold wcntBody setTree
  dsimp only
  split
  · rfl
  · split
    · cases writeBytes (countBytes s.params.countByteOrder v) s.out <;> rfl
    · rfl

/-- RCNT does not read the tree (44_stream.md R242). -/
theorem rcntBody_setTree : rcntBody (setTree u s) = (rcntBody s).within (setTree u) := by
  unfold rcntBody setTree
  dsimp only
  split
  · cases readCount s.params.countByteOrder s.inp with
    | ok n i => simp only [within_ok, bind_ok]; split <;> rfl
    | raise k i => rfl
    | stuck x => rfl
  · rfl

/-- DEC's pseudocode runs the same beside a tree of the same shape (42_decode.md R199). -/
theorem decBody_setTree (h : SameTree s.tree u) : decBody (setTree u s) = (decBody s).within (setTree u) := by
  rcases h.cases with ⟨hr, hr'⟩ | ⟨T, U, hv, hv', hshape⟩
  · simp only [decBody, setTree, hr, hr', within_raise]
  · obtain ⟨r, hr, hT⟩ := TreeStore.view_root hv
    obtain ⟨r', hr', hU⟩ := TreeStore.view_root hv'
    have hwalk := hT.decWalk_sameShape h.left.forest.downward h.right.forest.downward hU hshape hT.lt.le hU.lt.le s.inp
    simp only [decBody, setTree, TreeStore.nnode, hr, hr', ← hwalk]
    cases decWalk s.tree.nodes s.tree.nodes.length (some r) s.inp <;> rfl

/-- ENC writes the same code beside a tree of the same shape (41_encode.md R173). -/
theorem exec_enc_setTree {x : Byte} (hs : s.err = 0#3) (hsame : SameTree s.tree u) (h : exec (.enc x) s = .next t) :
    exec (.enc x) (setTree u s) = .next (setTree u t) := by
  rcases hsame.cases with ⟨hr, hr'⟩ | ⟨T, U, hv, hv', hshape⟩
  · cases (exec_of_root_none (.inl ⟨x, rfl⟩) hs hr).symm.trans h
    exact exec_of_root_none (s := setTree u s) (.inl ⟨x, rfl⟩) hs hr'
  · have hcode := sameShape_code hshape x
    cases hc : T.code x with
    | none =>
      cases (exec_enc_of_leafOf_none hs (root_ne_none_of_view hv) (hsame.left.leafOf_of_code_none hv hc)).symm.trans h
      exact exec_enc_of_leafOf_none (s := setTree u s) hs (root_ne_none_of_view hv')
        (hsame.right.leafOf_of_code_none hv' (hcode ▸ hc))
    | some bs =>
      cases (exec_enc_of_code hs hsame.left hv hc).symm.trans h
      exact exec_enc_of_code (s := setTree u s) hs hsame.right hv' (hcode ▸ hc)

/-- HSER writes the same header beside a tree of the same shape (43_header.md R229). -/
theorem exec_hser_setTree (hs : s.err = 0#3) (hsame : SameTree s.tree u) (h : exec .hser s = .next t) :
    exec .hser (setTree u s) = .next (setTree u t) := by
  rcases hsame.cases with ⟨hr, hr'⟩ | ⟨T, U, hv, hv', hshape⟩
  · cases (exec_of_root_none (.inr (.inr rfl)) hs hr).symm.trans h
    exact exec_of_root_none (s := setTree u s) (.inr (.inr rfl)) hs hr'
  · by_cases hn : s.out.nbits = 0
    · cases (exec_hser_aligned hs hsame.left hv hn).symm.trans h
      rw [sameShape_header hshape]
      exact exec_hser_aligned (s := setTree u s) hs hsame.right hv' hn
    · cases (exec_hser_misaligned hs (root_ne_none_of_view hv) hn).symm.trans h
      exact exec_hser_misaligned (s := setTree u s) hs (root_ne_none_of_view hv') hn

/-- HDES on an aligned stream discards the tree that stands (43_header.md R221). -/
theorem exec_hdes_setTree (hs : s.err = 0#3) (hb : s.inp.bit = 0) : exec .hdes (setTree u s) = exec .hdes s := by
  have hbody : hdesBody (setTree u s) = hdesBody s := (if_pos hb).trans (if_pos hb).symm
  show command hdesBody (setTree u s) = command hdesBody s
  rw [command, hbody, if_pos (show (setTree u s).err = 0#3 from hs), command, if_pos hs]

/-- A command that does not write the tree answers the same next state beside a tree of the same shape (10_state.md
R40). -/
theorem exec_setTree {i : Instr} (hs : s.err = 0#3) (hsame : SameTree s.tree u) (hbuild : i ≠ .build)
    (hhdes : i ≠ .hdes) (htclr : i ≠ .tclr) (h : exec i s = .next t) :
    exec i (setTree u s) = .next (setTree u t) := by
  cases i with
  | build => exact absurd rfl hbuild
  | hdes => exact absurd rfl hhdes
  | tclr => exact absurd rfl htclr
  | fclr | fset | flush => exact exec_setTree_of_body rfl h
  | enc x => exact exec_enc_setTree hs hsame h
  | dec => exact exec_setTree_of_body (decBody_setTree hsame) h
  | hser => exact exec_hser_setTree hs hsame h
  | wcnt v => exact exec_setTree_of_body (wcntBody_setTree v) h
  | rcnt => exact exec_setTree_of_body rcntBody_setTree h

end

/-! ## Alike states -/

theorem alike_setTree {s : State} {u : TreeStore} (h : SameTree s.tree u) : Alike s (setTree u s) :=
  ⟨rfl, .inr ⟨h.left, h.right, h.view⟩⟩

theorem Alike.refl (s : State) : Alike s s := ⟨rfl, .inl rfl⟩

/-- Alike states are equal, or one is the other beside a tree of the same shape. -/
theorem Alike.cases {s s' : State} (h : Alike s s') : s' = s ∨ ∃ u, SameTree s.tree u ∧ s' = setTree u s := by
  obtain ⟨hrest, htree⟩ := h
  have hs' : s' = setTree s'.tree s := (congrArg (setTree s'.tree) hrest :)
  rcases htree with heq | ⟨ht, hu, hview⟩
  · left
    rw [hs', heq]
    rfl
  · exact .inr ⟨s'.tree, ⟨ht, hu, hview⟩, hs'⟩

/-- The host sees the same of alike states: `STATUS.EMPTY` is all that shows of the tree (20_memory.md R84). -/
theorem Alike.observe_eq {s s' : State} (h : Alike s s') : s'.observe = s.observe := by
  obtain rfl | ⟨u, hsame, rfl⟩ := h.cases
  · rfl
  · have hempty : (setTree u s).emptyFlag = s.emptyFlag := by
      show (u.root == none) = (s.tree.root == none)
      obtain ⟨hr, hr'⟩ | ⟨T, U, hv, hv', -⟩ := hsame.cases
      · rw [hr, hr']
      · rw [beq_eq_false_iff_ne.mpr (root_ne_none_of_view hv), beq_eq_false_iff_ne.mpr (root_ne_none_of_view hv')]
    have hstatus : (setTree u s).status = s.status := by
      rw [State.status, hempty]
      rfl
    rw [State.observe, hstatus]
    rfl

/-- A command keeps states alike: those that read the tree read no more than its shape and symbols, and BUILD, HDES and
TCLR discard it (10_state.md R40, R44). -/
theorem Alike.exec {i : Instr} {s s' t : State} (h : Alike s s') (ht : exec i s = .next t) :
    ∃ t', exec i s' = .next t' ∧ Alike t t' := by
  obtain rfl | ⟨u, hsame, rfl⟩ := h.cases
  · exact ⟨t, ht, .refl t⟩
  rcases next_cases ht with ⟨hs, rfl⟩ | ⟨hs, he⟩
  · exact ⟨_, exec_of_faulted i (s := setTree u t) hs, alike_setTree hsame⟩
  · by_cases hbuild : i = .build
    · subst hbuild
      cases (exec_build hs).symm.trans ht
      exact ⟨_, exec_build (s := setTree u s) hs, .refl _⟩
    by_cases htclr : i = .tclr
    · subst htclr
      cases (exec_tclr hs).symm.trans ht
      exact ⟨_, exec_tclr (s := setTree u s) hs, .refl _⟩
    by_cases hhdes : i = .hdes
    · subst hhdes
      by_cases hb : s.inp.bit = 0
      · exact ⟨t, (exec_hdes_setTree hs hb).trans ht, .refl t⟩
      · cases (exec_hdes_misaligned hs hb).symm.trans ht
        exact ⟨_, exec_hdes_misaligned (s := setTree u s) hs hb, alike_setTree (s := { s with err := 6#3 }) hsame⟩
    · exact ⟨_, exec_setTree hs hsame hbuild hhdes htclr ht,
        alike_setTree (by rwa [he.tree_eq hbuild hhdes htclr])⟩

/-- A list of commands that runs has run its first command and then the rest. -/
theorem execAll_cons_eq_next {i : Instr} {is : List Instr} {s t : State} (h : execAll (i :: is) s = .next t) :
    ∃ u, exec i s = .next u ∧ execAll is u = .next t := by
  cases hx : exec i s with
  | next u => exact ⟨u, rfl, (execAll_cons hx).symm.trans h⟩
  | fault f => simp [execAll, hx] at h
  | refused r => simp [execAll, hx] at h

theorem Alike.execAll {is : List Instr} {s s' t : State} (h : Alike s s') (ht : execAll is s = .next t) :
    ∃ t', execAll is s' = .next t' ∧ Alike t t' := by
  induction is generalizing s s' with
  | nil =>
    cases ht
    exact ⟨s', rfl, h⟩
  | cons i is ih =>
    obtain ⟨v, hv, hrest⟩ := execAll_cons_eq_next ht
    obtain ⟨v', hv', halike⟩ := h.exec hv
    obtain ⟨t', ht', hend⟩ := ih halike hrest
    exact ⟨t', (execAll_cons hv').trans ht', hend⟩

/-! ## The obligation -/

/-- Settles O40, by induction on the list: every command keeps states alike, and the host sees the same of them. -/
theorem sameShapeTreesAreIndistinguishable : Obligations.SameShapeTreesAreIndistinguishable := by
  intro is s s' t h ht
  obtain ⟨t', ht', halike⟩ := h.execAll ht
  exact ⟨t', ht', halike, halike.observe_eq⟩

end Sys2Proof.Machine
end

section
/-! Codes, bits and headers on the streams (20_memory.md, 30_encoding.md Part B): ENC and DEC of one symbol and of a
sequence, eight bits as one byte, HSER, and the container that COMPRESS writes. -/

namespace Sys2Proof.Machine

/-! ## Codes -/

/-- A code is empty on a one-leaf tree and on no other (30_encoding.md R111). -/
theorem code_eq_nil_iff {T : Tree} {x : Byte} {bs : List Bit} (h : T.code x = some bs) :
    bs = [] ↔ T.leaves = 1 := by
  cases T with
  | leaf w s =>
    obtain ⟨-, rfl⟩ : s = x ∧ [] = bs := by simpa [Tree.code] using h
    simp [Tree.leaves]
  | node w s l r =>
    have hl := leaves_pos l
    have hr := leaves_pos r
    have hbs : bs ≠ [] := by
      rintro rfl
      simp only [Tree.code] at h
      split at h <;> simp at h
    simp only [hbs, Tree.leaves, false_iff]
    omega

/-- A code has at most `PATH_MAX` bits (30_encoding.md R111). -/
theorem code_length_le_pathMax {T : Tree} (hn : T.symbols.Nodup) {x : Byte} {bs : List Bit}
    (h : T.code x = some bs) : bs.length ≤ 255 := by
  have := code_length_le h
  have := height_lt_leaves T
  have := leaves_le_of_nodup hn
  omega

/-- DEC over the code of a symbol consumes the code and delivers the symbol (42_decode.md R196). -/
theorem exec_dec_of_code {s : State} {T : Tree} {x : Byte} {bs rest : List Bit} (hs : s.err = 0#3) (hc : Coherent s)
    (hv : s.tree.view = some T) (hcode : T.code x = some bs) (hrest : s.inp.restBits = bs ++ rest) :
    ∃ i : InStream, exec .dec s = .next { s with inp := i, sym := x, dout := s.dout ++ [x], cp := s.cp + 1 } ∧
      i.bytes = s.inp.bytes ∧ i.restBits = rest := by
  have hwalk : T.walk s.inp.restBits = some (x, rest) := by rw [hrest, walk_code hcode]
  obtain ⟨i, hbytes, -, ⟨v, hsome, hexec⟩ | ⟨hnone, -, -⟩⟩ := exec_dec hs hc hv
  · obtain ⟨rfl, hi⟩ := Prod.mk.inj (Option.some.inj (hwalk.symm.trans hsome))
    exact ⟨i, hexec, hbytes, hi.symm⟩
  · cases hwalk.symm.trans hnone

theorem sameShape_payload {T U : Tree} (h : T.sameShape U = true) (data : List Byte) :
    T.payload data = U.payload data := by
  rw [← rebuilt_payload T, (sameShape_iff_rebuilt T U).mp h, rebuilt_payload]

/-! ## Eight bits -/

/-- The accumulator after one more bit (20_memory.md R62). -/
def shiftIn (acc : Byte) (b : Bit) : Byte := (acc <<< 1) ||| (BitVec.ofBool b).setWidth 8

/-- Bits that fill the partial byte complete it (20_memory.md R62). -/
theorem writeBits_fill {bs : List Bit} {o : OutStream} (h : o.nbits.val + bs.length = 8) :
    writeBits bs o = { bytes := o.bytes ++ [bs.foldl shiftIn o.acc], acc := 0#8, nbits := 0 } := by
  induction bs generalizing o with
  | nil =>
    have := o.nbits.isLt
    rw [List.length_nil] at h
    omega
  | cons b bs ih =>
    rw [List.length_cons] at h
    rw [writeBits_cons]
    by_cases hlt : o.nbits.val < 7
    · have hval : (o.nbits + 1).val = o.nbits.val + 1 := Fin.val_add_one_of_lt (Fin.lt_def.mpr hlt)
      rw [writeBit_of_lt b o hlt, ih (show (o.nbits + 1).val + bs.length = 8 by omega)]
      rfl
    · obtain rfl : bs = [] := List.length_eq_zero_iff.mp (by omega)
      exact writeBit_of_seven b o (Fin.ext (by show o.nbits.val = 7; omega))

/-- The bits of a byte, bit 7 first, shift in as that byte, whatever stood there before (20_memory.md R63). -/
theorem foldl_shiftIn_byteBits (acc v : Byte) : (byteBits v).foldl shiftIn acc = v := by
  apply BitVec.eq_of_getLsbD_eq
  intro j hj
  simp only [byteBits_eq, List.foldl_cons, List.foldl_nil, shiftIn]
  interval_cases j <;> simp

/-- Bits read up to the end of a byte are its last ones, the most significant first (20_memory.md R70). -/
theorem readBits_of_byte {v : Byte} {n : Nat} {i : InStream} (hv : i.bytes[i.pos]? = some v)
    (hn : i.bit.val + (n + 1) = 8) :
    readBits (n + 1) i =
      ((List.range (n + 1)).map fun j => v.getLsbD (n - j), { i with bit := 0, pos := i.pos + 1 }) := by
  induction n generalizing i with
  | zero =>
    have hlast : i.bit = 7 := Fin.ext (by show i.bit.val = 7; omega)
    simp [readBits, readBit, hv, hlast]
  | succ n ih =>
    have hbit : 7 - i.bit.val = n + 1 := by omega
    have hlt : i.bit.val < 7 := by omega
    have hval : (i.bit + 1).val = i.bit.val + 1 := Fin.val_add_one_of_lt (Fin.lt_def.mpr hlt)
    have hne : i.bit ≠ 7 := fun h => by simp [h] at hlt
    have hread : readBit i = (some (v.getLsbD (n + 1)), { i with bit := i.bit + 1 }) := by
      simp only [readBit, hv, hbit, if_neg hne]
    have hrest := ih (i := { i with bit := i.bit + 1 }) hv (show (i.bit + 1).val + (n + 1) = 8 by omega)
    rw [readBits, hread, List.range_succ_eq_map]
    simp only [hrest, List.map_cons, List.map_map, Nat.sub_zero, Function.comp_def, Nat.succ_eq_add_one,
      Nat.add_sub_add_right]

/-! ## COMPRESS -/

/-- The FSETs of COMPRESS are as many as the distinct symbols (45_sequences.md R261). -/
theorem compressFsets_length (data : List Byte) :
    (compressFsets data).length = (allSymbols.filter fun x => x ∈ data).length := by
  have hmem : ∀ x, (tally data x != 0) = decide (x ∈ data) := fun x => by
    rw [Bool.eq_iff_iff, bne_iff_ne, decide_eq_true_iff, tally, ne_eq, List.count_eq_zero, not_not]
  rw [compressFsets, List.length_map, List.filter_congr fun x _ => hmem x]

/-- COMPRESS of `n` symbols, `k` of them distinct, is `k + n + 5` commands (45_sequences.md R261). -/
theorem compress_length {data : List Byte} (hne : data ≠ []) :
    (compress data).length = (allSymbols.filter fun x => x ∈ data).length + data.length + 5 := by
  rw [compress_of_ne_nil hne, ← compressFsets_length]
  simp only [List.length_append, List.length_cons, List.length_map, List.length_nil]
  omega

/-! ## The obligations -/

/-- Settles O33: a present symbol has a code, ENC writes it, and it is empty on a one-leaf tree. -/
theorem encWritesTheCodeOfTheSymbol : Obligations.EncWritesTheCodeOfTheSymbol := by
  intro s x hs hwf hx
  obtain ⟨T, hv⟩ := hwf.view_of_present hx
  obtain ⟨bs, hcode⟩ := hwf.code_of_present hv hx
  refine ⟨T, bs, hv, hcode, exec_enc_of_code hs hwf hv hcode, writeBits_bits bs s.out, fun hone => ?_⟩
  rw [(code_eq_nil_iff hcode).mpr hone, writeBits_nil]

/-- Settles O36: a tree with at most 256 leaves has a height of at most 255. -/
theorem codeLengthsStayWithinPathMax : Obligations.CodeLengthsStayWithinPathMax := by
  intro t T hwf hv
  have hn := hwf.symbols_nodup hv
  exact ⟨leaves_le_of_nodup hn, fun x => (hwf.present_iff hv x).trans (code_isSome T x).symm,
    fun x bs hcode => ⟨code_length_le_pathMax hn hcode, code_eq_nil_iff hcode⟩⟩

/-- Settles O37, by the walk over the code. -/
theorem decReturnsTheCodedSymbol : Obligations.DecReturnsTheCodedSymbol :=
  fun _ _ _ _ _ hs hc hv hcode hrest => exec_dec_of_code hs hc hv hcode hrest

/-- Settles O41: the traversal writes the header, which has two bytes for each leaf and one for each merge. -/
theorem hserAppendsTheHeader : Obligations.HserAppendsTheHeader :=
  fun _ T hs hwf hv hn => ⟨exec_hser_aligned hs hwf hv hn, Nat.eq_sub_of_add_eq (header_length T)⟩

/-- Settles O52: the eighth bit completes the byte that the eight bits spell. -/
theorem eightBitsAreOneByte : Obligations.EightBitsAreOneByte := by
  refine ⟨fun o v hn => ?_, fun i v hb hv => ?_⟩
  · show writeBits (byteBits v) o = _
    rw [writeBits_fill (by rw [hn, byteBits_length]; rfl), foldl_shiftIn_byteBits]
  · rw [readBits_of_byte hv (by rw [hb]; rfl), ← hb]

/-- Settles O56: the ENCs write the payload, which a tree of the same shape codes alike, and the DECs walk over it. -/
theorem engineRoundTrip : Obligations.EngineRoundTrip := by
  intro data s T hs hwf hv hdata
  obtain ⟨bs, hp⟩ := hwf.payload_of_present hv hdata
  refine ⟨_, bs, execAll_map_enc hs hwf hv hp, hs, writeBits_bits bs s.out, ?_⟩
  intro r U rest hr hc hvU hshape hrest
  exact execAll_dec_of_payload hr hc hvU ((sameShape_payload hshape data).symm.trans hp) hrest

/-- Settles O57: the run of COMPRESS, and its bits packed behind the bytes of `OUT`. -/
theorem compressWritesOneContainer : Obligations.CompressWritesOneContainer := by
  intro s data hs hn ha hne hlen
  obtain ⟨T, bs, hv, hp⟩ := exists_payload_talliedTree hne (hlen.trans_lt s.params.countMax.isLt)
  refine ⟨_, T, bs, execAll_compress hs hn hne hlen hv hp, hs, flushBitwise_aligned _, ?_, hv, hp, ?_⟩
  · rw [← compress_length hne]
  · rw [container, ← List.append_assoc, ← List.append_assoc]
    exact flushBitwise_writeBits_bytes bs hn ha

end Sys2Proof.Machine
end

section
/-! HDES by the bytes it meets (43_header.md R220 to R228): what it leaves when it completes and when it faults, and
which bytes raise which fault. -/

namespace Sys2Proof.Machine

/-! ## The descent from the clear -/

/-- A tree whose leaf symbols are all different is never too deep for HDES (43_header.md R226). -/
theorem height_le_pathMax {T : Tree} (hn : T.symbols.Nodup) : T.height ≤ pathMax := by
  have := height_lt_leaves T
  have := leaves_le_of_nodup hn
  show T.height ≤ 255
  omega

/-- A header of different symbols has at most 767 bytes (43_header.md R226). -/
theorem header_length_le {T : Tree} (hn : T.symbols.Nodup) : T.header.length ≤ 767 := by
  have := header_length T
  have := leaves_le_of_nodup hn
  omega

theorem not_present_empty (x : Byte) : ¬ TreeStore.empty.present x = true := by simp [TreeStore.present]

theorem pos_le_of_restBytes_ne_nil {i : InStream} (h : i.restBytes ≠ []) : i.pos ≤ i.bytes.length := by
  by_contra hp
  exact h (List.drop_eq_nil_of_le (by omega))

section
variable {s : State}

/-- HDES raises what its descent raises, with `ROOT = NULL` and `IN` where the descent stood (43_header.md R227; log
12). -/
theorem exec_hdes_raise_at (hs : s.err = 0#3) (hb : s.inp.bit = 0) (hp : s.inp.pos ≤ s.inp.bytes.length)
    {k : FaultKind} {d : Loader} (hd : des pathMax { inp := s.inp, tree := TreeStore.empty } = .raise k d) :
    ∃ t : TreeStore, t.root = none ∧
      exec .hdes s = .next { s with err := k.code, tree := t, inp := { s.inp with pos := d.inp.pos } } := by
  obtain ⟨hexec, hroot⟩ := exec_hdes_raise hs hb hd
  have hinp : d.inp = { s.inp with pos := d.inp.pos } := by
    obtain ⟨e, d', T, hok, -⟩ | ⟨k', d', hraise, -, ⟨rs, hl⟩, hbytes⟩ := des_cases pathMax (loaderOk_start hb hp)
    · cases hd.symm.trans hok
    · cases hd.symm.trans hraise
      exact inStream_pos hbytes hb hl.aligned
  exact ⟨d.tree, hroot, by rw [hexec, ← hinp]⟩

/-- From any beginning of a header HDES's descent comes to the place where the next marker is due, and HDES raises what
the descent raises there (43_header.md R222). -/
theorem hdes_begun (hs : s.err = 0#3) (hb : s.inp.bit = 0) (hp : s.inp.pos ≤ s.inp.bytes.length)
    {ps : List (Option Tree)} {q : List Byte} (hrest : s.inp.restBytes = begunBytes ps ++ q) (hfit : begunFits 255 ps)
    (hn : (begunSymbols ps).Nodup) : ∃ (d : Loader) (rs : List Nat), LoaderOk d rs ∧ d.inp.restBytes = q ∧
      d.inp.bytes = s.inp.bytes ∧ d.inp.pos = s.inp.pos + (begunBytes ps).length ∧
      (∀ x ∈ begunSymbols ps, d.tree.present x = true) ∧
      ∀ k d', des (255 - ps.length) d = .raise k d' → ∃ t : TreeStore, t.root = none ∧
        exec .hdes s = .next { s with err := k.code, tree := t, inp := { s.inp with pos := d'.inp.pos } } := by
  obtain ⟨d, rs, hl, hq, hbytes, hpos, hpresent, hraise⟩ :=
    des_begun ps (loaderOk_start hb hp) hrest hfit hn fun x _ => leafOf_empty x
  exact ⟨d, rs, hl, hq, hbytes, hpos, fun x hx => (hpresent x).mpr (.inr hx),
    fun k d' hd => exec_hdes_raise_at hs hb hp (hraise k d' hd)⟩

/-- After any beginning of a header HDES raises what the descent raises on the next bytes wherever it stands on them,
with those bytes consumed (43_header.md R225; log 12). -/
theorem hdes_raise_begun (hs : s.err = 0#3) (hb : s.inp.bit = 0) (hp : s.inp.pos ≤ s.inp.bytes.length)
    {ps : List (Option Tree)} {q : List Byte} (hrest : s.inp.restBytes = begunBytes ps ++ q) (hfit : begunFits 255 ps)
    (hn : (begunSymbols ps).Nodup) {k : FaultKind} {n : Nat}
    (hraise : ∀ {d : Loader} {rs : List Nat}, LoaderOk d rs → d.inp.restBytes = q →
      (∀ x ∈ begunSymbols ps, d.tree.present x = true) →
      ∃ d', des (255 - ps.length) d = .raise k d' ∧ d'.inp.pos = d.inp.pos + n) :
    ∃ t : TreeStore, t.root = none ∧ exec .hdes s = .next
      { s with err := k.code, tree := t, inp := { s.inp with pos := s.inp.pos + ((begunBytes ps).length + n) } } := by
  obtain ⟨d, rs, hl, hq, -, hpos, hseen, hlift⟩ := hdes_begun hs hb hp hrest hfit hn
  obtain ⟨d', hd, hpos'⟩ := hraise hl hq hseen
  rw [← Nat.add_assoc, ← hpos, ← hpos']
  exact hlift k d' hd

/-- The bytes of an HDES that faults are a beginning of a header and what the fault's row names (43_header.md R225). -/
theorem faultAt_of_hdes {t : State} (hs : s.err = 0#3) (hb : s.inp.bit = 0) (h : exec .hdes s = .next t)
    (ht : t.err ≠ 0#3) : ∃ (k : FaultKind) (ps : List (Option Tree)) (q : List Byte), t.err = k.code ∧
      s.inp.restBytes = begunBytes ps ++ q ∧ begunFits 255 ps ∧ (begunSymbols ps).Nodup ∧
      FaultAt 255 ps (fun _ => False) k q := by
  by_cases hp : s.inp.pos ≤ s.inp.bytes.length
  · have hl := loaderOk_start hb hp
    obtain ⟨e, d, T, hok, -⟩ | ⟨k, d, hraise, -⟩ := des_cases pathMax hl
    · cases (exec_hdes_of_des_ok hs hb hok).symm.trans h
      exact absurd hs ht
    · obtain ⟨ps, q, hrest, hfit, hn, -, hat⟩ := des_raise_begun pathMax hl hraise
      cases (exec_hdes_raise hs hb hraise).1.symm.trans h
      refine ⟨k, ps, q, rfl, hrest, hfit, hn, ?_⟩
      simpa [not_present_empty] using hat
  · have hrest : s.inp.restBytes = [] := by_contra fun hne => hp (pos_le_of_restBytes_ne_nil hne)
    cases (exec_hdes_beyond hs hb hrest).symm.trans h
    exact ⟨.truncatedStream, [], [], rfl, hrest, trivial, List.nodup_nil, .noMarker⟩

end

/-! ## The obligations -/

/-- Settles O43, by HDES over a header. -/
theorem hdesRebuildsTheTreeOfAHeader : Obligations.HdesRebuildsTheTreeOfAHeader :=
  fun _ _ _ hs hb hrest hn => exec_hdes_of_header hs hb hrest hn

/-- Settles O44: of HDES's ends the one without a fault has read the header of its tree. -/
theorem hdesCompletesOnlyOnAHeader : Obligations.HdesCompletesOnlyOnAHeader := by
  intro s t hs h ht
  by_cases hb : s.inp.bit = 0
  · obtain ⟨T, u, i, hwf, hv, hre, hn, hrest, rfl, -, -, hexec⟩ | ⟨k, u, i, -, -, -, -, hexec⟩ := exec_hdes_cases hs hb
    · cases hexec.symm.trans h
      exact ⟨hb, hwf, T, hv, hre, hn, hrest, header_length_le hn, rfl⟩
    · cases hexec.symm.trans h
      exact absurd ht (code_ne_zero k)
  · cases (exec_hdes_misaligned hs hb).symm.trans h
    exact absurd ht (code_ne_zero .misaligned)

/-- Settles O46: the alignment check comes before the clear, and the descent raises one of two faults. -/
theorem hdesFaultLeavesNoTree : Obligations.HdesFaultLeavesNoTree := by
  intro s t hs h ht
  by_cases hb : s.inp.bit = 0
  · obtain ⟨T, u, i, -, -, -, -, -, -, -, -, hexec⟩ | ⟨k, u, i, hk, hroot, hi, -, hexec⟩ := exec_hdes_cases hs hb
    · cases hexec.symm.trans h
      exact absurd hs ht
    · cases hexec.symm.trans h
      have hcode : k.code = 2#3 ∨ k.code = 5#3 := hk.imp (congrArg FaultKind.code) (congrArg FaultKind.code)
      exact .inr ⟨hb, hcode, hroot, (status_empty_iff _).mpr hroot, by dsimp only; rw [← hi]⟩
  · exact .inl ⟨hb, Host.Outcome.next.inj (h.symm.trans (exec_hdes_misaligned hs hb))⟩

/-- Settles O45: the bytes of a whole header by the descent over that header, every other place by the descent from
it. -/
theorem hdesFaultsByTheBytesItMeets : Obligations.HdesFaultsByTheBytesItMeets := by
  intro s hs hb hp
  refine ⟨fun T p hn hrest hpre hne => ?_, fun T rest hheight hn hrest => ?_, fun ps hfit hn => ⟨fun hrest => ?_,
    fun m rest h0 h1 hrest => ?_, fun x rest hx hrest => ?_, fun rest hlen hrest => ?_⟩⟩
  · obtain ⟨d, hraise, hpos, -⟩ := des_prefix T (loaderOk_start hb hp) hrest hpre hne hn (fun x _ => leafOf_empty x)
      (height_le_pathMax hn)
    exact hpos ▸ exec_hdes_raise_at hs hb hp hraise
  · obtain ⟨d, hraise⟩ := des_duplicate T (loaderOk_start hb hp) hrest (fun h => hn h.1) hheight
    obtain ⟨t, hroot, hexec⟩ := exec_hdes_raise_at hs hb hp hraise
    exact ⟨_, hexec, rfl, hroot⟩
  · obtain ⟨q, hq, hrest⟩ : ∃ q, (q = [] ∨ q = [0x01#8]) ∧ s.inp.restBytes = begunBytes ps ++ q := by
      rcases hrest with hrest | hrest
      · exact ⟨[], .inl rfl, hrest.trans (List.append_nil _).symm⟩
      · exact ⟨[0x01#8], .inr rfl, hrest⟩
    obtain ⟨d, rs, hl, rfl, hbytes, -, -, hlift⟩ := hdes_begun hs hb hp hrest hfit hn
    obtain ⟨hend, -, -, -⟩ := des_here_raise hl
    obtain ⟨d', hraise, hpos⟩ := hend hq
    rw [← hbytes, ← hpos]
    exact hlift _ _ hraise
  · refine hdes_raise_begun (k := .badFormat) hs hb hp hrest hfit hn fun hl hq _ => ?_
    obtain ⟨-, hmarker, -, -⟩ := des_here_raise hl
    exact hmarker m rest h0 h1 hq
  · refine hdes_raise_begun (k := .badFormat) hs hb hp hrest hfit hn fun hl hq hseen => ?_
    obtain ⟨-, -, hsymbol, -⟩ := des_here_raise hl
    exact hsymbol x rest (hseen x hx) hq
  · refine hdes_raise_begun (k := .badFormat) hs hb hp hrest hfit hn fun hl hq _ => ?_
    obtain ⟨-, -, -, hroom⟩ := des_here_raise hl
    exact hroom rest (by rw [hlen]) hq

/-- Settles O59: the bytes of an HDES that faults stand in the row of its fault, and the bytes of each row raise it. -/
theorem hdesRaisesNoOtherFaultOnItsBytes : Obligations.HdesRaisesNoOtherFaultOnItsBytes := by
  intro s t hs hb h
  refine ⟨⟨fun ht => ?_, ?_⟩, ⟨fun ht => ?_, ?_⟩⟩
  · obtain ⟨k, ps, q, hk, hrest, hfit, hn, hat⟩ := faultAt_of_hdes hs hb h (by rw [ht]; decide)
    refine ⟨ps, hfit, hn, ?_⟩
    cases hat with
    | noMarker => exact .inl (hrest.trans (List.append_nil _))
    | noSymbol => exact .inr hrest
    | badMarker | seenBefore | noRoom => exact absurd (hk.symm.trans ht) (by decide)
  · rintro ⟨ps, hfit, hn, hrest⟩
    by_cases hp : s.inp.pos ≤ s.inp.bytes.length
    · obtain ⟨u, -, hexec⟩ := ((hdesFaultsByTheBytesItMeets s hs hb hp).2.2 ps hfit hn).1 hrest
      cases hexec.symm.trans h
      rfl
    · have hnil : s.inp.restBytes = [] := by_contra fun hne => hp (pos_le_of_restBytes_ne_nil hne)
      cases (exec_hdes_beyond hs hb hnil).symm.trans h
      rfl
  · obtain ⟨k, ps, q, hk, hrest, hfit, hn, hat⟩ := faultAt_of_hdes hs hb h (by rw [ht]; decide)
    refine ⟨ps, hfit, hn, ?_⟩
    cases hat with
    | noMarker | noSymbol => exact absurd (hk.symm.trans ht) (by decide)
    | badMarker m rest h1 h0 => exact .inl ⟨m, rest, h0, h1, hrest⟩
    | seenBefore x rest hx => exact .inr (.inl ⟨x, rest, hx.resolve_left id, hrest⟩)
    | noRoom rest hlen => exact .inr (.inr ⟨rest, hlen, hrest⟩)
  · rintro ⟨ps, hfit, hn, hrow⟩
    have hp : s.inp.pos ≤ s.inp.bytes.length := pos_le_of_restBytes_ne_nil fun hnil => by
      rcases hrow with ⟨m, rest, -, -, hrest⟩ | ⟨x, rest, -, hrest⟩ | ⟨rest, -, hrest⟩ <;> simp [hrest] at hnil
    obtain ⟨-, hmarker, hsymbol, hroom⟩ := (hdesFaultsByTheBytesItMeets s hs hb hp).2.2 ps hfit hn
    obtain ⟨u, n, hexec⟩ : ∃ (u : TreeStore) (n : Nat),
        exec .hdes s = .next { s with err := 5#3, tree := u, inp := { s.inp with pos := n } } := by
      rcases hrow with ⟨m, rest, h0, h1, hrest⟩ | ⟨x, rest, hx, hrest⟩ | ⟨rest, hlen, hrest⟩
      · exact (hmarker m rest h0 h1 hrest).imp fun _ hu => ⟨_, hu.2⟩
      · exact (hsymbol x rest hx hrest).imp fun _ hu => ⟨_, hu.2⟩
      · exact (hroom rest hlen hrest).imp fun _ hu => ⟨_, hu.2⟩
    cases hexec.symm.trans h
    rfl

end Sys2Proof.Machine
end
